-- ==== Sys2Proof/Word.lean ====
section
/-! DEFINITION. The word type, addresses, addressing modes, operand roles and fault causes
(spec 00_scope.md R11, R12, R14; 30_encoding.md R63, R69; 60_exceptions.md R160). -/

namespace Sys2Proof

/-- A memory cell, the relative base, an operand value, a channel element: a mathematical signed
integer (R11). Under `WORD_MODEL = Int64` it is one of the integers of `Machine.isWord`: every
operation that brings a value into a machine (`parseText`, `construct`, `State.push`) or computes one
(`chkW`) checks that, and `State.Inv` says it of the state. The rest of the model writes `Int` for it,
since the arithmetic tactics read that name. -/
abbrev Word := Int

/-- An address: a natural number (R11). `Machine.chkA` is what keeps it below `ADDR_LIMIT`. The rest
of the model writes `Nat` for it. -/
abbrev Addr := Nat

/-- The three addressing modes (R63). -/
inductive Mode where
  | position
  | immediate
  | relative
deriving DecidableEq, Repr

/-- How an instruction uses an operand (R69). -/
inductive Role where
  | source
  | dest
deriving DecidableEq, Repr

/-- The two channels of a machine; `ChannelClosed` says which one (R160). -/
inductive Side where
  | input
  | output
deriving DecidableEq, Repr

/-- The eight fault causes, in the order of their codes 1 to 8 (R160). -/
inductive Cause where
  | parseError
  | unknownOpcode
  | invalidAddressingMode
  | invalidWriteTarget
  | negativeAddress
  | channelClosed
  | addressOutOfRange
  | arithmeticOverflow
deriving DecidableEq, Repr

/-- What `raise F(info)` raises: the cause with its info, as R160's last column gives it. -/
inductive Raised where
  | parseError (position : Nat)
  | unknownOpcode (w : Int)
  | invalidAddressingMode (w : Int)
  | invalidWriteTarget (raw : Int)
  | negativeAddress (x : Int)
  | channelClosed (side : Side)
  | addressOutOfRange (x : Int)
  | arithmeticOverflow (x : Int)
deriving DecidableEq, Repr

end Sys2Proof
end

