-- ==== Sys2Proof/Config.lean ====
section
/-! DEFINITION. The parameters of a machine (spec 00_scope.md R8 to R10) and the values the spec
leaves open to any value (93_implementation_defined.md I4, I8). -/

namespace Sys2Proof

/-- `WORD_MODEL` (R8, R9). -/
inductive WordModel where
  | unbounded
  | int64
deriving DecidableEq, Repr

/-- The parameters a model takes (R8). The operand-count table and the unbounded channels are fixed
by the spec and are no parameter; the topology is `Machine.System.wires`. -/
structure Config where
  /-- `WORD_MODEL` -/
  wordModel : WordModel
  /-- `ADDR_LIMIT`, a positive natural number -/
  addrLimit : Nat
  /-- `STRICT_MODE_DIGITS` -/
  strictModeDigits : Bool
deriving DecidableEq, Repr

/-- The values the spec takes (R8, R9, R10). -/
def Config.spec : Config :=
  { wordModel := .unbounded, addrLimit := 2 ^ 63, strictModeDigits := true }

/-- The documented 64-bit variant (R9). -/
def Config.int64Variant : Config :=
  { wordModel := .int64, addrLimit := 2 ^ 63, strictModeDigits := true }

/-- FREE VALUE (log entry 2). `fault_word` when the fetch itself faulted: "any value"
(93_implementation_defined.md I4). Applied to the machine's `freeCount`. -/
opaque Config.freeFaultWord : Nat → Int

/-- FREE VALUE (log entry 10). Whether the Handle reports an error to a host that pushes to a
terminated machine: "any value on the host side" (93_implementation_defined.md I8). Applied to the
machine's `freeCount` and the length of its input queue. -/
opaque Config.freePushReport : Nat → Nat → Bool

end Sys2Proof
end

