-- ==== Sys2Proof/Syntax.lean ====
section
/-! DEFINITION. The instructions (spec 30_encoding.md R69, R70): one constructor per row of
opcode_table.json, with the mode of each operand, as the decoder returns them (R64). Operand words
are no part of the decoded instruction: they are read from memory when an operand is resolved
(40_execution.md R82, R83), one after the other, and each read may fault. -/

namespace Sys2Proof

/-- `m1`, `m2`, `m3` are the modes of operands 1, 2 and 3 (R62). -/
inductive Instr where
  | add (m1 m2 m3 : Mode)
  | mul (m1 m2 m3 : Mode)
  | inp (m1 : Mode)
  | out (m1 : Mode)
  | jnz (m1 m2 : Mode)
  | jz (m1 m2 : Mode)
  | lt (m1 m2 m3 : Mode)
  | eq (m1 m2 m3 : Mode)
  | arb (m1 : Mode)
  | halt
deriving DecidableEq, Repr

end Sys2Proof
end

