-- ==== Sys2Proof/WellFormed.lean ====
section
/-! DEFINITION. Well-formed instructions. Every `Instr` decodes from some word (30_encoding.md R74);
the one form the spec calls illegal after decoding is an Immediate destination (R63 "invalid as a
write target", R73), and that is the check made here, once for each instruction with a destination.
The machine runs ill-formed instructions too: they take the `InvalidWriteTarget` fault. -/

namespace Sys2Proof

/-- A mode a destination operand may have (R63, R83). -/
def Mode.writable : Mode → Bool
  | .position => true
  | .immediate => false
  | .relative => true

/-- No destination operand is Immediate (R69, R73). -/
def Instr.wellFormed : Instr → Bool
  | .add _ _ m3 => m3.writable
  | .mul _ _ m3 => m3.writable
  | .inp m1 => m1.writable
  | .out _ => true
  | .jnz _ _ => true
  | .jz _ _ => true
  | .lt _ _ m3 => m3.writable
  | .eq _ _ m3 => m3.writable
  | .arb _ => true
  | .halt => true

end Sys2Proof
end

