-- ==== Sys2Proof/Decode.lean ====
section
/-! DEFINITION. The opcode table, the decoder, the encoder and the assembler notation
(spec 30_encoding.md R60 to R78; 40_execution.md R80). -/

namespace Sys2Proof

/-- The Opcode Table `NOPS`: operand count of each legal code, no entry for the others (R80). -/
def nops (code : Nat) : Option Nat :=
  match code with
  | 1 => some 3
  | 2 => some 3
  | 3 => some 1
  | 4 => some 1
  | 5 => some 2
  | 6 => some 2
  | 7 => some 3
  | 8 => some 3
  | 9 => some 1
  | 99 => some 0
  | _ => none

/-- `dig[k](w)`: the k-th decimal digit, counted from 0 at the least significant end (R12). -/
def dig (k w : Nat) : Nat := w / 10 ^ k % 10

/-- The mode a legal mode digit names (R63). -/
def modeOfDigit (d : Nat) : Option Mode :=
  match d with
  | 0 => some .position
  | 1 => some .immediate
  | 2 => some .relative
  | _ => none

/-- The loop of the decoder: `n` mode digits of `rest`, least significant first, and what is left of
`rest` (R64, R66). `w` is the whole instruction word, the info of the fault. -/
def takeModes (w : Int) : Nat → Nat → Except Raised (List Mode × Nat)
  | 0, rest => .ok ([], rest)
  | n + 1, rest =>
    match modeOfDigit (rest % 10) with
    | none => .error (.invalidAddressingMode w)
    | some m =>
      match takeModes w n (rest / 10) with
      | .error e => .error e
      | .ok (ms, left) => .ok (m :: ms, left)

/-- The row of the opcode map a code selects, with the modes of its operands (R70). -/
def buildInstr (code : Nat) (modes : List Mode) : Option Instr :=
  match code, modes with
  | 1, [m1, m2, m3] => some (.add m1 m2 m3)
  | 2, [m1, m2, m3] => some (.mul m1 m2 m3)
  | 3, [m1] => some (.inp m1)
  | 4, [m1] => some (.out m1)
  | 5, [m1, m2] => some (.jnz m1 m2)
  | 6, [m1, m2] => some (.jz m1 m2)
  | 7, [m1, m2, m3] => some (.lt m1 m2 m3)
  | 8, [m1, m2, m3] => some (.eq m1 m2 m3)
  | 9, [m1] => some (.arb m1)
  | 99, [] => some .halt
  | _, _ => none

/-- `Decode(w)` (R64): the sign (R65), the code (R71), the mode digits in operand order (R63, R66),
the excess digits (R67). The last `none` is not reached: `buildInstr` knows every code of `nops`. -/
def decode (strict : Bool) (w : Int) : Except Raised Instr :=
  if w < 0 then .error (.unknownOpcode w)
  else
    let code := w.toNat % 100
    match nops code with
    | none => .error (.unknownOpcode w)
    | some n =>
      match takeModes w n (w.toNat / 100) with
      | .error e => .error e
      | .ok (modes, excess) =>
        if strict && excess != 0 then .error (.invalidAddressingMode w)
        else
          match buildInstr code modes with
          | some i => .ok i
          | none => .error (.unknownOpcode w)

/-- The instruction this decoder reads from the instruction word whose value is `w`, under the
spec's parameters (log entry 5). Words have no width here (R11, R41), so the instruction word takes
every bit the host gives and the operand words, which the decoder does not read, are 0. -/
def decodeTableWord (_nbits w : Nat) : Option Instr :=
  match decode Config.spec.strictModeDigits (w : Int) with
  | .ok i => some i
  | .error _ => none

/-! ### The encoder -/

/-- The mode digit of a mode (R63). -/
def Mode.digit : Mode → Nat
  | .position => 0
  | .immediate => 1
  | .relative => 2

/-- The code of an instruction (R70). -/
def Instr.code : Instr → Nat
  | .add _ _ _ => 1
  | .mul _ _ _ => 2
  | .inp _ => 3
  | .out _ => 4
  | .jnz _ _ => 5
  | .jz _ _ => 6
  | .lt _ _ _ => 7
  | .eq _ _ _ => 8
  | .arb _ => 9
  | .halt => 99

/-- Role and mode of each operand, in operand order (R69). -/
def Instr.operands : Instr → List (Role × Mode)
  | .add m1 m2 m3 => [(.source, m1), (.source, m2), (.dest, m3)]
  | .mul m1 m2 m3 => [(.source, m1), (.source, m2), (.dest, m3)]
  | .inp m1 => [(.dest, m1)]
  | .out m1 => [(.source, m1)]
  | .jnz m1 m2 => [(.source, m1), (.source, m2)]
  | .jz m1 m2 => [(.source, m1), (.source, m2)]
  | .lt m1 m2 m3 => [(.source, m1), (.source, m2), (.dest, m3)]
  | .eq m1 m2 m3 => [(.source, m1), (.source, m2), (.dest, m3)]
  | .arb m1 => [(.source, m1)]
  | .halt => []

/-- `size = operand count + 1` (R60). -/
def Instr.length (i : Instr) : Nat := i.operands.length + 1

/-- The number whose decimal digits are the mode digits, operand 1 least significant (R62). -/
def modeNumber : List Mode → Nat
  | [] => 0
  | m :: ms => m.digit + 10 * modeNumber ms

/-- The instruction word `code + 100·m1 + 1000·m2 + 10000·m3` (R62, R75). -/
def encode (i : Instr) : Int :=
  (i.code + 100 * modeNumber (i.operands.map Prod.snd) : Nat)

/-! ### The assembler notation (R75, R76, R19) -/

/-- A line of assembly: an instruction and its operand words in order (R75). -/
structure Line where
  instr : Instr
  operandWords : List Int
deriving DecidableEq, Repr

/-- One operand word per operand (R61). -/
def Line.wellFormed (l : Line) : Bool := l.operandWords.length == l.instr.operands.length

/-- The words of a line: the instruction word followed by the operand words (R75). -/
def Line.words (l : Line) : List Int := encode l.instr :: l.operandWords

/-- The mnemonic of an instruction (R19). -/
def Instr.mnemonic : Instr → String
  | .add _ _ _ => "ADD"
  | .mul _ _ _ => "MUL"
  | .inp _ => "IN"
  | .out _ => "OUT"
  | .jnz _ _ => "JNZ"
  | .jz _ _ => "JZ"
  | .lt _ _ _ => "LT"
  | .eq _ _ _ => "EQ"
  | .arb _ => "ARB"
  | .halt => "HALT"

/-- `[x]`, `#x`, `[rb+x]` or, for a negative x, `[rb-x]` (R75). -/
def operandText (m : Mode) (x : Int) : String :=
  match m with
  | .position => "[" ++ toString x ++ "]"
  | .immediate => "#" ++ toString x
  | .relative => if x < 0 then "[rb" ++ toString x ++ "]" else "[rb+" ++ toString x ++ "]"

/-- `MNEMONIC op1, op2, op3` (R75). -/
def Line.text (l : Line) : String :=
  let ops := (l.instr.operands.map Prod.snd).zipWith operandText l.operandWords
  if ops.isEmpty then l.instr.mnemonic
  else l.instr.mnemonic ++ " " ++ ", ".intercalate ops

/-- `MOV s, d` is `ADD s, #0, d` (R76). -/
def Line.mov (ms : Mode) (s : Int) (md : Mode) (d : Int) : Line :=
  { instr := .add ms .immediate md, operandWords := [s, 0, d] }

/-- `JMP t` is `JNZ #1, t` (R76). -/
def Line.jmp (mt : Mode) (t : Int) : Line :=
  { instr := .jnz .immediate mt, operandWords := [1, t] }

/-- `DATA x` is the one word x (R76). -/
def dataWords (x : Int) : List Int := [x]

end Sys2Proof
end

