-- ==== Sys2Proof/Machine/State.lean ====
section
/-! DEFINITION. The state of one machine with its two channel endpoints (spec 10_state.md R20), the
reasons a step can stop, and the state after reset. -/

namespace Sys2Proof.Machine

/-- One cell of memory that does not hold 0: an address and the word it holds. The spec's unit of
addressing is a whole word (20_memory.md R41), so cells hold words, not bytes (log entry 7). -/
abbrev Cell := Nat × Int

/-- `mem` (10_state.md R34) as a finite map with default `Memory.unlisted`. -/
abbrev Memory := List Cell

/-- What an address that is not listed reads as: "reading an address never written returns 0" (R34,
20_memory.md R42). -/
abbrev Memory.unlisted : Int := 0

/-- The canonical form: addresses strictly rising, no entry equal to what an unlisted address reads
as, so that equal memories are equal data. -/
abbrev Memory.wf (m : Memory) : Prop :=
  m.Pairwise (fun p q => p.1 < q.1) ∧ ∀ p ∈ m, p.2 ≠ Memory.unlisted

/-- `run_state` (R25). -/
inductive RunState where
  | running
  | waitingOnInput
  | halted
  | faulted
deriving DecidableEq, Repr

/-- The state of one machine (R20): memory, registers, status, fault record and channel endpoints;
its parameters `cfg` (constant, log entry 1); and the model's own counter `freeCount` (log entry 2). -/
structure State where
  /-- the machine's parameters (00_scope.md R8); no step and no host operation writes them -/
  cfg : Config
  /-- `mem` (R34) -/
  mem : Memory
  /-- `ip` (R22) -/
  ip : Nat
  /-- `rb` (R24) -/
  rb : Int
  /-- `run_state` (R25) -/
  runState : RunState
  /-- `started` (R26) -/
  started : Bool
  /-- `fault_cause` (R27); `none` stands for the value 0, "no fault has occurred" (log entry 8) -/
  faultCause : Option Cause
  /-- `fault_ip` (R27) -/
  faultIp : Nat
  /-- `fault_word` (R27) -/
  faultWord : Int
  /-- `InQ`, head first (R30) -/
  inQ : List Int
  /-- `in_closed` (R31) -/
  inClosed : Bool
  /-- `OutQ`, head first (R32) -/
  outQ : List Int
  /-- `out_closed` (R33) -/
  outClosed : Bool
  /-- `out_dropped` (R33) -/
  outDropped : Bool
  /-- the model's own: how many free values this machine has drawn (log entry 2) -/
  freeCount : Nat
deriving DecidableEq, Repr

/-- Why a machine has no enabled step (40_execution.md R89). These are the only stops of `step`: a
fault of the ISA is no stop but a next state (60_exceptions.md R163). All are raised by `step`,
through `noStep`, never by an instruction. All are safe: the machine does nothing there (log
entry 6). -/
inductive Fault where
  /-- raised by `step` before the host's `start()`; safe (R26, R89) -/
  | notStarted
  /-- raised by `step` in `WaitingOnInput` with `InQ` empty and `in_closed` false; safe (R89) -/
  | blockedOnInput
  /-- raised by `step` in `Halted`, which is terminal; safe (R25, R89) -/
  | alreadyHalted
  /-- raised by `step` in `Faulted`, which is terminal; safe (R25, R165) -/
  | alreadyFaulted
deriving DecidableEq, Repr

/-- Why an instruction has no meaning in the model. -/
inductive Refusal where
  /-- raised by `exec` for an instruction that is not modelled (there is none); safe -/
  | notModelled (mnemonic : String)
deriving DecidableEq, Repr

/-- The state of a freshly constructed machine whose memory is `m` (10_state.md R36, every row but
`mem`). `fault_ip` and `fault_word` are "unspecified; read only when `fault_cause` ≠ 0": DESIGN
CHOICE 0 (log entry 3). -/
def State.fresh (c : Config) (m : Memory) : State :=
  { cfg := c
    mem := m
    ip := 0
    rb := 0
    runState := .running
    started := false
    faultCause := none
    faultIp := 0
    faultWord := 0
    inQ := []
    inClosed := false
    outQ := []
    outClosed := false
    outDropped := false
    freeCount := 0 }

/-- The machine right after reset, under the spec's parameters, with nothing listed in memory: the
construction of the program text `0` (log entry 4). It has not been started (R36). -/
def State.reset : State := State.fresh Config.spec []

end Sys2Proof.Machine
end

