-- ==== Sys2Proof/Machine/Ops.lean ====
section
/-! DEFINITION. The named operations over memory, registers and channels; the checks `chkA` and
`chkW`; fetch; and fault entry, the one operation by which an instruction takes a fault. -/

namespace Sys2Proof

/-- The code of a cause (60_exceptions.md R160). -/
def Cause.code : Cause → Nat
  | .parseError => 1
  | .unknownOpcode => 2
  | .invalidAddressingMode => 3
  | .invalidWriteTarget => 4
  | .negativeAddress => 5
  | .channelClosed => 6
  | .addressOutOfRange => 7
  | .arithmeticOverflow => 8

/-- The cause that `raise F(info)` raises (60_exceptions.md R160). -/
def Raised.cause : Raised → Cause
  | .parseError _ => .parseError
  | .unknownOpcode _ => .unknownOpcode
  | .invalidAddressingMode _ => .invalidAddressingMode
  | .invalidWriteTarget _ => .invalidWriteTarget
  | .negativeAddress _ => .negativeAddress
  | .channelClosed _ => .channelClosed
  | .addressOutOfRange _ => .addressOutOfRange
  | .arithmeticOverflow _ => .arithmeticOverflow

namespace Machine

/-- The value of the register `fault_cause`: 0 while no fault has occurred (10_state.md R27). -/
def causeCode : Option Cause → Nat
  | none => 0
  | some c => c.code

/-! ### Memory -/

/-- `MemRead(a, 1)` (20_memory.md R42). -/
def Memory.read : Memory → Nat → Int
  | [], _ => Memory.unlisted
  | (b, v) :: m, a => if a = b then v else Memory.read m a

/-- `MemWrite(a, 1, v)` (20_memory.md R43). Keeps the canonical form: writing what an unlisted
address reads as removes the entry. -/
def Memory.write : Memory → Nat → Int → Memory
  | [], a, v => if v = Memory.unlisted then [] else [(a, v)]
  | (b, u) :: m, a, v =>
    if a < b then
      if v = Memory.unlisted then (b, u) :: m else (a, v) :: (b, u) :: m
    else if a = b then
      if v = Memory.unlisted then m else (a, v) :: m
    else (b, u) :: Memory.write m a v

/-! ### Checks (00_scope.md R14) -/

/-- An integer that is a `Word` under these parameters (R11). -/
def isWord (c : Config) (x : Int) : Bool :=
  match c.wordModel with
  | .unbounded => true
  | .int64 => decide (-(2 ^ 63) ≤ x ∧ x < 2 ^ 63)

/-- `chkA(x)`: a computed address, checked (20_memory.md R44, R45). -/
def chkA (c : Config) (x : Int) : Except Raised Nat :=
  if x < 0 then .error (.negativeAddress x)
  else if (c.addrLimit : Int) ≤ x then .error (.addressOutOfRange x)
  else .ok x.toNat

/-- `chkW(x)`: a computed word, checked (41_arithmetic.md R102). -/
def chkW (c : Config) (x : Int) : Except Raised Int :=
  if isWord c x then .ok x else .error (.arithmeticOverflow x)

/-! ### Updates of the state -/

/-- The word the cell at address `a` holds. -/
def State.cell (s : State) (a : Nat) : Int := s.mem.read a

/-- `MemWrite(d, 1, v)`. -/
def State.store (s : State) (d : Nat) (v : Int) : State := { s with mem := s.mem.write d v }

/-- `ip <- ip + n` (40_execution.md R87). -/
def State.advance (s : State) (n : Nat) : State := { s with ip := s.ip + n }

/-- `ip <- target` (43_jumps.md R122). -/
def State.jump (s : State) (target : Nat) : State := { s with ip := target }

/-- `rb <- v` (45_relative_base.md R140). -/
def State.setRb (s : State) (v : Int) : State := { s with rb := v }

/-- `run_state <- r` (10_state.md R25). -/
def State.setRun (s : State) (r : RunState) : State := { s with runState := r }

/-- `InQ` after its head has been taken: `rest` is left (10_state.md R30). -/
def State.popInput (s : State) (rest : List Int) : State := { s with inQ := rest }

/-- `OutQ.pushTail(v)` (10_state.md R32). -/
def State.pushOutput (s : State) (v : Int) : State := { s with outQ := s.outQ ++ [v] }

/-- Entry to `Halted`: the run loop ends and the output channel closes (46_halt.md R150). -/
def State.enterHalted (s : State) : State := { s with runState := .halted, outClosed := true }

/-! ### Fetch and decode -/

/-- `w <- M[chkA(ip)]` (40_execution.md R85). -/
def fetch (s : State) : Except Raised Int :=
  match chkA s.cfg s.ip with
  | .error e => .error e
  | .ok a => .ok (s.cell a)

/-- Fetch, then decode (40_execution.md R84 checks 1 and 2, R90). -/
def fetchDecode (s : State) : Except Raised Instr :=
  match fetch s with
  | .error e => .error e
  | .ok w => decode s.cfg.strictModeDigits w

/-! ### Taking a fault -/

/-- `FaultEntry(F, i)` (60_exceptions.md R163): the run state, the fault record and `out_closed` are
written and nothing else. `fault_word` is the instruction word if the fetch succeeded, else a FREE
VALUE (log entry 2), which draws on the model's own counter. The info of the fault is recorded
nowhere (10_state.md R27). There is no return from a fault: `Faulted` is terminal (R165). -/
def faultEntry (e : Raised) (s : State) : State :=
  match fetch s with
  | .ok w =>
    { s with
      runState := .faulted
      faultCause := some e.cause
      faultIp := s.ip
      faultWord := w
      outClosed := true }
  | .error _ =>
    { s with
      runState := .faulted
      faultCause := some e.cause
      faultIp := s.ip
      faultWord := Config.freeFaultWord s.freeCount
      outClosed := true
      freeCount := s.freeCount + 1 }

/-- The end of an instruction: its effects are committed all at once, or the fault it raised is
taken in the state before the instruction (40_execution.md R86). -/
def commit (s : State) (r : Except Raised State) : Host.Outcome State Fault Refusal :=
  match r with
  | .ok t => .next t
  | .error e => .next (faultEntry e s)

/-! ### Step enabling -/

/-- Why the machine has no enabled step; `none` when it has one (40_execution.md R89). -/
def noStep (s : State) : Option Fault :=
  if s.started = false then some .notStarted
  else
    match s.runState with
    | .running => none
    | .waitingOnInput =>
      if s.inQ = [] ∧ s.inClosed = false then some .blockedOnInput else none
    | .halted => some .alreadyHalted
    | .faulted => some .alreadyFaulted

end Machine

end Sys2Proof
end

