-- ==== Sys2Proof/Machine/Operands.lean ====
section
/-! DEFINITION. Operand resolution, every mode for sources and destinations (spec 40_execution.md R82,
R83; 30_encoding.md R68). -/

namespace Sys2Proof.Machine

/-- The operand word `M[chkA(ip + k)]` of operand `k`, counted from 1 (R16, R82). -/
def operandWord (s : State) (k : Nat) : Except Raised Int := do
  let a ← chkA s.cfg ((s.ip + k : Nat) : Int)
  return s.cell a

/-- `chkA(chkW(rb + raw))`: the effective address of a Relative operand (R82, R83). -/
def relativeAddr (s : State) (raw : Int) : Except Raised Nat := do
  let x ← chkW s.cfg (s.rb + raw)
  chkA s.cfg x

/-- `RdOp(k)`: the value of operand `k` used as a source, in mode `m` (R82). -/
def rdOp (s : State) (k : Nat) (m : Mode) : Except Raised Int := do
  let raw ← operandWord s k
  match m with
  | .position => do
    let a ← chkA s.cfg raw
    return s.cell a
  | .immediate => return raw
  | .relative => do
    let a ← relativeAddr s raw
    return s.cell a

/-- `WrAddr(k)`: the write address of operand `k` used as a destination, in mode `m` (R83). -/
def wrAddr (s : State) (k : Nat) (m : Mode) : Except Raised Nat := do
  let raw ← operandWord s k
  match m with
  | .position => chkA s.cfg raw
  | .immediate => throw (.invalidWriteTarget raw)
  | .relative => relativeAddr s raw

end Sys2Proof.Machine
end

