-- ==== Sys2Proof/Machine/Arithmetic.lean ====
section
/-! DEFINITION. ADD and MUL (spec 41_arithmetic.md R100 to R102). -/

namespace Sys2Proof.Machine

/-- The shape ADD and MUL share: two sources, then the destination, then the checked result. -/
def execArith (op : Int → Int → Int) (m1 m2 m3 : Mode) (s : State) :
    Host.Outcome State Fault Refusal :=
  commit s do
    let a ← rdOp s 1 m1
    let b ← rdOp s 2 m2
    let d ← wrAddr s 3 m3
    let r ← chkW s.cfg (op a b)
    return (s.store d r).advance 4

/-- ADD (R100): the exact integer sum. -/
def execAdd (m1 m2 m3 : Mode) (s : State) : Host.Outcome State Fault Refusal :=
  execArith (fun a b => a + b) m1 m2 m3 s

/-- MUL (R101): the exact integer product. -/
def execMul (m1 m2 m3 : Mode) (s : State) : Host.Outcome State Fault Refusal :=
  execArith (fun a b => a * b) m1 m2 m3 s

end Sys2Proof.Machine
end

