-- ==== Sys2Proof/Machine/Flags.lean ====
section
/-! DEFINITION. The core has no flags, condition codes or predicates (spec 10_state.md R28). What stands
in for them is here: the words 1 and 0 that comparisons write, and the zero test of the jumps. -/

namespace Sys2Proof.Machine

/-- The word a comparison writes: 1 or 0 and nothing else (44_compare.md R132). -/
def truthWord (b : Bool) : Int := if b then 1 else 0

/-- Signed integer comparison (44_compare.md R130). -/
def ltWord (a b : Int) : Int := truthWord (decide (a < b))

/-- Integer equality (44_compare.md R131). -/
def eqWord (a b : Int) : Int := truthWord (decide (a = b))

end Sys2Proof.Machine
end

