-- ==== Sys2Proof/Machine/Compare.lean ====
section
/-! DEFINITION. LT and EQ (spec 44_compare.md R130 to R132). -/

namespace Sys2Proof.Machine

/-- The shape the comparisons share: two sources, then the destination; the comparison itself cannot
fault. -/
def execCompare (result : Int → Int → Int) (m1 m2 m3 : Mode) (s : State) :
    Host.Outcome State Fault Refusal :=
  commit s do
    let a ← rdOp s 1 m1
    let b ← rdOp s 2 m2
    let d ← wrAddr s 3 m3
    return (s.store d (result a b)).advance 4

/-- LT (R130). -/
def execLt (m1 m2 m3 : Mode) (s : State) : Host.Outcome State Fault Refusal :=
  execCompare ltWord m1 m2 m3 s

/-- EQ (R131). -/
def execEq (m1 m2 m3 : Mode) (s : State) : Host.Outcome State Fault Refusal :=
  execCompare eqWord m1 m2 m3 s

end Sys2Proof.Machine
end

