-- ==== Sys2Proof/Machine/Halt.lean ====
section
/-! DEFINITION. HALT (spec 46_halt.md R150, R151). -/

namespace Sys2Proof.Machine

/-- HALT (R150): `ip` is not advanced; `InQ` and `OutQ` keep what they hold. -/
def execHalt (s : State) : Host.Outcome State Fault Refusal :=
  commit s (.ok s.enterHalted)

end Sys2Proof.Machine
end

