-- ==== Sys2Proof/Machine/InputOutput.lean ====
section
/-! DEFINITION. IN and OUT (spec 42_io.md R110 to R113). -/

namespace Sys2Proof.Machine

/-- IN (R110): the destination is resolved first; then the head of `InQ` is taken, or the machine
waits with `ip` unchanged, or, on an empty closed channel, it faults. -/
def execInp (m1 : Mode) (s : State) : Host.Outcome State Fault Refusal :=
  commit s do
    let d ← wrAddr s 1 m1
    match s.inQ with
    | [] =>
      if s.inClosed then throw (.channelClosed .input)
      else return s.setRun .waitingOnInput
    | v :: rest => return (((s.popInput rest).store d v).setRun .running).advance 2

/-- OUT (R111): the source is resolved first; then the channel is examined. -/
def execOut (m1 : Mode) (s : State) : Host.Outcome State Fault Refusal :=
  commit s do
    let v ← rdOp s 1 m1
    if s.outDropped then throw (.channelClosed .output)
    else return (s.pushOutput v).advance 2

end Sys2Proof.Machine
end

