-- ==== Sys2Proof/Machine/Jumps.lean ====
section
/-! DEFINITION. JNZ and JZ (spec 43_jumps.md R120 to R123). -/

namespace Sys2Proof.Machine

/-- The shape the two jumps share: both sources are resolved before the condition is tested; a taken
jump checks its target at the jump, one not taken advances by 3 (R122). -/
def execJump (taken : Int → Bool) (m1 m2 : Mode) (s : State) :
    Host.Outcome State Fault Refusal :=
  commit s do
    let a ← rdOp s 1 m1
    let t ← rdOp s 2 m2
    if taken a then do
      let target ← chkA s.cfg t
      return s.jump target
    else return s.advance 3

/-- JNZ (R120): any non-zero condition, negative included, takes the jump. -/
def execJnz (m1 m2 : Mode) (s : State) : Host.Outcome State Fault Refusal :=
  execJump (fun a => decide (a ≠ 0)) m1 m2 s

/-- JZ (R121): only a zero condition takes the jump. -/
def execJz (m1 m2 : Mode) (s : State) : Host.Outcome State Fault Refusal :=
  execJump (fun a => decide (a = 0)) m1 m2 s

end Sys2Proof.Machine
end

