-- ==== Sys2Proof/Machine/RelativeBase.lean ====
section
/-! DEFINITION. ARB (spec 45_relative_base.md R140, R141). -/

namespace Sys2Proof.Machine

/-- ARB (R140): the operand is resolved with the old `rb`. -/
def execArb (m1 : Mode) (s : State) : Host.Outcome State Fault Refusal :=
  commit s do
    let a ← rdOp s 1 m1
    let r ← chkW s.cfg (s.rb + a)
    return (s.setRb r).advance 2

end Sys2Proof.Machine
end

