-- ==== Sys2Proof/Machine/Dispatch.lean ====
section
/-! DEFINITION. The dispatch of the engine (spec 40_execution.md R90): one arm per instruction. -/

namespace Sys2Proof.Machine

def exec (i : Instr) (s : State) : Host.Outcome State Fault Refusal :=
  match i with
  | .add m1 m2 m3 => Sys2Proof.Machine.execAdd m1 m2 m3 s
  | .mul m1 m2 m3 => Sys2Proof.Machine.execMul m1 m2 m3 s
  | .inp m1 => Sys2Proof.Machine.execInp m1 s
  | .out m1 => Sys2Proof.Machine.execOut m1 s
  | .jnz m1 m2 => Sys2Proof.Machine.execJnz m1 m2 s
  | .jz m1 m2 => Sys2Proof.Machine.execJz m1 m2 s
  | .lt m1 m2 m3 => Sys2Proof.Machine.execLt m1 m2 m3 s
  | .eq m1 m2 m3 => Sys2Proof.Machine.execEq m1 m2 m3 s
  | .arb m1 => Sys2Proof.Machine.execArb m1 s
  | .halt => Sys2Proof.Machine.execHalt s

end Sys2Proof.Machine
end

