-- ==== Sys2Proof/Machine/Step.lean ====
section
/-! DEFINITION. One step of one machine (spec 40_execution.md R81, R89, R90), and the placing of an
instruction where the machine fetches its next one. -/

namespace Sys2Proof.Machine

/-- One step: enabled by R89, then fetch, decode and dispatch (R90). A fault of fetch or decode is
taken like any other (60_exceptions.md R163). A machine with no enabled step stops under the name of
the reason (log entry 6). -/
def step (s : State) : Host.Outcome State Fault Refusal :=
  match noStep s with
  | some f => .fault f
  | none =>
    match fetchDecode s with
    | .error e => .next (faultEntry e s)
    | .ok i => exec i s

/-- `s` with the instruction word `w` stored at `ip`, operand words 0 after it, and the machine
started and running, so that the very next step fetches and runs it (log entry 4): this stands for
the load of a program at construction and the host's `start()` (70_reset_and_hazards.md R190, R196).
Words have no width, so `w` is the whole instruction word (log entry 5). -/
def State.withFetchWord (s : State) (_nbits w : Nat) : State :=
  { s with
    mem :=
      (((s.mem.write s.ip (w : Int)).write (s.ip + 1) 0).write (s.ip + 2) 0).write (s.ip + 3) 0
    started := true
    runState := .running }

end Sys2Proof.Machine
end

