-- ==== Sys2Proof/Machine/Loader.lean ====
section
/-! DEFINITION. Construction: the program-text parser, the image and the overrides
(spec 70_reset_and_hazards.md R190 to R195). -/

namespace Sys2Proof.Machine

/-- `ws` of the grammar (R191). -/
def isBlank (ch : Char) : Bool := ch == ' ' || ch == '\t' || ch == '\r' || ch == '\n'

/-- The value of a `digit` of the grammar (R191). -/
def digitValue (ch : Char) : Option Nat :=
  if '0' ≤ ch ∧ ch ≤ '9' then some (ch.toNat - '0'.toNat) else none

/-- Where the parser stands in the grammar of R191. -/
inductive ParseState where
  /-- in the leading whitespace -/
  | lead
  /-- after a comma, before a number -/
  | field
  /-- after the `-` of the number that starts at `pos` -/
  | sign (pos : Nat)
  /-- inside the number that starts at `pos`; `mag` is the value of the digits read -/
  | number (pos : Nat) (negative : Bool) (mag : Nat)
  /-- in the trailing whitespace -/
  | trail
deriving DecidableEq, Repr

/-- The integer of a number: leading zeros allowed, `-0` is 0 (R191). -/
def signed (negative : Bool) (mag : Nat) : Int := if negative then -(mag : Int) else mag

/-- A number that has ended, added to the numbers before it (newest first); a number that is no word
is a parse error (R192). -/
def pushNumber (c : Config) (pos : Nat) (negative : Bool) (mag : Nat) (done : List Int) :
    Except Raised (List Int) :=
  if isWord c (signed negative mag) then .ok (signed negative mag :: done)
  else .error (.parseError pos)

/-- The parser: `pos` is the position of the next character, `done` the numbers read so far, newest
first. The info of a parse error is the first position at which no text of the grammar goes on like
this one (the start of the number, for a number out of range; log entry 9). -/
def parseFrom (c : Config) : ParseState → Nat → List Int → List Char → Except Raised (List Int)
  | .number p n mag, _, done, [] => do
    let all ← pushNumber c p n mag done
    return all.reverse
  | .trail, _, done, [] => .ok done.reverse
  | _, pos, _, [] => .error (.parseError pos)
  | st, pos, done, ch :: rest =>
    match st with
    | .lead =>
      if isBlank ch then parseFrom c .lead (pos + 1) done rest
      else if ch = '-' then parseFrom c (.sign pos) (pos + 1) done rest
      else
        match digitValue ch with
        | some d => parseFrom c (.number pos false d) (pos + 1) done rest
        | none => .error (.parseError pos)
    | .field =>
      if ch = '-' then parseFrom c (.sign pos) (pos + 1) done rest
      else
        match digitValue ch with
        | some d => parseFrom c (.number pos false d) (pos + 1) done rest
        | none => .error (.parseError pos)
    | .sign p =>
      match digitValue ch with
      | some d => parseFrom c (.number p true d) (pos + 1) done rest
      | none => .error (.parseError pos)
    | .number p n mag =>
      match digitValue ch with
      | some d => parseFrom c (.number p n (10 * mag + d)) (pos + 1) done rest
      | none =>
        if ch = ',' then
          match pushNumber c p n mag done with
          | .error e => .error e
          | .ok all => parseFrom c .field (pos + 1) all rest
        else if isBlank ch then
          match pushNumber c p n mag done with
          | .error e => .error e
          | .ok all => parseFrom c .trail (pos + 1) all rest
        else .error (.parseError pos)
    | .trail =>
      if isBlank ch then parseFrom c .trail (pos + 1) done rest
      else .error (.parseError pos)

/-- The numbers of a program text (R191, R192; 30_encoding.md R77). -/
def parseText (c : Config) (text : List Char) : Except Raised (List Int) :=
  parseFrom c .lead 0 [] text

/-- The memory that holds `xs` from address `a` on and 0 elsewhere (R193). -/
def imageFrom : Nat → List Int → Memory
  | _, [] => []
  | a, x :: xs =>
    if x = Memory.unlisted then imageFrom (a + 1) xs else (a, x) :: imageFrom (a + 1) xs

/-- The image of a program (R193). The info of its AddressOutOfRange is the model's choice (log entry
23): R193 and D3 give it none, and the length of the image is no address. -/
def loadImage (c : Config) (xs : List Int) : Except Raised Memory :=
  if c.addrLimit ≤ xs.length then .error (.addressOutOfRange xs.length)
  else .ok (imageFrom 0 xs)

/-- The overrides, in list order, each a checked write (R194). That the values are words (00_scope.md
R11) is what `construct` checks before. -/
def applyOverrides (c : Config) : List (Int × Int) → Memory → Except Raised Memory
  | [], m => .ok m
  | (x, v) :: rest, m =>
    match chkA c x with
    | .error e => .error e
    | .ok a => applyOverrides c rest (m.write a v)

/-- The text parsed, the image loaded, the overrides applied, every other element at its reset value,
in this order (R190). -/
def build (c : Config) (text : List Char) (overrides : List (Int × Int)) : Except Raised State := do
  let xs ← parseText c text
  let image ← loadImage c xs
  let m ← applyOverrides c overrides image
  return State.fresh c m

/-- What the host gets back from a construction: "a machine, or a construction error"
(60_exceptions.md R189). -/
inductive ConstructResult where
  /-- a machine that has not started -/
  | machine (s : State)
  /-- a construction error, and no machine (60_exceptions.md R162) -/
  | error (e : Raised)
  /-- an override's value is no word, so these are no overrides (00_scope.md R11, log entry 17) -/
  | refused
deriving DecidableEq, Repr

/-- Construction, the only reset (R190). -/
def construct (c : Config) (text : List Char) (overrides : List (Int × Int)) : ConstructResult :=
  if overrides.all (fun p => isWord c p.2) then
    match build c text overrides with
    | .ok s => .machine s
    | .error e => .error e
  else .refused

end Sys2Proof.Machine
end

