-- ==== Sys2Proof/Machine/Handle.lean ====
section
/-! DEFINITION. The Machine Handle: the host's operations on one machine whose channels the host holds
(spec 60_exceptions.md R171 to R177, R189; 70_reset_and_hazards.md R196, R197). -/

namespace Sys2Proof.Machine

/-- What `join()` returns: `Ok`, or `Err(fault_cause, fault_ip, fault_word)` (R174). -/
inductive JoinResult where
  | ok
  | err (faultCause : Nat) (faultIp : Nat) (faultWord : Int)
deriving DecidableEq, Repr

/-- What the host gets back (R189). -/
inductive Reply where
  | nothing
  /-- what `start()` returns: the host then holds the means to join that machine (R173). It is spent
  by `State.join`, in a system by the action `join i` of the machine `i` that was started -/
  | joinPrimitive
  | word (v : Int)
  | endOfStream
  | joined (r : JoinResult)
  /-- what a push to a terminated machine reports: a FREE VALUE (R177, log entry 10) -/
  | pushReport (error : Bool)
deriving DecidableEq, Repr

/-- A host operation completes, has no step yet, or is one the host may not do; the last two change
nothing. -/
inductive HostResult (σ : Type) where
  | done (s : σ) (reply : Reply)
  | blocked
  | refused
deriving DecidableEq, Repr

/-- The run has ended (R188). -/
def State.terminated (s : State) : Bool :=
  match s.runState with
  | .running => false
  | .waitingOnInput => false
  | .halted => true
  | .faulted => true

/-- The tail append of `push` and of a wired producer (10_state.md R30). -/
def State.feed (s : State) (vs : List Int) : State := { s with inQ := s.inQ ++ vs }

/-- `push(v)` (R171, R177): never blocks; a producer that has closed can push no more. What the host
sends is "a word" (R189, 00_scope.md R11): an integer that is none is refused (log entry 17). -/
def State.push (s : State) (v : Int) : HostResult State :=
  if s.inClosed || !isWord s.cfg v then .refused
  else
    .done (s.feed [v])
      (if s.terminated then .pushReport (Config.freePushReport s.freeCount s.inQ.length)
       else .nothing)

/-- `close()` (R171): "close at any time" (R189). -/
def State.close (s : State) : HostResult State := .done { s with inClosed := true } .nothing

/-- `start()` (R173): once, returning the join primitive; a second start is refused and has no
effect. -/
def State.start (s : State) : HostResult State :=
  if s.started then .refused else .done { s with started := true } .joinPrimitive

/-- `pop()` (R172): the head, end of stream, or no step yet; a consumer that has dropped can pop no
more. -/
def State.pop (s : State) : HostResult State :=
  if s.outDropped then .refused
  else
    match s.outQ with
    | v :: rest => .done { s with outQ := rest } (.word v)
    | [] => if s.outClosed then .done s .endOfStream else .blocked

/-- `drop()` (R172): the queued values are discarded. -/
def State.drop (s : State) : HostResult State :=
  .done { s with outDropped := true, outQ := [] } .nothing

/-- `join()` (R174). -/
def State.join (s : State) : HostResult State :=
  match s.runState with
  | .running => .blocked
  | .waitingOnInput => .blocked
  | .halted => .done s (.joined .ok)
  | .faulted => .done s (.joined (.err (causeCode s.faultCause) s.faultIp s.faultWord))

/-- What `peek(a)` reads (R176): of a machine that has terminated, at a valid address. That the host's
join of the machine has returned is what `System.peekMachine` asks first (log entry 12). R176 gives no
answer for `a` at or above `ADDR_LIMIT`: that it is refused there is the model's choice, DESIGN CHOICE
(log entry 24). -/
def State.peek (s : State) (a : Nat) : HostResult State :=
  if s.terminated ∧ a < s.cfg.addrLimit then .done s (.word (s.cell a)) else .refused

/-- At most `n` steps, ending early where the machine has no enabled step. -/
def State.runFor : Nat → State → State
  | 0, s => s
  | n + 1, s =>
    match step s with
    | .next t => State.runFor n t
    | .fault _ => s
    | .refused _ => s

/-- Run to completion (R175): `start()`, then steps of the machine alone, then `join()`. `n` bounds
the steps, since a machine may run for ever (log entry 13). -/
def State.runToCompletion (n : Nat) (s : State) : HostResult State :=
  match s.start with
  | .done t _ => (State.runFor n t).join
  | .blocked => .blocked
  | .refused => .refused

end Sys2Proof.Machine
end

