-- ==== Sys2Proof/Machine/System.lean ====
section
/-! DEFINITION. Several machines and the host, with outputs wired to inputs (spec 60_exceptions.md R179
to R184; 20_memory.md R50 to R53). -/

namespace Sys2Proof.Machine

/-- The machines, the wiring and what the host has joined. A wired channel is ONE queue (R182); its
home is the consumer's `inQ`, and the producer's `outQ` is empty between actions (log entry 11). -/
structure System where
  machines : List State
  /-- `(i, j)`: the output of machine `i` is the input of machine `j` (R182) -/
  wires : List (Nat × Nat)
  /-- the machines whose `join()` has returned (R176) -/
  joined : List Nat
deriving DecidableEq, Repr

/-- One atomic step of one agent: a machine step, or an operation of the host (R179, R189). `pop` and
`drop` name a channel by its producer, `push` and `close` by its consumer. -/
inductive Action where
  | run (i : Nat)
  | push (j : Nat) (v : Int)
  | close (j : Nat)
  | start (i : Nat)
  | pop (i : Nat)
  | drop (i : Nat)
  | join (i : Nat)
  | peek (i : Nat) (a : Nat)
deriving DecidableEq, Repr

/-- The agents: "the host and each started machine" (R179). -/
inductive Agent where
  | host
  | machine (i : Nat)
deriving DecidableEq, Repr

/-- Whose step an action is (R179). -/
def Action.agent : Action → Agent
  | .run i => .machine i
  | .push _ _ => .host
  | .close _ => .host
  | .start _ => .host
  | .pop _ => .host
  | .drop _ => .host
  | .join _ => .host
  | .peek _ _ => .host

/-- The machines, wired, before the host has done anything else (70_reset_and_hazards.md R196). -/
def System.make (machines : List State) (wires : List (Nat × Nat)) : System :=
  { machines := machines, wires := wires, joined := [] }

/-- The machine that consumes the output of machine `i`; the host, if none. -/
def System.consumerOf (sys : System) (i : Nat) : Option Nat :=
  (sys.wires.find? (fun w => w.1 == i)).map Prod.snd

/-- The machine that produces the input of machine `j`; the host, if none. -/
def System.producerOf (sys : System) (j : Nat) : Option Nat :=
  (sys.wires.find? (fun w => w.2 == j)).map Prod.fst

/-- The machines with machine `i` replaced. -/
def System.setMachine (sys : System) (i : Nat) (s : State) : System :=
  { sys with machines := sys.machines.set i s }

/-- The channel that machine `i` writes, as a queue: the consumer's input queue if wired (R182). -/
def System.outputQueue (sys : System) (i : Nat) : List Int :=
  match sys.consumerOf i with
  | some j => (sys.machines[j]?.map State.inQ).getD []
  | none => (sys.machines[i]?.map State.outQ).getD []

/-- Machine `i` has stepped to `t`: what it appended to a wired channel stands in the consumer's
queue, and the consumer's `in_closed` is the producer's `out_closed` (R182). -/
def System.place (sys : System) (i : Nat) (t : State) : System :=
  match sys.consumerOf i with
  | none => sys.setMachine i t
  | some j =>
    let sent := sys.setMachine i { t with outQ := [] }
    match sent.machines[j]? with
    | none => sent
    | some u => sent.setMachine j { u.feed t.outQ with inClosed := t.outClosed }

/-- A host operation on machine `i`; refused where `i` names no machine (DESIGN CHOICE, log entry
24). -/
def System.onMachine (sys : System) (i : Nat) (f : State → HostResult State) : HostResult System :=
  match sys.machines[i]? with
  | none => .refused
  | some s =>
    match f s with
    | .done t r => .done (sys.setMachine i t) r
    | .blocked => .blocked
    | .refused => .refused

/-- The machine with index `i` exists and has been started. -/
def System.isStarted (sys : System) (i : Nat) : Bool :=
  match sys.machines[i]? with
  | some s => s.started
  | none => false

/-- A machine's step in the system: one instruction (R179). -/
def System.runMachine (sys : System) (i : Nat) : HostResult System :=
  match sys.machines[i]? with
  | none => .refused
  | some s =>
    match step s with
    | .next t => .done (sys.place i t) .nothing
    | .fault _ => .blocked
    | .refused _ => .refused

/-- Taking from a wired channel whose consumer has terminated (R182): the host may pop what is
left. -/
def State.popLeftover (s : State) : HostResult State :=
  if s.terminated then
    match s.inQ with
    | v :: rest => .done { s with inQ := rest } (.word v)
    | [] => if s.inClosed then .done s .endOfStream else .blocked
  else .refused

/-- `push(v)` to the input of machine `j`: of a wired channel only as seeding, before its producer
machine starts (R182). -/
def System.pushInput (sys : System) (j : Nat) (v : Int) : HostResult System :=
  match sys.producerOf j with
  | none => sys.onMachine j (fun s => s.push v)
  | some i => if sys.isStarted i then .refused else sys.onMachine j (fun s => s.push v)

/-- `close()` of the input of machine `j`: the producer's to do, so not the host's if wired. -/
def System.closeInput (sys : System) (j : Nat) : HostResult System :=
  match sys.producerOf j with
  | none => sys.onMachine j State.close
  | some _ => .refused

/-- `pop()` of the output of machine `i`. -/
def System.popOutput (sys : System) (i : Nat) : HostResult System :=
  match sys.consumerOf i with
  | none => sys.onMachine i State.pop
  | some j => sys.onMachine j State.popLeftover

/-- `drop()` of the output of machine `i`: the consumer's to do, so not the host's if wired. -/
def System.dropOutput (sys : System) (i : Nat) : HostResult System :=
  match sys.consumerOf i with
  | none => sys.onMachine i State.drop
  | some _ => .refused

/-- `join()` of machine `i`; the host then may inspect its memory (R174, R176). -/
def System.joinMachine (sys : System) (i : Nat) : HostResult System :=
  match sys.onMachine i State.join with
  | .done t r => .done { t with joined := if i ∈ t.joined then t.joined else i :: t.joined } r
  | .blocked => .blocked
  | .refused => .refused

/-- `peek(a)` of machine `i`, after its join has returned (R176). -/
def System.peekMachine (sys : System) (i a : Nat) : HostResult System :=
  if i ∈ sys.joined then sys.onMachine i (fun s => s.peek a) else .refused

/-- One atomic step of one agent (R179). Which action comes next is not the system's to say: any list
of actions is a schedule (log entry 15). -/
def System.act (sys : System) (a : Action) : HostResult System :=
  match a with
  | .run i => sys.runMachine i
  | .push j v => sys.pushInput j v
  | .close j => sys.closeInput j
  | .start i => sys.onMachine i State.start
  | .pop i => sys.popOutput i
  | .drop i => sys.dropOutput i
  | .join i => sys.joinMachine i
  | .peek i p => sys.peekMachine i p

/-- The system after a schedule every action of which had a step. -/
def System.runSchedule : System → List Action → Option System
  | sys, [] => some sys
  | sys, a :: rest =>
    match sys.act a with
    | .done t _ => System.runSchedule t rest
    | .blocked => none
    | .refused => none

end Sys2Proof.Machine
end

