-- ==== Sys2Proof/Safety.lean ====
section
/-! DEFINITION. The terms claims are stated in: what operands mean, what a legal program text is, what a
good state is, what an instruction may raise, what a run's end, a deadlock and a fair schedule are. -/

namespace Sys2Proof.Machine

/-! ### Operands, said without computing them (40_execution.md R82, R83) -/

/-- `x` is a valid address under these parameters (20_memory.md R40). -/
def ValidAddr (c : Config) (x : Int) : Prop := 0 ≤ x ∧ x < c.addrLimit

/-- The operand word of operand `k` can be fetched and is `raw`. -/
def OperandWord (s : State) (k : Nat) (raw : Int) : Prop :=
  s.ip + k < s.cfg.addrLimit ∧ raw = s.cell (s.ip + k)

/-- `v` is the value of operand `k` used as a source in mode `m` (R82). -/
def SourceValue (s : State) (k : Nat) (m : Mode) (v : Int) : Prop :=
  ∃ raw, OperandWord s k raw ∧
    match m with
    | .position => ValidAddr s.cfg raw ∧ v = s.cell raw.toNat
    | .immediate => v = raw
    | .relative =>
      isWord s.cfg (s.rb + raw) = true ∧ ValidAddr s.cfg (s.rb + raw) ∧
        v = s.cell (s.rb + raw).toNat

/-- `d` is the write address of operand `k` used as a destination in mode `m` (R83). -/
def DestAddr (s : State) (k : Nat) (m : Mode) (d : Nat) : Prop :=
  ∃ raw, OperandWord s k raw ∧
    match m with
    | .position => ValidAddr s.cfg raw ∧ d = raw.toNat
    | .immediate => False
    | .relative =>
      isWord s.cfg (s.rb + raw) = true ∧ ValidAddr s.cfg (s.rb + raw) ∧ d = (s.rb + raw).toNat

/-- `x` fails the address check with `e` (20_memory.md R44, R45). -/
def AddrFault (c : Config) (x : Int) (e : Raised) : Prop :=
  (x < 0 ∧ e = .negativeAddress x) ∨ ((c.addrLimit : Int) ≤ x ∧ 0 ≤ x ∧ e = .addressOutOfRange x)

/-- The effective address `rb + raw` fails a check with `e`: the word check first (R82, R83). -/
def RelativeFault (s : State) (raw : Int) (e : Raised) : Prop :=
  (isWord s.cfg (s.rb + raw) = false ∧ e = .arithmeticOverflow (s.rb + raw)) ∨
    (isWord s.cfg (s.rb + raw) = true ∧ AddrFault s.cfg (s.rb + raw) e)

/-- Resolving operand `k` as a source in mode `m` raises `e` (R82). -/
def SourceFault (s : State) (k : Nat) (m : Mode) (e : Raised) : Prop :=
  (s.cfg.addrLimit ≤ s.ip + k ∧ e = .addressOutOfRange ((s.ip + k : Nat) : Int)) ∨
    ∃ raw, OperandWord s k raw ∧
      match m with
      | .position => AddrFault s.cfg raw e
      | .immediate => False
      | .relative => RelativeFault s raw e

/-- Resolving operand `k` as a destination in mode `m` raises `e` (R83). -/
def DestFault (s : State) (k : Nat) (m : Mode) (e : Raised) : Prop :=
  (s.cfg.addrLimit ≤ s.ip + k ∧ e = .addressOutOfRange ((s.ip + k : Nat) : Int)) ∨
    ∃ raw, OperandWord s k raw ∧
      match m with
      | .position => AddrFault s.cfg raw e
      | .immediate => e = .invalidWriteTarget raw
      | .relative => RelativeFault s raw e

/-- The first fault of resolving operands `k`, `k + 1`, … in order, if any (R84 check 3). -/
def firstOperandFault (s : State) : Nat → List (Role × Mode) → Option Raised
  | _, [] => none
  | k, (.source, m) :: rest =>
    match rdOp s k m with
    | .error e => some e
    | .ok _ => firstOperandFault s (k + 1) rest
  | k, (.dest, m) :: rest =>
    match wrAddr s k m with
    | .error e => some e
    | .ok _ => firstOperandFault s (k + 1) rest

/-! ### What an instruction leaves -/

/-- From `s` to `t` exactly one cell was stored to and `ip` advanced by `n`; nothing else changed. -/
def StoresCell (s t : State) (d : Nat) (v : Int) (n : Nat) : Prop :=
  t.cell d = v ∧ (∀ x, x ≠ d → t.cell x = s.cell x) ∧
    t = { s with mem := t.mem, ip := s.ip + n }

/-- The cell an instruction stores to and the word it stores, if it completes and stores one. -/
def storedCell (i : Instr) (s : State) : Option (Nat × Int) :=
  match i with
  | .add m1 m2 m3 => do
    let a ← (rdOp s 1 m1).toOption
    let b ← (rdOp s 2 m2).toOption
    let d ← (wrAddr s 3 m3).toOption
    if isWord s.cfg (a + b) then some (d, a + b) else none
  | .mul m1 m2 m3 => do
    let a ← (rdOp s 1 m1).toOption
    let b ← (rdOp s 2 m2).toOption
    let d ← (wrAddr s 3 m3).toOption
    if isWord s.cfg (a * b) then some (d, a * b) else none
  | .inp m1 => do
    let d ← (wrAddr s 1 m1).toOption
    let v ← s.inQ.head?
    some (d, v)
  | .lt m1 m2 m3 => do
    let a ← (rdOp s 1 m1).toOption
    let b ← (rdOp s 2 m2).toOption
    let d ← (wrAddr s 3 m3).toOption
    some (d, if a < b then 1 else 0)
  | .eq m1 m2 m3 => do
    let a ← (rdOp s 1 m1).toOption
    let b ← (rdOp s 2 m2).toOption
    let d ← (wrAddr s 3 m3).toOption
    some (d, if a = b then 1 else 0)
  | .out _ => none
  | .jnz _ _ => none
  | .jz _ _ => none
  | .arb _ => none
  | .halt => none

/-- What the step from `s` adds to `rb`: the operand of an ARB that completes, else 0. -/
def arbOperand (s : State) : Int :=
  match fetchDecode s with
  | .ok (.arb m) =>
    match rdOp s 1 m with
    | .ok a => if isWord s.cfg (s.rb + a) then a else 0
    | .error _ => 0
  | _ => 0

/-- The sum of the operands of the ARB instructions completed in at most `n` steps (45_relative_base.md
R141). -/
def arbTotal : Nat → State → Int
  | 0, _ => 0
  | n + 1, s =>
    match step s with
    | .next t => arbOperand s + arbTotal n t
    | .fault _ => 0
    | .refused _ => 0

/-! ### Faults and run states -/

/-- Which causes each instruction can raise of its own, beside fetch and decode faults
(60_exceptions.md R161). -/
def mayRaise (code : Nat) (c : Cause) : Bool :=
  match c with
  | .parseError => false
  | .unknownOpcode => false
  | .invalidAddressingMode => false
  | .invalidWriteTarget => code == 1 || code == 2 || code == 3 || code == 7 || code == 8
  | .negativeAddress => code != 99
  | .channelClosed => code == 3 || code == 4
  | .addressOutOfRange => code != 99
  | .arithmeticOverflow => code != 99

/-- The run-state transitions of 40_execution.md R88, from `s` to `t` in one step, with the last
column's effects. -/
def Transition (s t : State) : Prop :=
  match s.runState, t.runState with
  | .running, .running => ∃ i, fetchDecode s = .ok i ∧ i ≠ .halt ∧ exec i s = .next t
  | .running, .waitingOnInput =>
    (∃ m, fetchDecode s = .ok (.inp m)) ∧ s.inQ = [] ∧ s.inClosed = false ∧
      t = { s with runState := .waitingOnInput }
  | .waitingOnInput, .running =>
    ∃ m, fetchDecode s = .ok (.inp m) ∧ s.inQ ≠ [] ∧ exec (.inp m) s = .next t
  | .waitingOnInput, .faulted =>
    (∃ m, fetchDecode s = .ok (.inp m)) ∧ s.inQ = [] ∧ s.inClosed = true ∧
      t = faultEntry (.channelClosed .input) s
  | .running, .halted =>
    fetchDecode s = .ok .halt ∧ t = { s with runState := .halted, outClosed := true }
  | .running, .faulted => ∃ e, t = faultEntry e s
  | _, _ => False

/-! ### A good state -/

/-- What holds of a machine at construction and after every step and host operation. -/
structure State.Inv (s : State) : Prop where
  /-- `ADDR_LIMIT` is positive (00_scope.md R8) -/
  limit_pos : 0 < s.cfg.addrLimit
  /-- memory is in canonical form -/
  mem_wf : s.mem.wf
  /-- only valid addresses are written (20_memory.md R40) -/
  mem_addr : ∀ p ∈ s.mem, p.1 < s.cfg.addrLimit
  /-- every cell holds a word (00_scope.md R11) -/
  mem_word : ∀ p ∈ s.mem, isWord s.cfg p.2 = true
  /-- `rb` is a word (10_state.md R24) -/
  rb_word : isWord s.cfg s.rb = true
  /-- the channels carry words (10_state.md R30, R32) -/
  inQ_word : ∀ v ∈ s.inQ, isWord s.cfg v = true
  outQ_word : ∀ v ∈ s.outQ, isWord s.cfg v = true
  /-- "always a natural number below `ADDR_LIMIT` + 4" (10_state.md R23) -/
  ip_bound : s.ip < s.cfg.addrLimit + 4
  /-- `out_closed` becomes true on entry to `Halted` and to `Faulted` only (10_state.md R33) -/
  closed_iff : s.outClosed = true ↔ s.terminated = true
  /-- the record is written at fault entry and only there (10_state.md R27) -/
  cause_iff : s.faultCause ≠ none ↔ s.runState = .faulted
  /-- a running machine never raises `ParseError` (60_exceptions.md R160) -/
  cause_not_parse : s.faultCause ≠ some .parseError
  /-- `ArithmeticOverflow` exists in `Int64` only (60_exceptions.md R160) -/
  cause_overflow : s.faultCause = some .arithmeticOverflow → s.cfg.wordModel = .int64
  /-- the record describes the instruction at `ip`, which a fault leaves unchanged (R163) -/
  record_ip : s.runState = .faulted → s.faultIp = s.ip
  record_word : s.runState = .faulted → s.ip < s.cfg.addrLimit → s.faultWord = s.cell s.ip
  /-- a dropped consumer leaves nothing queued (60_exceptions.md R172) -/
  dropped_empty : s.outDropped = true → s.outQ = []
  /-- while it waits, `ip` points to an IN whose destination resolves (10_state.md R25) -/
  waits_at_in : s.runState = .waitingOnInput →
    ∃ m d, fetchDecode s = .ok (.inp m) ∧ wrAddr s 1 m = .ok d
  /-- a halted machine stands at its HALT (46_halt.md R150) -/
  halted_at_halt : s.runState = .halted → fetchDecode s = .ok .halt
  /-- before start nothing has run (10_state.md R26, R36) -/
  not_started : s.started = false →
    s.ip = 0 ∧ s.rb = 0 ∧ s.runState = .running ∧ s.outQ = [] ∧ s.outClosed = false

/-- A machine's step keeps its parameters, and so does every host operation. -/
def SameParameters (s t : State) : Prop := t.cfg = s.cfg

/-! ### Program texts (70_reset_and_hazards.md R191, R192), said without a parser -/

/-- The value of a nonempty string of digits, most significant first, after `acc`. -/
def digitsValue : Nat → List Char → Option Nat
  | acc, [] => some acc
  | acc, ch :: rest =>
    match digitValue ch with
    | some d => digitsValue (10 * acc + d) rest
    | none => none

/-- The text `t` is a `number` of the grammar, and `x` is its value. -/
def NumberText (t : List Char) (x : Int) : Prop :=
  ∃ ds mag, ds ≠ [] ∧ digitsValue 0 ds = some mag ∧
    ((t = ds ∧ x = mag) ∨ (t = '-' :: ds ∧ x = -(mag : Int)))

/-- The text `t` is `number ("," number)*`, and `xs` are the values. -/
def NumbersText : List Char → List Int → Prop
  | _, [] => False
  | t, [x] => NumberText t x
  | t, x :: y :: ys => ∃ t1 t2, t = t1 ++ ',' :: t2 ∧ NumberText t1 x ∧ NumbersText t2 (y :: ys)

/-- The text `t` is a `text` of the grammar, and `xs` are its numbers. -/
def ProgramText (t : List Char) (xs : List Int) : Prop :=
  ∃ lead body trail, t = lead ++ body ++ trail ∧
    lead.all isBlank = true ∧ trail.all isBlank = true ∧ NumbersText body xs

/-- The last override for address `a`, if any (R194: "a later pair for the same address wins"). -/
def lastOverride (overrides : List (Int × Int)) (a : Nat) : Option Int :=
  (overrides.reverse.find? (fun p => p.1 == (a : Int))).map Prod.snd

/-! ### Systems -/

/-- What holds of a system at boot and after every action: each machine is good; wires name machines;
each channel has one producer and one consumer; a wired channel is one queue with one closed bit
(60_exceptions.md R182), its ends have the same parameters, and no consumer of it has dropped; what
the host has joined has terminated (R174). -/
structure System.Inv (sys : System) : Prop where
  machine : ∀ s ∈ sys.machines, s.Inv
  wire_range : ∀ w ∈ sys.wires, w.1 < sys.machines.length ∧ w.2 < sys.machines.length
  one_producer : (sys.wires.map Prod.snd).Nodup
  one_consumer : (sys.wires.map Prod.fst).Nodup
  wire_shared : ∀ w ∈ sys.wires, ∀ s t, sys.machines[w.1]? = some s → sys.machines[w.2]? = some t →
    s.outQ = [] ∧ s.outDropped = false ∧ t.inClosed = s.outClosed ∧ t.cfg = s.cfg
  joined_ended : ∀ i ∈ sys.joined, ∃ s, sys.machines[i]? = some s ∧ s.terminated = true

/-- Machine `i` has an enabled step (40_execution.md R89). -/
def System.Enabled (sys : System) (i : Nat) : Prop :=
  ∃ s, sys.machines[i]? = some s ∧ noStep s = none

/-- Agent `g` has an enabled step, where `host` is the operation the host stands at, if any
(60_exceptions.md R179): a machine by R89; the host unless its operation blocks (R171 to R176). An
operation that the Handle refuses is answered at once, without effect. -/
def System.AgentEnabled (sys : System) (host : Option Action) (g : Agent) : Prop :=
  match g with
  | .machine i => sys.Enabled i
  | .host => ∃ a, host = some a ∧ sys.act a ≠ .blocked

/-- The end of a machine's run (60_exceptions.md R188). -/
def System.AllTerminated (sys : System) : Prop := ∀ s ∈ sys.machines, s.terminated = true

/-- "A system's run ends successfully when every started machine is `Halted`" (R188). -/
def System.EndedWell (sys : System) : Prop :=
  ∀ s ∈ sys.machines, s.started = true → s.runState = .halted

/-- Deadlock (R187): no agent has an enabled step, and some machine waits on input or the host is
blocked in `pop()` or `join()`. `host` is the operation the host stands at, if any. -/
def System.Deadlocked (sys : System) (host : Option Action) : Prop :=
  (∀ g, ¬ sys.AgentEnabled host g) ∧
    ((∃ s ∈ sys.machines, s.runState = .waitingOnInput) ∨
      ∃ a, host = some a ∧ ((∃ i, a = .pop i) ∨ ∃ i, a = .join i))

/-- One step of an execution from `sys` to `t` (R179): the action has its effect, or it is an operation
of the host that the Handle refuses, which has none (R173). -/
def System.Steps (sys : System) (a : Action) (t : System) : Prop :=
  (∃ r, sys.act a = .done t r) ∨ (a.agent = .host ∧ sys.act a = .refused ∧ t = sys)

/-- The host is at one operation at a time, its own, and stays at it until it has taken it: `host n` is
the operation it stands at after `n` actions (none while it asks nothing), and what it does is the
operation it stands at. -/
def HostFollows (acts : Nat → Action) (host : Nat → Option Action) : Prop :=
  ∀ n, ((acts n).agent = .host → host n = some (acts n)) ∧
    ∀ a, host n = some a → a.agent = .host ∧ (acts n ≠ a → host (n + 1) = some a)

/-- An infinite execution: `trace n` is the system after `n` actions, `acts n` the action it then
takes, `host n` the operation the host then stands at (R179). -/
def IsExecution (trace : Nat → System) (acts : Nat → Action) (host : Nat → Option Action) : Prop :=
  (∀ n, (trace n).Steps (acts n) (trace (n + 1))) ∧ HostFollows acts host

/-- Weak fairness (R180): an agent, machine or host, whose step stays enabled eventually takes it. -/
def WeaklyFair (trace : Nat → System) (acts : Nat → Action) (host : Nat → Option Action) : Prop :=
  ∀ (g : Agent) (n : Nat), (∀ k, n ≤ k → (trace k).AgentEnabled (host k) g) →
    ∃ k, n ≤ k ∧ (acts k).agent = g

/-- The actions of a schedule that are the host's, in order. -/
def hostActions (acts : List Action) : List Action :=
  acts.filter (fun a => a.agent == .host)

/-- A machine step, or a push, close or start: what a schedule holds in which the host's pushes and
closes are fixed in advance and the host drops nothing (60_exceptions.md R184). -/
def FeedingAction : Action → Prop
  | .run _ => True
  | .push _ _ => True
  | .close _ => True
  | .start _ => True
  | .pop _ => False
  | .drop _ => False
  | .join _ => False
  | .peek _ _ => False

end Sys2Proof.Machine
end

