-- ==== Sys2Proof/Certificates/Slice0/Obligations.lean ====
section
/-! DEFINITION. The statements for the provers. Each docstring names the rule of the spec it follows. -/

open Sys2Proof Sys2Proof.Machine

/-! ### Encoding and decoding -/

/-- Strict decoding reads exactly the encoded words: every field is read back, no digit is dropped, and
no other word decodes (30_encoding.md R62, R64, R74). -/
def Obligations.StrictDecodeReadsExactlyEncodedWords : Prop :=
  ∀ (w : Int) (i : Instr), decode true w = .ok i ↔ w = encode i

/-- Excess digits (30_encoding.md R67): a non-zero digit above the last operand's mode digit is
InvalidAddressingMode under strict digits, and ignored otherwise. -/
def Obligations.ExcessDigitsFaultOrAreIgnored : Prop :=
  ∀ (w n : Nat), nops (w % 100) = some n →
    (w / 10 ^ (2 + n) ≠ 0 → decode true (w : Int) = .error (.invalidAddressingMode (w : Int))) ∧
      ∀ i, decode false (w : Int) = .ok i ↔ decode false ((w % 10 ^ (2 + n) : Nat) : Int) = .ok i

/-- Which words raise UnknownOpcode (30_encoding.md R65, R71): the negative ones and those whose code
is 0 or 10 to 98; and that such a word at `ip` ends the machine's run. -/
def Obligations.UnknownOpcodeExactlyForIllegalCodes : Prop :=
  (∀ (strict : Bool) (w x : Int),
    decode strict w = .error (.unknownOpcode x) ↔
      x = w ∧ (w < 0 ∨ w.toNat % 100 = 0 ∨ (10 ≤ w.toNat % 100 ∧ w.toNat % 100 ≤ 98))) ∧
    ∀ s : State, noStep s = none → s.ip < s.cfg.addrLimit →
      (s.cell s.ip < 0 ∨ (s.cell s.ip).toNat % 100 = 0 ∨
        (10 ≤ (s.cell s.ip).toNat % 100 ∧ (s.cell s.ip).toNat % 100 ≤ 98)) →
      ∃ t, step s = .next t ∧ t.runState = .faulted ∧ t.faultCause = some .unknownOpcode ∧
        ∀ u, step t ≠ .next u

/-- Which words of a legal code raise InvalidAddressingMode (30_encoding.md R63, R67, R72), and that
these words raise nothing else and the others decode. -/
def Obligations.IllegalDigitsExactlyRaiseInvalidMode : Prop :=
  ∀ (strict : Bool) (w n : Nat), nops (w % 100) = some n →
    if (∃ k, k < n ∧ 3 ≤ dig (2 + k) w) ∨ (strict = true ∧ w / 10 ^ (2 + n) ≠ 0) then
      decode strict (w : Int) = .error (.invalidAddressingMode (w : Int))
    else ∃ i, decode strict (w : Int) = .ok i ∧ i.code = w % 100

/-- The legal words under strict digits (30_encoding.md R74): 3^n for a code with n operands, 136 in
all, of which 37 have an Immediate destination. -/
def Obligations.LegalWordsAre136 : Prop :=
  ∃ all : List Instr,
    all.length = 136 ∧ (all.map encode).Nodup ∧
      (∀ w : Int, (∃ i, decode true w = .ok i) ↔ w ∈ all.map encode) ∧
      (∀ code n, nops code = some n → (all.filter fun i => i.code == code).length = 3 ^ n) ∧
      (all.filter fun i => !i.wellFormed).length = 37

/-- A mode digit the word does not spell is Position (30_encoding.md R66). -/
def Obligations.AbsentModeDigitsArePosition : Prop :=
  ∀ (strict : Bool) (w k : Nat) (i : Instr) (r : Role) (m : Mode),
    decode strict (w : Int) = .ok i → i.operands[k]? = some (r, m) → w < 10 ^ (2 + k) →
      m = .position

/-- A few words written out digit by digit (95_test_vectors.md, table D). -/
def Obligations.SampleWordsDecode : Prop :=
  decode true 21101 = .ok (.add .immediate .immediate .relative) ∧
    decode true 1002 = .ok (.mul .position .immediate .position) ∧
    decode true 203 = .ok (.inp .relative) ∧
    decode true 1105 = .ok (.jnz .immediate .immediate) ∧
    decode true 22207 = .ok (.lt .relative .relative .relative) ∧
    decode true 109 = .ok (.arb .immediate) ∧
    decode true 99 = .ok .halt ∧
    decode true 199 = .error (.invalidAddressingMode 199) ∧
    decode false 199 = .ok .halt ∧
    decode true (-1) = .error (.unknownOpcode (-1))

/-! ### Operand resolution -/

/-- Source operands (40_execution.md R82): the value, and each fault, in every mode. -/
def Obligations.SourceOperandResolvesAsSpecified : Prop :=
  ∀ (s : State) (k : Nat) (m : Mode),
    (∀ v, rdOp s k m = .ok v ↔ SourceValue s k m v) ∧
      ∀ e, rdOp s k m = .error e ↔ SourceFault s k m e

/-- Destination operands (40_execution.md R83): the address, and each fault, in every mode. -/
def Obligations.DestOperandResolvesAsSpecified : Prop :=
  ∀ (s : State) (k : Nat) (m : Mode),
    (∀ d, wrAddr s k m = .ok d ↔ DestAddr s k m d) ∧
      ∀ e, wrAddr s k m = .error e ↔ DestFault s k m e

/-- With `rb` = b, a Relative operand with operand word o accesses the same cell as a Position operand
with operand word b + o, for reads and writes alike (40_execution.md R92). `t` is `s` with the operand
word replaced; each read is of the cell the write address names, and the addresses agree, faults and
all. -/
def Obligations.RelativeAccessesSameCellAsPosition : Prop :=
  ∀ (s t : State) (k : Nat),
    s.mem.wf → s.ip + k < s.cfg.addrLimit →
      isWord s.cfg (s.rb + s.cell (s.ip + k)) = true →
      t = s.store (s.ip + k) (s.rb + s.cell (s.ip + k)) →
      wrAddr s k .relative = wrAddr t k .position ∧
        rdOp s k .relative = (wrAddr s k .relative).map s.cell ∧
        rdOp t k .position = (wrAddr t k .position).map t.cell

/-- The first operand that faults, in operand order, is the fault the instruction takes, whatever the
later operands, the operation and the channels (40_execution.md R84). -/
def Obligations.FirstOperandFaultIsTaken : Prop :=
  ∀ (i : Instr) (s : State) (e : Raised),
    firstOperandFault s 1 i.operands = some e → exec i s = .next (faultEntry e s)

/-- An Immediate destination passes the decoder and never has an effect: it is InvalidWriteTarget once the
operands before it and its operand word are read (30_encoding.md R73). -/
def Obligations.ImmediateDestinationNeverActs : Prop :=
  ∀ (i : Instr) (s : State), i.wellFormed = false →
    (∀ strict, decode strict (encode i) = .ok i) ∧ (∃ e, exec i s = .next (faultEntry e s)) ∧
      ∀ before m raw, i.operands = before ++ [(Role.dest, m)] →
        firstOperandFault s 1 before = none → operandWord s i.operands.length = .ok raw →
        exec i s = .next (faultEntry (.invalidWriteTarget raw) s)

/-! ### The instructions -/

/-- ADD (41_arithmetic.md R100): its encoding; the exact sum stored, `ip` advanced by 4 and nothing else
changed; ArithmeticOverflow for a sum that is no word; the first operand fault otherwise. -/
def Obligations.AddStoresExactSum : Prop :=
  ∀ (m1 m2 m3 : Mode) (s : State), s.mem.wf →
    encode (.add m1 m2 m3) = 1 + 100 * m1.digit + 1000 * m2.digit + 10000 * m3.digit ∧
    (∀ a b d, rdOp s 1 m1 = .ok a → rdOp s 2 m2 = .ok b → wrAddr s 3 m3 = .ok d →
      (isWord s.cfg (a + b) = true →
        ∃ t, exec (.add m1 m2 m3) s = .next t ∧ StoresCell s t d (a + b) 4) ∧
      (isWord s.cfg (a + b) = false →
        exec (.add m1 m2 m3) s = .next (faultEntry (.arithmeticOverflow (a + b)) s))) ∧
    ∀ e, firstOperandFault s 1 (Instr.add m1 m2 m3).operands = some e →
      exec (.add m1 m2 m3) s = .next (faultEntry e s)

/-- MUL (41_arithmetic.md R101): as ADD, with the exact product. -/
def Obligations.MulStoresExactProduct : Prop :=
  ∀ (m1 m2 m3 : Mode) (s : State), s.mem.wf →
    encode (.mul m1 m2 m3) = 2 + 100 * m1.digit + 1000 * m2.digit + 10000 * m3.digit ∧
    (∀ a b d, rdOp s 1 m1 = .ok a → rdOp s 2 m2 = .ok b → wrAddr s 3 m3 = .ok d →
      (isWord s.cfg (a * b) = true →
        ∃ t, exec (.mul m1 m2 m3) s = .next t ∧ StoresCell s t d (a * b) 4) ∧
      (isWord s.cfg (a * b) = false →
        exec (.mul m1 m2 m3) s = .next (faultEntry (.arithmeticOverflow (a * b)) s))) ∧
    ∀ e, firstOperandFault s 1 (Instr.mul m1 m2 m3).operands = some e →
      exec (.mul m1 m2 m3) s = .next (faultEntry e s)

/-- LT (44_compare.md R130): its encoding; 1 or 0 stored by signed comparison, `ip` advanced by 4 and
nothing else changed; the first operand fault otherwise. -/
def Obligations.LtStoresOneOrZero : Prop :=
  ∀ (m1 m2 m3 : Mode) (s : State), s.mem.wf →
    encode (.lt m1 m2 m3) = 7 + 100 * m1.digit + 1000 * m2.digit + 10000 * m3.digit ∧
    (∀ a b d, rdOp s 1 m1 = .ok a → rdOp s 2 m2 = .ok b → wrAddr s 3 m3 = .ok d →
      ∃ t, exec (.lt m1 m2 m3) s = .next t ∧ StoresCell s t d (if a < b then 1 else 0) 4) ∧
    ∀ e, firstOperandFault s 1 (Instr.lt m1 m2 m3).operands = some e →
      exec (.lt m1 m2 m3) s = .next (faultEntry e s)

/-- EQ (44_compare.md R131): as LT, with integer equality. -/
def Obligations.EqStoresOneOrZero : Prop :=
  ∀ (m1 m2 m3 : Mode) (s : State), s.mem.wf →
    encode (.eq m1 m2 m3) = 8 + 100 * m1.digit + 1000 * m2.digit + 10000 * m3.digit ∧
    (∀ a b d, rdOp s 1 m1 = .ok a → rdOp s 2 m2 = .ok b → wrAddr s 3 m3 = .ok d →
      ∃ t, exec (.eq m1 m2 m3) s = .next t ∧ StoresCell s t d (if a = b then 1 else 0) 4) ∧
    ∀ e, firstOperandFault s 1 (Instr.eq m1 m2 m3).operands = some e →
      exec (.eq m1 m2 m3) s = .next (faultEntry e s)

/-- IN (42_io.md R110): its encoding; the head of `InQ` stored, the machine running, `ip` advanced by 2;
the wait on an empty open channel with only `run_state` changed; ChannelClosed on an empty closed one;
a destination fault before the channel is looked at. -/
def Obligations.InStoresHeadOrWaitsOrFaults : Prop :=
  ∀ (m1 : Mode) (s : State), s.mem.wf →
    encode (.inp m1) = 3 + 100 * m1.digit ∧
    (∀ d, wrAddr s 1 m1 = .ok d →
      (∀ v rest, s.inQ = v :: rest →
        ∃ t, exec (.inp m1) s = .next t ∧
          StoresCell { s with inQ := rest, runState := .running } t d v 2) ∧
      (s.inQ = [] → s.inClosed = false →
        exec (.inp m1) s = .next { s with runState := .waitingOnInput }) ∧
      (s.inQ = [] → s.inClosed = true →
        exec (.inp m1) s = .next (faultEntry (.channelClosed .input) s))) ∧
    ∀ e, wrAddr s 1 m1 = .error e → exec (.inp m1) s = .next (faultEntry e s)

/-- OUT (42_io.md R111): its encoding; the value appended to `OutQ`, `ip` advanced by 2 and nothing else
changed; ChannelClosed when the consumer has dropped; a source fault before the channel is looked at. -/
def Obligations.OutAppendsToOutput : Prop :=
  ∀ (m1 : Mode) (s : State),
    encode (.out m1) = 4 + 100 * m1.digit ∧
    (∀ v, rdOp s 1 m1 = .ok v →
      (s.outDropped = false →
        exec (.out m1) s = .next { s with outQ := s.outQ ++ [v], ip := s.ip + 2 }) ∧
      (s.outDropped = true →
        exec (.out m1) s = .next (faultEntry (.channelClosed .output) s))) ∧
    ∀ e, rdOp s 1 m1 = .error e → exec (.out m1) s = .next (faultEntry e s)

/-- JNZ (43_jumps.md R120, R122): its encoding; `ip` at exactly the target when the condition is not 0,
3 further when it is, and nothing else changed; both operands resolved either way; a bad target of a
taken jump faults at the jump. -/
def Obligations.JnzJumpsWhenNonZero : Prop :=
  ∀ (m1 m2 : Mode) (s : State),
    encode (.jnz m1 m2) = 5 + 100 * m1.digit + 1000 * m2.digit ∧
    (∀ a b, rdOp s 1 m1 = .ok a → rdOp s 2 m2 = .ok b →
      (a = 0 → exec (.jnz m1 m2) s = .next { s with ip := s.ip + 3 }) ∧
      (a ≠ 0 → ValidAddr s.cfg b → exec (.jnz m1 m2) s = .next { s with ip := b.toNat }) ∧
      (∀ e, a ≠ 0 → AddrFault s.cfg b e → exec (.jnz m1 m2) s = .next (faultEntry e s))) ∧
    ∀ e, firstOperandFault s 1 (Instr.jnz m1 m2).operands = some e →
      exec (.jnz m1 m2) s = .next (faultEntry e s)

/-- JZ (43_jumps.md R121, R122): as JNZ, with the condition 0. -/
def Obligations.JzJumpsWhenZero : Prop :=
  ∀ (m1 m2 : Mode) (s : State),
    encode (.jz m1 m2) = 6 + 100 * m1.digit + 1000 * m2.digit ∧
    (∀ a b, rdOp s 1 m1 = .ok a → rdOp s 2 m2 = .ok b →
      (a ≠ 0 → exec (.jz m1 m2) s = .next { s with ip := s.ip + 3 }) ∧
      (a = 0 → ValidAddr s.cfg b → exec (.jz m1 m2) s = .next { s with ip := b.toNat }) ∧
      (∀ e, a = 0 → AddrFault s.cfg b e → exec (.jz m1 m2) s = .next (faultEntry e s))) ∧
    ∀ e, firstOperandFault s 1 (Instr.jz m1 m2).operands = some e →
      exec (.jz m1 m2) s = .next (faultEntry e s)

/-- ARB (45_relative_base.md R140): its encoding; the operand, resolved with the old `rb`, added to `rb`,
`ip` advanced by 2 and nothing else changed; ArithmeticOverflow for a sum that is no word. -/
def Obligations.ArbAddsToRelativeBase : Prop :=
  ∀ (m1 : Mode) (s : State),
    encode (.arb m1) = 9 + 100 * m1.digit ∧
    (∀ a, rdOp s 1 m1 = .ok a →
      (isWord s.cfg (s.rb + a) = true →
        exec (.arb m1) s = .next { s with rb := s.rb + a, ip := s.ip + 2 }) ∧
      (isWord s.cfg (s.rb + a) = false →
        exec (.arb m1) s = .next (faultEntry (.arithmeticOverflow (s.rb + a)) s))) ∧
    ∀ e, rdOp s 1 m1 = .error e → exec (.arb m1) s = .next (faultEntry e s)

/-- HALT (46_halt.md R150): its encoding; the machine halted, the output closed, `ip` not advanced and
nothing else changed; then no step, the queues as they were, and a join that succeeds. -/
def Obligations.HaltEndsTheRun : Prop :=
  encode .halt = 99 ∧
    ∀ s : State, ∃ t, exec .halt s = .next t ∧
      t = { s with runState := .halted, outClosed := true } ∧
      (∀ u, step t ≠ .next u) ∧ t.inQ = s.inQ ∧ t.outQ = s.outQ ∧ t.join = .done t (.joined .ok)

/-- The idioms (30_encoding.md R75, R76): where the words of `MOV s, d` stand at `ip`, the step copies the
value of s to d and changes nothing else but `ip`; where those of `JMP t` stand, it jumps to t. -/
def Obligations.MovCopiesAndJmpJumps : Prop :=
  ∀ s : State, s.Inv → noStep s = none → s.runState = .running →
    (∀ ms x md y a d,
      (Line.mov ms x md y).words =
        [s.cell s.ip, s.cell (s.ip + 1), s.cell (s.ip + 2), s.cell (s.ip + 3)] →
      rdOp s 1 ms = .ok a → wrAddr s 3 md = .ok d →
      ∃ t, step s = .next t ∧ StoresCell s t d a 4) ∧
    ∀ mt y b,
      (Line.jmp mt y).words = [s.cell s.ip, s.cell (s.ip + 1), s.cell (s.ip + 2)] →
      rdOp s 2 mt = .ok b → ValidAddr s.cfg b → step s = .next { s with ip := b.toNat }

/-- What every instruction leaves of memory: the one cell it stores to holds the stored word, every
other cell what it held; an instruction that stores nothing, or faults, changes no cell. A stored word
is what a fetch at that address then reads (20_memory.md R43, R56, R57). -/
def Obligations.OnlyTheStoredCellChanges : Prop :=
  ∀ (i : Instr) (s t : State), s.mem.wf → exec i s = .next t →
    (storedCell i s = none → ∀ x, t.cell x = s.cell x) ∧
    ∀ d v, storedCell i s = some (d, v) →
      t.cell d = v ∧ (∀ x, x ≠ d → t.cell x = s.cell x) ∧ (t.ip = d → fetch t = .ok v)

/-- Memories in canonical form that read alike are equal: the model holds `mem` as a function
(10_state.md R34). -/
def Obligations.MemoriesThatReadAlikeAreEqual : Prop :=
  ∀ m m' : Memory, m.wf → m'.wf → (∀ a, m.read a = m'.read a) → m = m'

/-! ### Faults -/

/-- Fault entry is precise (60_exceptions.md R163): a step that ends in `Faulted` writes the run state,
the record and `out_closed`, and leaves everything else. Nothing is said of `fault_word` when the fetch
itself faulted: that is a free value (log entry 2). -/
def Obligations.FaultingStepChangesOnlyTheRecord : Prop :=
  ∀ s t : State, step s = .next t → t.runState = .faulted →
    (∃ e : Raised, t = faultEntry e s ∧ t.faultCause = some e.cause ∧
      2 ≤ e.cause.code ∧ e.cause.code ≤ 8) ∧
    t.faultIp = s.ip ∧ (s.ip < s.cfg.addrLimit → t.faultWord = s.cell s.ip) ∧
    t.outClosed = true ∧
    t.cfg = s.cfg ∧ t.mem = s.mem ∧ t.ip = s.ip ∧ t.rb = s.rb ∧ t.started = s.started ∧
    t.inQ = s.inQ ∧ t.inClosed = s.inClosed ∧ t.outQ = s.outQ ∧ t.outDropped = s.outDropped

/-- Fetch and decode faults are taken (40_execution.md R84 checks 1 and 2, R85; 30_encoding.md R71): an
`ip` at or above the limit is AddressOutOfRange; an instruction word the decoder refuses is the decoder's
fault; either ends the run. -/
def Obligations.FetchAndDecodeFaultsAreTaken : Prop :=
  ∀ s : State, noStep s = none →
    (s.cfg.addrLimit ≤ s.ip →
      ∃ t, step s = .next t ∧ t.runState = .faulted ∧ t.faultCause = some .addressOutOfRange) ∧
    (s.ip < s.cfg.addrLimit → ∀ e, decode s.cfg.strictModeDigits (s.cell s.ip) = .error e →
      ∃ t, step s = .next t ∧ t.runState = .faulted ∧ t.faultCause = some e.cause ∧
        t.faultWord = s.cell s.ip)

/-- The fault matrix, one way (60_exceptions.md R161): an instruction raises no cause outside its row,
and, of the instructions whose row says "Relative only", ArithmeticOverflow only with a Relative
operand. -/
def Obligations.InstructionsRaiseOnlyTheirFaults : Prop :=
  ∀ (i : Instr) (s t : State) (c : Cause),
    exec i s = .next t → s.faultCause = none → t.faultCause = some c →
      mayRaise i.code c = true ∧
        (c = .arithmeticOverflow → i.code ≠ 1 → i.code ≠ 2 → i.code ≠ 9 →
          ∃ r, (r, Mode.relative) ∈ i.operands)

/-- The fault matrix, the other way (60_exceptions.md R161): every cause of an instruction's row is raised
by some form of it in some good running state. -/
def Obligations.EveryFaultOfTheMatrixIsRaised : Prop :=
  ∀ (code : Nat) (c : Cause), nops code ≠ none → mayRaise code c = true →
    ∃ (i : Instr) (s t : State), i.code = code ∧ s.Inv ∧ noStep s = none ∧
      fetchDecode s = .ok i ∧ step s = .next t ∧ t.runState = .faulted ∧ t.faultCause = some c

/-- With unbounded words no step raises ArithmeticOverflow (41_arithmetic.md R102): ADD, MUL and ARB
compute the exact result, which always fits. -/
def Obligations.UnboundedWordsNeverOverflow : Prop :=
  ∀ s t : State, s.cfg.wordModel = .unbounded → step s = .next t →
    t.faultCause ≠ some .arithmeticOverflow ∨ s.faultCause = some .arithmeticOverflow

/-! ### The step -/

/-- A step runs the decoded instruction (40_execution.md R81, R90): where the word at `ip` decodes to
`i`, an enabled step is `exec i`; where it does not decode, or cannot be fetched, the step is fault
entry. -/
def Obligations.StepRunsTheDecodedInstruction : Prop :=
  ∀ s : State, noStep s = none →
    (∀ i, s.ip < s.cfg.addrLimit → decode s.cfg.strictModeDigits (s.cell s.ip) = .ok i →
      step s = exec i s) ∧
    (∀ e, s.ip < s.cfg.addrLimit → decode s.cfg.strictModeDigits (s.cell s.ip) = .error e →
      step s = .next (faultEntry e s)) ∧
    (s.cfg.addrLimit ≤ s.ip → step s = .next (faultEntry (.addressOutOfRange s.ip) s))

/-- Step enabling (40_execution.md R89): a machine answers a next state exactly when it has been started
and is running, or waits and its channel has a value or is closed; so never when halted or faulted. -/
def Obligations.StepEnabledWhenRunningOrInputReady : Prop :=
  ∀ s : State,
    (∃ t, step s = .next t) ↔ s.started = true ∧
      (s.runState = .running ∨
        s.runState = .waitingOnInput ∧ (s.inQ ≠ [] ∨ s.inClosed = true))

/-- A machine with no enabled step stops under the name of the reason. That it has no step is
40_execution.md R89; the four names, and that such a step is a stop, are the model's choice (log entry
6). -/
def Obligations.DisabledStepStopsUnderItsReason : Prop :=
  ∀ s : State,
    (s.started = false → step s = .fault .notStarted) ∧
    (s.started = true → s.runState = .halted → step s = .fault .alreadyHalted) ∧
    (s.started = true → s.runState = .faulted → step s = .fault .alreadyFaulted) ∧
    (s.started = true → s.runState = .waitingOnInput → s.inQ = [] → s.inClosed = false →
      step s = .fault .blockedOnInput)

/-- The run-state transitions are exactly those of 40_execution.md R88, with their effects. -/
def Obligations.RunStateChangesAsTabled : Prop :=
  ∀ s t : State, s.Inv → step s = .next t → Transition s t

/-- The instruction pointer after a step (40_execution.md R87): the length of the decoded instruction
further, or at the target of a taken jump; unchanged by HALT, a fault or a wait. -/
def Obligations.InstructionPointerAdvancesAsSpecified : Prop :=
  ∀ (s t : State) (i : Instr), s.Inv → fetchDecode s = .ok i → step s = .next t →
    (t.runState ≠ .running → t.ip = s.ip) ∧
    (t.runState = .running →
      match i with
      | .jnz m1 m2 => ∃ a b, rdOp s 1 m1 = .ok a ∧ rdOp s 2 m2 = .ok b ∧
          (a ≠ 0 → (t.ip : Int) = b) ∧ (a = 0 → t.ip = s.ip + 3)
      | .jz m1 m2 => ∃ a b, rdOp s 1 m1 = .ok a ∧ rdOp s 2 m2 = .ok b ∧
          (a = 0 → (t.ip : Int) = b) ∧ (a ≠ 0 → t.ip = s.ip + 3)
      | j => nops j.code = some (j.length - 1) ∧ t.ip = s.ip + j.length)

/-- ARB is the only writer of `rb`, and `rb` is the sum of the operands of the ARB instructions completed
so far (45_relative_base.md R141; 10_state.md R24). -/
def Obligations.RelativeBaseIsTheSumOfArbOperands : Prop :=
  (∀ s t : State, step s = .next t → t.rb ≠ s.rb → ∃ m, fetchDecode s = .ok (.arb m)) ∧
    ∀ (n : Nat) (s : State), (State.runFor n s).rb = s.rb + arbTotal n s

/-- What a step does to the channels: only IN takes from `InQ`, its head; only OUT appends to `OutQ`, at
the tail; `in_closed`, `out_dropped`, `started` and the parameters stay; `out_closed` changes only on
entry to `Halted` or `Faulted` (10_state.md R26, R30 to R33, R37). -/
def Obligations.ChannelsChangeOnlyByInAndOut : Prop :=
  ∀ s t : State, step s = .next t →
    (t.inQ = s.inQ ∨ ∃ m v, fetchDecode s = .ok (.inp m) ∧ s.inQ = v :: t.inQ) ∧
    (t.outQ = s.outQ ∨
      ∃ m v, fetchDecode s = .ok (.out m) ∧ rdOp s 1 m = .ok v ∧ t.outQ = s.outQ ++ [v]) ∧
    t.inClosed = s.inClosed ∧ t.outDropped = s.outDropped ∧ t.started = s.started ∧
    t.cfg = s.cfg ∧ (t.outClosed ≠ s.outClosed → t.terminated = true)

/-- A wait loses nothing (40_execution.md R89; 60_exceptions.md R186): the step that ends it gives what
the IN would have given had the value, or the close, been there before. -/
def Obligations.WaitingChangesNothingButTheRunState : Prop :=
  ∀ s t : State, step s = .next t → t.runState = .waitingOnInput → s.runState = .running →
    (∀ v vs, step { t with inQ := v :: vs } = step { s with inQ := v :: vs }) ∧
      step { t with inClosed := true } = step { s with inClosed := true }

/-- No instruction can tell when a value arrives (70_reset_and_hazards.md R199): a step that does not
wait gives the same with one more value queued, and leaves that value queued. -/
def Obligations.ArrivalTimeOfInputDoesNotMatter : Prop :=
  ∀ (s t : State) (v : Int), s.inClosed = false → step s = .next t →
    t.runState ≠ .waitingOnInput → step (s.feed [v]) = .next (t.feed [v])

/-- `Halted` and `Faulted` are terminal (60_exceptions.md R165; 70_reset_and_hazards.md R197): no number of
steps changes the machine, and no host operation makes it run again. -/
def Obligations.TerminatedMachinesStayTerminated : Prop :=
  ∀ s : State, s.terminated = true →
    (∀ n, State.runFor n s = s) ∧
    ∀ (f : State → HostResult State) (t : State) (r : Reply),
      (f = State.close ∨ f = State.start ∨ f = State.pop ∨ f = State.drop ∨ f = State.join ∨
        (∃ v, f = fun u => u.push v) ∨ ∃ a, f = fun u => u.peek a) →
      f s = .done t r → t.runState = s.runState ∧ ∀ u, step t ≠ .next u

/-! ### Invariants -/

/-- Every step keeps the good states good, and the parameters as they are: canonical memory of words at
valid addresses, `ip` below the limit + 4, the fault record and `out_closed` as the run state says, and
the rest of `State.Inv`. -/
def Obligations.StepKeepsStatesGood : Prop :=
  ∀ s t : State, s.Inv → step s = .next t → t.Inv ∧ SameParameters s t

/-- The state after reset is good. -/
def Obligations.ResetStateIsGood : Prop := State.reset.Inv

/-- The state after reset (10_state.md R36): `State.reset` is the construction of the one-word program
text `0` (the model's choice, log entry 4); every element the spec gives a reset value holds it. -/
def Obligations.ResetStateIsAsSpecified : Prop :=
  construct Config.spec ['0'] [] = .machine State.reset ∧
    (∀ a, State.reset.cell a = 0) ∧ State.reset.ip = 0 ∧ State.reset.rb = 0 ∧
    State.reset.runState = .running ∧ State.reset.started = false ∧
    causeCode State.reset.faultCause = 0 ∧ State.reset.inQ = [] ∧
    State.reset.inClosed = false ∧ State.reset.outQ = [] ∧ State.reset.outClosed = false ∧
    State.reset.outDropped = false

/-! ### Construction -/

/-- A constructed machine (10_state.md R36; 70_reset_and_hazards.md R193, R194): the program's words from
address 0, patched by the overrides, the last one winning, 0 elsewhere; every other element at its
reset value. `fault_ip` and `fault_word` are left out: the spec leaves them unspecified. -/
def Obligations.ConstructionLoadsImageAndOverrides : Prop :=
  ∀ (c : Config) (text : List Char) (overrides : List (Int × Int)) (s : State),
    construct c text overrides = .machine s →
      (∃ xs, parseText c text = .ok xs ∧ xs.length < c.addrLimit ∧
        (∀ p ∈ overrides, ValidAddr c p.1) ∧
        ∀ a, s.cell a = (lastOverride overrides a).getD (xs[a]?.getD 0)) ∧
      s.cfg = c ∧ s.ip = 0 ∧ s.rb = 0 ∧ s.runState = .running ∧ s.started = false ∧
      causeCode s.faultCause = 0 ∧ s.inQ = [] ∧ s.inClosed = false ∧ s.outQ = [] ∧
      s.outClosed = false ∧ s.outDropped = false

/-- A constructed machine is good: whatever the text and the overrides, its memory holds words (00_scope.md
R11) in canonical form. -/
def Obligations.ConstructedMachineIsGood : Prop :=
  ∀ (c : Config) (text : List Char) (overrides : List (Int × Int)) (s : State),
    0 < c.addrLimit → construct c text overrides = .machine s → s.Inv

/-- Construction errors, in order (60_exceptions.md R162; 70_reset_and_hazards.md R190, R193, R194): the
text, then the size of the image, then the first bad override address; otherwise there is a machine.
That the size error carries the length of the image is the model's choice (log entry 23). -/
def Obligations.ConstructionFailsInOrder : Prop :=
  ∀ (c : Config) (text : List Char) (overrides : List (Int × Int)),
    (∀ p ∈ overrides, isWord c p.2 = true) →
    (∀ e, parseText c text = .error e → construct c text overrides = .error e) ∧
    ∀ xs, parseText c text = .ok xs →
      (c.addrLimit ≤ xs.length →
        construct c text overrides = .error (.addressOutOfRange xs.length)) ∧
      (xs.length < c.addrLimit → ∀ before x v after e,
        overrides = before ++ (x, v) :: after → (∀ p ∈ before, ValidAddr c p.1) →
        AddrFault c x e → construct c text overrides = .error e) ∧
      (xs.length < c.addrLimit → (∀ p ∈ overrides, ValidAddr c p.1) →
        ∃ s, construct c text overrides = .machine s)

/-- The loader accepts exactly the texts of the grammar whose numbers are words, and reads exactly their
numbers; every other text is ParseError (70_reset_and_hazards.md R191, R192). -/
def Obligations.LoaderAcceptsExactlyTheGrammar : Prop :=
  ∀ (c : Config) (text : List Char),
    (∀ xs, parseText c text = .ok xs ↔
      ProgramText text xs ∧ ∀ x ∈ xs, isWord c x = true) ∧
    ∀ e, parseText c text = .error e → e.cause = .parseError

/-! ### The host's operations -/

/-- Every operation of the host keeps good states good, whatever it pushes. -/
def Obligations.HostOperationsKeepStatesGood : Prop :=
  ∀ (s t : State) (f : State → HostResult State) (r : Reply), s.Inv →
    (f = State.close ∨ f = State.start ∨ f = State.pop ∨ f = State.drop ∨ f = State.join ∨
      (∃ v, f = fun u => u.push v) ∨ ∃ a, f = fun u => u.peek a) →
    f s = .done t r → t.Inv ∧ SameParameters s t

/-- The input endpoint (60_exceptions.md R171): a push of a word appends at the tail, never blocks and
changes nothing else; after a close nothing more can be pushed. -/
def Obligations.PushAppendsUntilClosed : Prop :=
  ∀ (s : State) (v : Int),
    (s.inClosed = false → isWord s.cfg v = true → ∃ r, s.push v = .done { s with inQ := s.inQ ++ [v] } r) ∧
    s.close = .done { s with inClosed := true } .nothing ∧
    ∀ t r, s.close = .done t r → t.push v = .refused

/-- Only words come in from the host (00_scope.md R11; 60_exceptions.md R189: the host sends "a word"):
an integer that is no word is neither pushed nor an override's value. That it is refused, before
anything else is looked at, is the model's choice (log entry 17). -/
def Obligations.HostBringsOnlyWords : Prop :=
  (∀ (s : State) (v : Int), isWord s.cfg v = false → s.push v = .refused) ∧
    ∀ (c : Config) (text : List Char) (overrides : List (Int × Int)),
      construct c text overrides = .refused ↔ ∃ p ∈ overrides, isWord c p.2 = false

/-- The output endpoint (60_exceptions.md R172): pop takes the head; of an empty queue it reports the end
of the stream if the machine has closed it, and blocks if not; drop discards the queue, ends popping,
and makes the machine's next OUT raise ChannelClosed. -/
def Obligations.PopTakesHeadAndDropDiscards : Prop :=
  ∀ s : State,
    (s.outDropped = false →
      (∀ v rest, s.outQ = v :: rest → s.pop = .done { s with outQ := rest } (.word v)) ∧
      (s.outQ = [] → s.outClosed = true → s.pop = .done s .endOfStream) ∧
      (s.outQ = [] → s.outClosed = false → s.pop = .blocked)) ∧
    ∃ t, s.drop = .done t .nothing ∧ t = { s with outDropped := true, outQ := [] } ∧
      t.pop = .refused ∧
      ∀ m v, rdOp t 1 m = .ok v →
        exec (.out m) t = .next (faultEntry (.channelClosed .output) t)

/-- Start (60_exceptions.md R173): it sets `started`, once, and returns the join primitive; a second start
is refused. -/
def Obligations.MachineStartsOnce : Prop :=
  ∀ s : State,
    (s.started = false → s.start = .done { s with started := true } .joinPrimitive) ∧
    (s.started = true → s.start = .refused) ∧
    ∀ t r, s.start = .done t r → t.start = .refused

/-- Join and inspection (60_exceptions.md R174, R176): join blocks exactly while the machine has not
terminated, and reports success of a halted one; after a step that faults it returns the cause, the
address and the word of the faulting instruction. Before the host's join of a machine has returned,
inspecting it is refused, and so it is of a machine that has not terminated; once it has returned,
every valid address can be inspected, and after a fault the memory read is the one before the faulting
instruction. -/
def Obligations.JoinReportsTheFault : Prop :=
  (∀ s : State, s.join = .blocked ↔ s.terminated = false) ∧
    (∀ s : State, s.runState = .halted → s.join = .done s (.joined .ok)) ∧
    (∀ (sys : System) (i a : Nat), i ∉ sys.joined → sys.act (.peek i a) = .refused) ∧
    (∀ (sys : System) (i a : Nat) (s : State), sys.Inv → sys.machines[i]? = some s →
      s.terminated = false → sys.act (.peek i a) = .refused) ∧
    (∀ (sys : System) (i : Nat) (s : State), sys.machines[i]? = some s → s.terminated = true →
      ∃ after r, sys.act (.join i) = .done after (.joined r) ∧ after.machines = sys.machines ∧
        after.wires = sys.wires ∧
        ∀ a, a < s.cfg.addrLimit → after.act (.peek i a) = .done after (.word (s.cell a))) ∧
    ∀ s t : State, step s = .next t → t.runState = .faulted →
      (s.ip < s.cfg.addrLimit → ∃ c : Cause, t.faultCause = some c ∧
        t.join = .done t (.joined (.err c.code s.ip (s.cell s.ip)))) ∧
      ∀ (sys : System) (i : Nat), sys.machines[i]? = some t →
        ∃ after r, sys.act (.join i) = .done after (.joined r) ∧
          ∀ a, a < s.cfg.addrLimit → after.act (.peek i a) = .done after (.word (s.cell a))

/-- Run to completion waits for ever at an IN on an empty open channel (60_exceptions.md R175): a
deadlock, not a fault. -/
def Obligations.RunToCompletionBlocksOnEmptyInput : Prop :=
  ∀ (s t : State) (r : Reply) (k n : Nat), s.start = .done t r →
    (State.runFor k t).runState = .waitingOnInput → (State.runFor k t).inQ = [] →
    (State.runFor k t).inClosed = false → s.runToCompletion n = .blocked

/-! ### Systems of machines -/

/-- Every action of a machine or of the host keeps good systems good. -/
def Obligations.ActionsKeepSystemsGood : Prop :=
  ∀ (sys t : System) (a : Action) (r : Reply), sys.Inv →
    sys.act a = .done t r → t.Inv

/-- A machine step in a system (60_exceptions.md R181, R182, R183): the machine itself steps as it would
alone; what it sends to a wired channel stands at the tail of the consumer's queue, and the consumer's
`in_closed` is the machine's `out_closed`; nothing else of the consumer, no other machine, and neither
the wiring nor what the host has joined changes. That a wired channel is kept in the consumer's `inQ`
alone, so that the producer's `outQ` is empty after the step, is the model's choice (log entry 11). -/
def Obligations.MachineStepTouchesOnlyItsChannel : Prop :=
  ∀ (sys : System) (i : Nat) (s t : State), sys.Inv → sys.machines[i]? = some s →
    step s = .next t →
    ∃ after, sys.act (.run i) = .done after .nothing ∧
      after.wires = sys.wires ∧ after.joined = sys.joined ∧
      after.machines.length = sys.machines.length ∧
      (sys.consumerOf i ≠ some i → ∃ u, after.machines[i]? = some u ∧
        u = { t with outQ := u.outQ } ∧
        (sys.consumerOf i = none → u = t) ∧ (sys.consumerOf i ≠ none → u.outQ = [])) ∧
      (∀ j u, j ≠ i → sys.machines[j]? = some u →
        after.machines[j]? =
          some (if sys.consumerOf i = some j then
            { u with inQ := u.inQ ++ t.outQ, inClosed := t.outClosed } else u)) ∧
      (sys.consumerOf i = some i → after.machines[i]? =
        some { t with inQ := t.inQ ++ t.outQ, outQ := [], inClosed := t.outClosed })

/-- Who may do what with a wired channel (60_exceptions.md R182; the model's reading of who holds an
endpoint, log entry 12): the host seeds it only before its producer starts, takes from it only after its
consumer has terminated, and neither closes nor drops it. -/
def Obligations.HostReachesWiredChannelsOnlyAtTheEnds : Prop :=
  ∀ (sys : System) (i j : Nat) (s u : State), sys.Inv → (i, j) ∈ sys.wires →
    sys.machines[i]? = some s → sys.machines[j]? = some u →
    (∀ v, s.started = true → sys.act (.push j v) = .refused) ∧
    (∀ v, s.started = false → isWord u.cfg v = true → ∃ r, sys.act (.push j v) =
      .done (sys.setMachine j { u with inQ := u.inQ ++ [v] }) r) ∧
    (u.terminated = false → sys.act (.pop i) = .refused) ∧
    (∀ v rest, u.terminated = true → u.inQ = v :: rest →
      sys.act (.pop i) = .done (sys.setMachine j { u with inQ := rest }) (.word v)) ∧
    sys.act (.close j) = .refused ∧ sys.act (.drop i) = .refused

/-- Two machines that can both step can be brought to the same system whichever steps first, after at
most one more step each: the step of 60_exceptions.md R184. -/
def Obligations.StepsOfTwoMachinesMeetAgain : Prop :=
  ∀ (sys si sj : System) (i j : Nat), sys.Inv → i ≠ j →
    sys.act (.run i) = .done si .nothing → sys.act (.run j) = .done sj .nothing →
    ∃ t, (si.runSchedule [.run j] = some t ∨ si.runSchedule [.run j, .run i] = some t) ∧
      (sj.runSchedule [.run i] = some t ∨ sj.runSchedule [.run i, .run j] = some t)

/-- The outcome does not depend on the schedule (60_exceptions.md R184): of two schedules with the same
host actions in the same order, pushes, closes and starts only, that both end with every machine
terminated, the final systems are equal: run states, memories, fault records and what is left in every
channel. -/
def Obligations.PipelineOutcomeIsScheduleIndependent : Prop :=
  ∀ (sys t1 t2 : System) (acts1 acts2 : List Action), sys.Inv →
    (∀ a ∈ acts1, FeedingAction a) → (∀ a ∈ acts2, FeedingAction a) →
    hostActions acts1 = hostActions acts2 →
    sys.runSchedule acts1 = some t1 → sys.runSchedule acts2 = some t2 →
    t1.AllTerminated → t2.AllTerminated → t1 = t2

/-- Under weak fairness no agent is left out (60_exceptions.md R179, R180): in an infinite, weakly fair
execution from a good system, a machine with an enabled step takes it in the end, and an operation of
the host that could complete completes in the end, since nothing another agent does disables either.
That the host stays at an operation until it has taken it, as a blocked caller does, is the model's
reading of the host (log entry 15). -/
def Obligations.WeakFairnessServesEveryAgent : Prop :=
  ∀ (trace : Nat → System) (acts : Nat → Action) (host : Nat → Option Action),
    (trace 0).Inv → IsExecution trace acts host → WeaklyFair trace acts host →
    (∀ n i, (trace n).Enabled i → ∃ k, n ≤ k ∧ acts k = .run i) ∧
      ∀ n a t r, host n = some a → (trace n).act a = .done t r →
        ∃ k t' r', n ≤ k ∧ acts k = a ∧ (trace k).act a = .done t' r'
end

