-- ==== Sys2Proof/Laws/State.lean ====
section
/-! SUPPORT. What each update of the state does to each field: one lemma per field per update. -/

namespace Sys2Proof.Machine

/-! ### `State.store`: MemWrite -/

@[simp] theorem State.store_cfg (s : State) (d : Nat) (v : Int) : (s.store d v).cfg = s.cfg := rfl
@[simp] theorem State.store_mem (s : State) (d : Nat) (v : Int) :
    (s.store d v).mem = s.mem.write d v := rfl
@[simp] theorem State.store_ip (s : State) (d : Nat) (v : Int) : (s.store d v).ip = s.ip := rfl
@[simp] theorem State.store_rb (s : State) (d : Nat) (v : Int) : (s.store d v).rb = s.rb := rfl
@[simp] theorem State.store_runState (s : State) (d : Nat) (v : Int) :
    (s.store d v).runState = s.runState := rfl
@[simp] theorem State.store_started (s : State) (d : Nat) (v : Int) :
    (s.store d v).started = s.started := rfl
@[simp] theorem State.store_faultCause (s : State) (d : Nat) (v : Int) :
    (s.store d v).faultCause = s.faultCause := rfl
@[simp] theorem State.store_faultIp (s : State) (d : Nat) (v : Int) :
    (s.store d v).faultIp = s.faultIp := rfl
@[simp] theorem State.store_faultWord (s : State) (d : Nat) (v : Int) :
    (s.store d v).faultWord = s.faultWord := rfl
@[simp] theorem State.store_inQ (s : State) (d : Nat) (v : Int) : (s.store d v).inQ = s.inQ := rfl
@[simp] theorem State.store_inClosed (s : State) (d : Nat) (v : Int) :
    (s.store d v).inClosed = s.inClosed := rfl
@[simp] theorem State.store_outQ (s : State) (d : Nat) (v : Int) :
    (s.store d v).outQ = s.outQ := rfl
@[simp] theorem State.store_outClosed (s : State) (d : Nat) (v : Int) :
    (s.store d v).outClosed = s.outClosed := rfl
@[simp] theorem State.store_outDropped (s : State) (d : Nat) (v : Int) :
    (s.store d v).outDropped = s.outDropped := rfl
@[simp] theorem State.store_freeCount (s : State) (d : Nat) (v : Int) :
    (s.store d v).freeCount = s.freeCount := rfl

/-! ### `State.advance`: the normal advance -/

@[simp] theorem State.advance_cfg (s : State) (n : Nat) : (s.advance n).cfg = s.cfg := rfl
@[simp] theorem State.advance_mem (s : State) (n : Nat) : (s.advance n).mem = s.mem := rfl
@[simp] theorem State.advance_ip (s : State) (n : Nat) : (s.advance n).ip = s.ip + n := rfl
@[simp] theorem State.advance_rb (s : State) (n : Nat) : (s.advance n).rb = s.rb := rfl
@[simp] theorem State.advance_runState (s : State) (n : Nat) :
    (s.advance n).runState = s.runState := rfl
@[simp] theorem State.advance_started (s : State) (n : Nat) :
    (s.advance n).started = s.started := rfl
@[simp] theorem State.advance_faultCause (s : State) (n : Nat) :
    (s.advance n).faultCause = s.faultCause := rfl
@[simp] theorem State.advance_faultIp (s : State) (n : Nat) :
    (s.advance n).faultIp = s.faultIp := rfl
@[simp] theorem State.advance_faultWord (s : State) (n : Nat) :
    (s.advance n).faultWord = s.faultWord := rfl
@[simp] theorem State.advance_inQ (s : State) (n : Nat) : (s.advance n).inQ = s.inQ := rfl
@[simp] theorem State.advance_inClosed (s : State) (n : Nat) :
    (s.advance n).inClosed = s.inClosed := rfl
@[simp] theorem State.advance_outQ (s : State) (n : Nat) : (s.advance n).outQ = s.outQ := rfl
@[simp] theorem State.advance_outClosed (s : State) (n : Nat) :
    (s.advance n).outClosed = s.outClosed := rfl
@[simp] theorem State.advance_outDropped (s : State) (n : Nat) :
    (s.advance n).outDropped = s.outDropped := rfl
@[simp] theorem State.advance_freeCount (s : State) (n : Nat) :
    (s.advance n).freeCount = s.freeCount := rfl

/-! ### `State.jump`: a taken jump -/

@[simp] theorem State.jump_cfg (s : State) (a : Nat) : (s.jump a).cfg = s.cfg := rfl
@[simp] theorem State.jump_mem (s : State) (a : Nat) : (s.jump a).mem = s.mem := rfl
@[simp] theorem State.jump_ip (s : State) (a : Nat) : (s.jump a).ip = a := rfl
@[simp] theorem State.jump_rb (s : State) (a : Nat) : (s.jump a).rb = s.rb := rfl
@[simp] theorem State.jump_runState (s : State) (a : Nat) : (s.jump a).runState = s.runState := rfl
@[simp] theorem State.jump_started (s : State) (a : Nat) : (s.jump a).started = s.started := rfl
@[simp] theorem State.jump_faultCause (s : State) (a : Nat) :
    (s.jump a).faultCause = s.faultCause := rfl
@[simp] theorem State.jump_faultIp (s : State) (a : Nat) : (s.jump a).faultIp = s.faultIp := rfl
@[simp] theorem State.jump_faultWord (s : State) (a : Nat) :
    (s.jump a).faultWord = s.faultWord := rfl
@[simp] theorem State.jump_inQ (s : State) (a : Nat) : (s.jump a).inQ = s.inQ := rfl
@[simp] theorem State.jump_inClosed (s : State) (a : Nat) : (s.jump a).inClosed = s.inClosed := rfl
@[simp] theorem State.jump_outQ (s : State) (a : Nat) : (s.jump a).outQ = s.outQ := rfl
@[simp] theorem State.jump_outClosed (s : State) (a : Nat) :
    (s.jump a).outClosed = s.outClosed := rfl
@[simp] theorem State.jump_outDropped (s : State) (a : Nat) :
    (s.jump a).outDropped = s.outDropped := rfl
@[simp] theorem State.jump_freeCount (s : State) (a : Nat) :
    (s.jump a).freeCount = s.freeCount := rfl

/-! ### `State.setRb`: a write of rb -/

@[simp] theorem State.setRb_cfg (s : State) (v : Int) : (s.setRb v).cfg = s.cfg := rfl
@[simp] theorem State.setRb_mem (s : State) (v : Int) : (s.setRb v).mem = s.mem := rfl
@[simp] theorem State.setRb_ip (s : State) (v : Int) : (s.setRb v).ip = s.ip := rfl
@[simp] theorem State.setRb_rb (s : State) (v : Int) : (s.setRb v).rb = v := rfl
@[simp] theorem State.setRb_runState (s : State) (v : Int) :
    (s.setRb v).runState = s.runState := rfl
@[simp] theorem State.setRb_started (s : State) (v : Int) : (s.setRb v).started = s.started := rfl
@[simp] theorem State.setRb_faultCause (s : State) (v : Int) :
    (s.setRb v).faultCause = s.faultCause := rfl
@[simp] theorem State.setRb_faultIp (s : State) (v : Int) : (s.setRb v).faultIp = s.faultIp := rfl
@[simp] theorem State.setRb_faultWord (s : State) (v : Int) :
    (s.setRb v).faultWord = s.faultWord := rfl
@[simp] theorem State.setRb_inQ (s : State) (v : Int) : (s.setRb v).inQ = s.inQ := rfl
@[simp] theorem State.setRb_inClosed (s : State) (v : Int) :
    (s.setRb v).inClosed = s.inClosed := rfl
@[simp] theorem State.setRb_outQ (s : State) (v : Int) : (s.setRb v).outQ = s.outQ := rfl
@[simp] theorem State.setRb_outClosed (s : State) (v : Int) :
    (s.setRb v).outClosed = s.outClosed := rfl
@[simp] theorem State.setRb_outDropped (s : State) (v : Int) :
    (s.setRb v).outDropped = s.outDropped := rfl
@[simp] theorem State.setRb_freeCount (s : State) (v : Int) :
    (s.setRb v).freeCount = s.freeCount := rfl

/-! ### `State.setRun`: a write of run_state -/

@[simp] theorem State.setRun_cfg (s : State) (r : RunState) : (s.setRun r).cfg = s.cfg := rfl
@[simp] theorem State.setRun_mem (s : State) (r : RunState) : (s.setRun r).mem = s.mem := rfl
@[simp] theorem State.setRun_ip (s : State) (r : RunState) : (s.setRun r).ip = s.ip := rfl
@[simp] theorem State.setRun_rb (s : State) (r : RunState) : (s.setRun r).rb = s.rb := rfl
@[simp] theorem State.setRun_runState (s : State) (r : RunState) : (s.setRun r).runState = r := rfl
@[simp] theorem State.setRun_started (s : State) (r : RunState) :
    (s.setRun r).started = s.started := rfl
@[simp] theorem State.setRun_faultCause (s : State) (r : RunState) :
    (s.setRun r).faultCause = s.faultCause := rfl
@[simp] theorem State.setRun_faultIp (s : State) (r : RunState) :
    (s.setRun r).faultIp = s.faultIp := rfl
@[simp] theorem State.setRun_faultWord (s : State) (r : RunState) :
    (s.setRun r).faultWord = s.faultWord := rfl
@[simp] theorem State.setRun_inQ (s : State) (r : RunState) : (s.setRun r).inQ = s.inQ := rfl
@[simp] theorem State.setRun_inClosed (s : State) (r : RunState) :
    (s.setRun r).inClosed = s.inClosed := rfl
@[simp] theorem State.setRun_outQ (s : State) (r : RunState) : (s.setRun r).outQ = s.outQ := rfl
@[simp] theorem State.setRun_outClosed (s : State) (r : RunState) :
    (s.setRun r).outClosed = s.outClosed := rfl
@[simp] theorem State.setRun_outDropped (s : State) (r : RunState) :
    (s.setRun r).outDropped = s.outDropped := rfl
@[simp] theorem State.setRun_freeCount (s : State) (r : RunState) :
    (s.setRun r).freeCount = s.freeCount := rfl

/-! ### `State.popInput`: taking the head of InQ -/

@[simp] theorem State.popInput_cfg (s : State) (q : List Int) : (s.popInput q).cfg = s.cfg := rfl
@[simp] theorem State.popInput_mem (s : State) (q : List Int) : (s.popInput q).mem = s.mem := rfl
@[simp] theorem State.popInput_ip (s : State) (q : List Int) : (s.popInput q).ip = s.ip := rfl
@[simp] theorem State.popInput_rb (s : State) (q : List Int) : (s.popInput q).rb = s.rb := rfl
@[simp] theorem State.popInput_runState (s : State) (q : List Int) :
    (s.popInput q).runState = s.runState := rfl
@[simp] theorem State.popInput_started (s : State) (q : List Int) :
    (s.popInput q).started = s.started := rfl
@[simp] theorem State.popInput_faultCause (s : State) (q : List Int) :
    (s.popInput q).faultCause = s.faultCause := rfl
@[simp] theorem State.popInput_faultIp (s : State) (q : List Int) :
    (s.popInput q).faultIp = s.faultIp := rfl
@[simp] theorem State.popInput_faultWord (s : State) (q : List Int) :
    (s.popInput q).faultWord = s.faultWord := rfl
@[simp] theorem State.popInput_inQ (s : State) (q : List Int) : (s.popInput q).inQ = q := rfl
@[simp] theorem State.popInput_inClosed (s : State) (q : List Int) :
    (s.popInput q).inClosed = s.inClosed := rfl
@[simp] theorem State.popInput_outQ (s : State) (q : List Int) :
    (s.popInput q).outQ = s.outQ := rfl
@[simp] theorem State.popInput_outClosed (s : State) (q : List Int) :
    (s.popInput q).outClosed = s.outClosed := rfl
@[simp] theorem State.popInput_outDropped (s : State) (q : List Int) :
    (s.popInput q).outDropped = s.outDropped := rfl
@[simp] theorem State.popInput_freeCount (s : State) (q : List Int) :
    (s.popInput q).freeCount = s.freeCount := rfl

/-! ### `State.pushOutput`: appending to OutQ -/

@[simp] theorem State.pushOutput_cfg (s : State) (v : Int) : (s.pushOutput v).cfg = s.cfg := rfl
@[simp] theorem State.pushOutput_mem (s : State) (v : Int) : (s.pushOutput v).mem = s.mem := rfl
@[simp] theorem State.pushOutput_ip (s : State) (v : Int) : (s.pushOutput v).ip = s.ip := rfl
@[simp] theorem State.pushOutput_rb (s : State) (v : Int) : (s.pushOutput v).rb = s.rb := rfl
@[simp] theorem State.pushOutput_runState (s : State) (v : Int) :
    (s.pushOutput v).runState = s.runState := rfl
@[simp] theorem State.pushOutput_started (s : State) (v : Int) :
    (s.pushOutput v).started = s.started := rfl
@[simp] theorem State.pushOutput_faultCause (s : State) (v : Int) :
    (s.pushOutput v).faultCause = s.faultCause := rfl
@[simp] theorem State.pushOutput_faultIp (s : State) (v : Int) :
    (s.pushOutput v).faultIp = s.faultIp := rfl
@[simp] theorem State.pushOutput_faultWord (s : State) (v : Int) :
    (s.pushOutput v).faultWord = s.faultWord := rfl
@[simp] theorem State.pushOutput_inQ (s : State) (v : Int) : (s.pushOutput v).inQ = s.inQ := rfl
@[simp] theorem State.pushOutput_inClosed (s : State) (v : Int) :
    (s.pushOutput v).inClosed = s.inClosed := rfl
@[simp] theorem State.pushOutput_outQ (s : State) (v : Int) :
    (s.pushOutput v).outQ = s.outQ ++ [v] := rfl
@[simp] theorem State.pushOutput_outClosed (s : State) (v : Int) :
    (s.pushOutput v).outClosed = s.outClosed := rfl
@[simp] theorem State.pushOutput_outDropped (s : State) (v : Int) :
    (s.pushOutput v).outDropped = s.outDropped := rfl
@[simp] theorem State.pushOutput_freeCount (s : State) (v : Int) :
    (s.pushOutput v).freeCount = s.freeCount := rfl

/-! ### `State.enterHalted`: entry to Halted -/

@[simp] theorem State.enterHalted_cfg (s : State) : s.enterHalted.cfg = s.cfg := rfl
@[simp] theorem State.enterHalted_mem (s : State) : s.enterHalted.mem = s.mem := rfl
@[simp] theorem State.enterHalted_ip (s : State) : s.enterHalted.ip = s.ip := rfl
@[simp] theorem State.enterHalted_rb (s : State) : s.enterHalted.rb = s.rb := rfl
@[simp] theorem State.enterHalted_runState (s : State) : s.enterHalted.runState = .halted := rfl
@[simp] theorem State.enterHalted_started (s : State) : s.enterHalted.started = s.started := rfl
@[simp] theorem State.enterHalted_faultCause (s : State) : s.enterHalted.faultCause = s.faultCause := rfl
@[simp] theorem State.enterHalted_faultIp (s : State) : s.enterHalted.faultIp = s.faultIp := rfl
@[simp] theorem State.enterHalted_faultWord (s : State) : s.enterHalted.faultWord = s.faultWord := rfl
@[simp] theorem State.enterHalted_inQ (s : State) : s.enterHalted.inQ = s.inQ := rfl
@[simp] theorem State.enterHalted_inClosed (s : State) : s.enterHalted.inClosed = s.inClosed := rfl
@[simp] theorem State.enterHalted_outQ (s : State) : s.enterHalted.outQ = s.outQ := rfl
@[simp] theorem State.enterHalted_outClosed (s : State) : s.enterHalted.outClosed = true := rfl
@[simp] theorem State.enterHalted_outDropped (s : State) : s.enterHalted.outDropped = s.outDropped := rfl
@[simp] theorem State.enterHalted_freeCount (s : State) : s.enterHalted.freeCount = s.freeCount := rfl

/-! ### `State.feed`: appending to InQ -/

@[simp] theorem State.feed_cfg (s : State) (vs : List Int) : (s.feed vs).cfg = s.cfg := rfl
@[simp] theorem State.feed_mem (s : State) (vs : List Int) : (s.feed vs).mem = s.mem := rfl
@[simp] theorem State.feed_ip (s : State) (vs : List Int) : (s.feed vs).ip = s.ip := rfl
@[simp] theorem State.feed_rb (s : State) (vs : List Int) : (s.feed vs).rb = s.rb := rfl
@[simp] theorem State.feed_runState (s : State) (vs : List Int) :
    (s.feed vs).runState = s.runState := rfl
@[simp] theorem State.feed_started (s : State) (vs : List Int) :
    (s.feed vs).started = s.started := rfl
@[simp] theorem State.feed_faultCause (s : State) (vs : List Int) :
    (s.feed vs).faultCause = s.faultCause := rfl
@[simp] theorem State.feed_faultIp (s : State) (vs : List Int) :
    (s.feed vs).faultIp = s.faultIp := rfl
@[simp] theorem State.feed_faultWord (s : State) (vs : List Int) :
    (s.feed vs).faultWord = s.faultWord := rfl
@[simp] theorem State.feed_inQ (s : State) (vs : List Int) : (s.feed vs).inQ = s.inQ ++ vs := rfl
@[simp] theorem State.feed_inClosed (s : State) (vs : List Int) :
    (s.feed vs).inClosed = s.inClosed := rfl
@[simp] theorem State.feed_outQ (s : State) (vs : List Int) : (s.feed vs).outQ = s.outQ := rfl
@[simp] theorem State.feed_outClosed (s : State) (vs : List Int) :
    (s.feed vs).outClosed = s.outClosed := rfl
@[simp] theorem State.feed_outDropped (s : State) (vs : List Int) :
    (s.feed vs).outDropped = s.outDropped := rfl
@[simp] theorem State.feed_freeCount (s : State) (vs : List Int) :
    (s.feed vs).freeCount = s.freeCount := rfl

end Sys2Proof.Machine
end

