-- ==== Sys2Proof/Laws/Ops.lean ====
section
/-! SUPPORT. What the checks, fetch, fault entry, commit and step enabling can do, said once each. -/

namespace Sys2Proof.Machine

/-! ### The checks -/

/-- When an address passes `chkA`, and as what (spec 00_scope.md R14). -/
theorem chkA_eq_ok {c : Config} {x : Int} {a : Nat} :
    chkA c x = .ok a ↔ 0 ≤ x ∧ x < c.addrLimit ∧ a = x.toNat := by
  unfold chkA
  split_ifs with h1 h2
  · simp
    omega
  · simp
    omega
  · constructor
    · intro h
      cases h
      exact ⟨by omega, by omega, rfl⟩
    · rintro ⟨-, -, rfl⟩
      rfl

/-- When an address is refused, and by which fault (spec 20_memory.md R44, R45). -/
theorem chkA_eq_error {c : Config} {x : Int} {e : Raised} :
    chkA c x = .error e ↔
      (x < 0 ∧ e = .negativeAddress x) ∨
        (0 ≤ x ∧ (c.addrLimit : Int) ≤ x ∧ e = .addressOutOfRange x) := by
  unfold chkA
  split_ifs with h1 h2
  · have h : ¬ 0 ≤ x := by omega
    simp [h1, h, eq_comm]
  · have h : 0 ≤ x := by omega
    simp [h1, h2, h, eq_comm]
  · simp [h1, h2]

/-- A natural number passes `chkA` unchanged when it is below the limit. -/
theorem chkA_natCast {c : Config} {n : Nat} (h : n < c.addrLimit) : chkA c (n : Int) = .ok n :=
  chkA_eq_ok.2 ⟨by omega, by exact_mod_cast h, by simp⟩

theorem chkA_natCast_error {c : Config} {n : Nat} (h : c.addrLimit ≤ n) :
    chkA c (n : Int) = .error (.addressOutOfRange n) :=
  chkA_eq_error.2 (.inr ⟨by omega, by exact_mod_cast h, rfl⟩)

theorem chkW_eq_ok {c : Config} {x : Int} {r : Int} :
    chkW c x = .ok r ↔ isWord c x = true ∧ r = x := by
  unfold chkW
  split
  · next h => simp [h, eq_comm]
  · next h => simp [h]

theorem chkW_eq_error {c : Config} {x : Int} {e : Raised} :
    chkW c x = .error e ↔ isWord c x = false ∧ e = .arithmeticOverflow x := by
  unfold chkW
  split
  · next h => simp [h]
  · next h => simp [h, eq_comm]

theorem isWord_unbounded {c : Config} (h : c.wordModel = .unbounded) (x : Int) :
    isWord c x = true := by simp [isWord, h]

/-- 0 and 1 are words under both word models. -/
theorem isWord_zero (c : Config) : isWord c 0 = true := by
  unfold isWord
  cases c.wordModel <;> decide

theorem isWord_one (c : Config) : isWord c 1 = true := by
  unfold isWord
  cases c.wordModel <;> decide

/-! ### Fetch -/

theorem fetch_eq_ok {s : State} {w : Int} :
    fetch s = .ok w ↔ s.ip < s.cfg.addrLimit ∧ w = s.cell s.ip := by
  unfold fetch
  rcases Nat.lt_or_ge s.ip s.cfg.addrLimit with h | h
  · simp [chkA_natCast h, h, eq_comm]
  · simp [chkA_natCast_error h, h]

theorem fetch_eq_error {s : State} {e : Raised} :
    fetch s = .error e ↔ s.cfg.addrLimit ≤ s.ip ∧ e = .addressOutOfRange s.ip := by
  unfold fetch
  rcases Nat.lt_or_ge s.ip s.cfg.addrLimit with h | h
  · simp [chkA_natCast h, h]
  · simp [chkA_natCast_error h, h, eq_comm]

/-- What is decoded was fetched from a valid address. -/
theorem fetchDecode_eq_ok {s : State} {i : Instr} :
    fetchDecode s = .ok i ↔
      s.ip < s.cfg.addrLimit ∧ decode s.cfg.strictModeDigits (s.cell s.ip) = .ok i := by
  unfold fetchDecode
  cases hf : fetch s with
  | error e =>
    have := (fetch_eq_error.1 hf).1
    simp
    omega
  | ok w =>
    obtain ⟨h, rfl⟩ := fetch_eq_ok.1 hf
    simp [h]

/-! ### Fault entry (spec 60_exceptions.md R163): one lemma per field -/

@[simp] theorem faultEntry_runState (e : Raised) (s : State) :
    (faultEntry e s).runState = .faulted := by unfold faultEntry; split <;> rfl
@[simp] theorem faultEntry_faultCause (e : Raised) (s : State) :
    (faultEntry e s).faultCause = some e.cause := by unfold faultEntry; split <;> rfl
@[simp] theorem faultEntry_faultIp (e : Raised) (s : State) :
    (faultEntry e s).faultIp = s.ip := by unfold faultEntry; split <;> rfl
@[simp] theorem faultEntry_outClosed (e : Raised) (s : State) :
    (faultEntry e s).outClosed = true := by unfold faultEntry; split <;> rfl
@[simp] theorem faultEntry_cfg (e : Raised) (s : State) :
    (faultEntry e s).cfg = s.cfg := by unfold faultEntry; split <;> rfl
@[simp] theorem faultEntry_mem (e : Raised) (s : State) :
    (faultEntry e s).mem = s.mem := by unfold faultEntry; split <;> rfl
@[simp] theorem faultEntry_ip (e : Raised) (s : State) :
    (faultEntry e s).ip = s.ip := by unfold faultEntry; split <;> rfl
@[simp] theorem faultEntry_rb (e : Raised) (s : State) :
    (faultEntry e s).rb = s.rb := by unfold faultEntry; split <;> rfl
@[simp] theorem faultEntry_started (e : Raised) (s : State) :
    (faultEntry e s).started = s.started := by unfold faultEntry; split <;> rfl
@[simp] theorem faultEntry_inQ (e : Raised) (s : State) :
    (faultEntry e s).inQ = s.inQ := by unfold faultEntry; split <;> rfl
@[simp] theorem faultEntry_inClosed (e : Raised) (s : State) :
    (faultEntry e s).inClosed = s.inClosed := by unfold faultEntry; split <;> rfl
@[simp] theorem faultEntry_outQ (e : Raised) (s : State) :
    (faultEntry e s).outQ = s.outQ := by unfold faultEntry; split <;> rfl
@[simp] theorem faultEntry_outDropped (e : Raised) (s : State) :
    (faultEntry e s).outDropped = s.outDropped := by unfold faultEntry; split <;> rfl

theorem faultEntry_faultWord {e : Raised} {s : State} (h : s.ip < s.cfg.addrLimit) :
    (faultEntry e s).faultWord = s.cell s.ip := by
  unfold faultEntry
  rw [fetch_eq_ok.2 ⟨h, rfl⟩]

theorem faultEntry_freeCount {e : Raised} {s : State} (h : s.ip < s.cfg.addrLimit) :
    (faultEntry e s).freeCount = s.freeCount := by
  unfold faultEntry
  rw [fetch_eq_ok.2 ⟨h, rfl⟩]

/-! ### Commit and step enabling -/

@[simp] theorem commit_ok (s t : State) : commit s (.ok t) = .next t := rfl
@[simp] theorem commit_error (s : State) (e : Raised) :
    commit s (.error e) = .next (faultEntry e s) := rfl

/-- A commit always answers a next state: the effects, or the entry of the fault raised. -/
theorem commit_eq_next {s t : State} {r : Except Raised State} :
    commit s r = .next t ↔ r = .ok t ∨ ∃ e, r = .error e ∧ t = faultEntry e s := by
  cases r <;> simp [eq_comm]

/-- When a machine has an enabled step (spec 40_execution.md R89). -/
theorem noStep_eq_none {s : State} :
    noStep s = none ↔ s.started = true ∧
      (s.runState = .running ∨
        s.runState = .waitingOnInput ∧ (s.inQ ≠ [] ∨ s.inClosed = true)) := by
  unfold noStep
  cases s.started <;> cases s.runState <;> simp
  tauto

end Sys2Proof.Machine
end

