-- ==== Sys2Proof/Laws/Operands.lean ====
section
/-! SUPPORT. Operand words and the equations of operand resolution, mode by mode. -/

namespace Sys2Proof.Machine

theorem operandWord_eq_ok {s : State} {k : Nat} {raw : Int} :
    operandWord s k = .ok raw ↔ s.ip + k < s.cfg.addrLimit ∧ raw = s.cell (s.ip + k) := by
  unfold operandWord
  rcases Nat.lt_or_ge (s.ip + k) s.cfg.addrLimit with h | h
  · rw [chkA_natCast h]
    simp [bind, Except.bind, pure, Except.pure, h, eq_comm]
  · rw [chkA_natCast_error h]
    simp [bind, Except.bind, h]

theorem operandWord_eq_error {s : State} {k : Nat} {e : Raised} :
    operandWord s k = .error e ↔
      s.cfg.addrLimit ≤ s.ip + k ∧ e = .addressOutOfRange ((s.ip + k : Nat) : Int) := by
  unfold operandWord
  rcases Nat.lt_or_ge (s.ip + k) s.cfg.addrLimit with h | h
  · rw [chkA_natCast h]
    simp [bind, Except.bind, pure, Except.pure, h]
  · rw [chkA_natCast_error h]
    simp [bind, Except.bind, h, eq_comm]

/-- The effective address of a Relative operand, when it has one. -/
theorem relativeAddr_eq_ok {s : State} {raw : Int} {a : Nat} :
    relativeAddr s raw = .ok a ↔ isWord s.cfg (s.rb + raw) = true ∧
      0 ≤ s.rb + raw ∧ s.rb + raw < s.cfg.addrLimit ∧ a = (s.rb + raw).toNat := by
  unfold relativeAddr
  cases h : chkW s.cfg (s.rb + raw) with
  | error e =>
    have := (chkW_eq_error.1 h).1
    simp [bind, Except.bind, this]
  | ok x =>
    obtain ⟨h1, rfl⟩ := chkW_eq_ok.1 h
    simp [bind, Except.bind, h1, chkA_eq_ok]

theorem rdOp_of_error {s : State} {k : Nat} {m : Mode} {e : Raised}
    (h : operandWord s k = .error e) : rdOp s k m = .error e := by
  simp [rdOp, h, bind, Except.bind]

theorem rdOp_immediate {s : State} {k : Nat} {raw : Int} (h : operandWord s k = .ok raw) :
    rdOp s k .immediate = .ok raw := by
  simp [rdOp, h, bind, Except.bind, pure, Except.pure]

theorem rdOp_position {s : State} {k : Nat} {raw : Int} (h : operandWord s k = .ok raw) :
    rdOp s k .position = (chkA s.cfg raw).map s.cell := by
  simp [rdOp, h, bind, Except.bind, pure, Except.pure]
  cases chkA s.cfg raw <;> rfl

theorem rdOp_relative {s : State} {k : Nat} {raw : Int} (h : operandWord s k = .ok raw) :
    rdOp s k .relative = (relativeAddr s raw).map s.cell := by
  simp [rdOp, h, bind, Except.bind, pure, Except.pure]
  cases relativeAddr s raw <;> rfl

theorem wrAddr_of_error {s : State} {k : Nat} {m : Mode} {e : Raised}
    (h : operandWord s k = .error e) : wrAddr s k m = .error e := by
  simp [wrAddr, h, bind, Except.bind]

theorem wrAddr_immediate {s : State} {k : Nat} {raw : Int} (h : operandWord s k = .ok raw) :
    wrAddr s k .immediate = .error (.invalidWriteTarget raw) := by
  simp [wrAddr, h, bind, Except.bind, throw, throwThe, MonadExceptOf.throw]

theorem wrAddr_position {s : State} {k : Nat} {raw : Int} (h : operandWord s k = .ok raw) :
    wrAddr s k .position = chkA s.cfg raw := by
  simp [wrAddr, h, bind, Except.bind]

theorem wrAddr_relative {s : State} {k : Nat} {raw : Int} (h : operandWord s k = .ok raw) :
    wrAddr s k .relative = relativeAddr s raw := by
  simp [wrAddr, h, bind, Except.bind]

end Sys2Proof.Machine
end

