-- ==== Sys2Proof/Laws/Faults.lean ====
section
/-! SUPPORT. Which faults a running machine can raise at all: never ParseError, and ArithmeticOverflow
only with 64-bit words (spec 60_exceptions.md R160). Said for every check and operation. -/

namespace Sys2Proof.Machine

/-- What every raise of a running machine meets. -/
def MachineRaise (c : Config) (e : Raised) : Prop :=
  e.cause ≠ .parseError ∧ (e.cause = .arithmeticOverflow → c.wordModel = .int64)

/-- In the `Except` monad of the meanings: a bind succeeds when both parts do. -/
theorem bind_eq_ok {α β : Type} {x : Except Raised α} {f : α → Except Raised β} {b : β} :
    (x >>= f) = .ok b ↔ ∃ a, x = .ok a ∧ f a = .ok b := by
  cases x <;> simp [bind, Except.bind]

/-- A bind raises what the first failing part raises. -/
theorem bind_eq_error {α β : Type} {x : Except Raised α} {f : α → Except Raised β} {e : Raised} :
    (x >>= f) = .error e ↔ x = .error e ∨ ∃ a, x = .ok a ∧ f a = .error e := by
  cases x <;> simp [bind, Except.bind]

@[simp] theorem ok_bind {α β : Type} (a : α) (f : α → Except Raised β) :
    ((Except.ok a : Except Raised α) >>= f) = f a := rfl

@[simp] theorem error_bind {α β : Type} (e : Raised) (f : α → Except Raised β) :
    ((Except.error e : Except Raised α) >>= f) = .error e := rfl

@[simp] theorem pure_eq_ok {α : Type} (a : α) : (pure a : Except Raised α) = .ok a := rfl

@[simp] theorem throw_eq_error {α : Type} (e : Raised) : (throw e : Except Raised α) = .error e := rfl

/-- `x` raises only what a running machine may raise. -/
def RaisesOnly {α : Type} (c : Config) (x : Except Raised α) : Prop :=
  ∀ e, x = .error e → MachineRaise c e

theorem raisesOnly_ok {α : Type} (c : Config) (a : α) : RaisesOnly c (.ok a) := by
  intro e h
  cases h

theorem raisesOnly_bind {α β : Type} {c : Config} {x : Except Raised α} {f : α → Except Raised β}
    (hx : RaisesOnly c x) (hf : ∀ a, RaisesOnly c (f a)) : RaisesOnly c (x >>= f) := by
  intro e h
  rcases bind_eq_error.1 h with h | ⟨a, -, h⟩
  · exact hx e h
  · exact hf a e h

theorem raisesOnly_ite {α : Type} {c : Config} {p : Prop} [Decidable p] {x y : Except Raised α}
    (hx : RaisesOnly c x) (hy : RaisesOnly c y) : RaisesOnly c (if p then x else y) := by
  split
  · exact hx
  · exact hy

theorem isWord_eq_false {c : Config} {x : Int} (h : isWord c x = false) : c.wordModel = .int64 := by
  unfold isWord at h
  cases hc : c.wordModel <;> simp [hc] at h ⊢

theorem chkA_raisesOnly (c : Config) (x : Int) : RaisesOnly c (chkA c x) := by
  intro e h
  rcases chkA_eq_error.1 h with ⟨-, rfl⟩ | ⟨-, -, rfl⟩ <;> simp [MachineRaise, Raised.cause]

theorem chkW_raisesOnly (c : Config) (x : Int) : RaisesOnly c (chkW c x) := by
  intro e h
  obtain ⟨h', rfl⟩ := chkW_eq_error.1 h
  simp [MachineRaise, Raised.cause, isWord_eq_false h']

theorem operandWord_raisesOnly (s : State) (k : Nat) : RaisesOnly s.cfg (operandWord s k) := by
  intro e h
  obtain ⟨-, rfl⟩ := operandWord_eq_error.1 h
  simp [MachineRaise, Raised.cause]

theorem relativeAddr_raisesOnly (s : State) (raw : Int) :
    RaisesOnly s.cfg (relativeAddr s raw) :=
  raisesOnly_bind (chkW_raisesOnly _ _) fun _ => chkA_raisesOnly _ _

theorem rdOp_raisesOnly (s : State) (k : Nat) (m : Mode) : RaisesOnly s.cfg (rdOp s k m) := by
  refine raisesOnly_bind (operandWord_raisesOnly s k) fun raw => ?_
  cases m
  · exact raisesOnly_bind (chkA_raisesOnly _ _) fun _ => raisesOnly_ok _ _
  · exact raisesOnly_ok _ _
  · exact raisesOnly_bind (relativeAddr_raisesOnly _ _) fun _ => raisesOnly_ok _ _

theorem wrAddr_raisesOnly (s : State) (k : Nat) (m : Mode) : RaisesOnly s.cfg (wrAddr s k m) := by
  refine raisesOnly_bind (operandWord_raisesOnly s k) fun raw => ?_
  cases m
  · exact chkA_raisesOnly _ _
  · intro e h
    cases h
    simp [MachineRaise, Raised.cause]
  · exact relativeAddr_raisesOnly _ _

theorem takeModes_eq_error {w : Int} {n rest : Nat} {e : Raised}
    (h : takeModes w n rest = .error e) : e = .invalidAddressingMode w := by
  induction n generalizing rest with
  | zero => cases h
  | succ n ih =>
    unfold takeModes at h
    split at h
    · cases h
      rfl
    · split at h
      · next h' =>
        cases h
        exact ih h'
      · cases h

/-- The decoder raises UnknownOpcode or InvalidAddressingMode of the word, nothing else. -/
theorem decode_eq_error {strict : Bool} {w : Int} {e : Raised} (h : decode strict w = .error e) :
    e = .unknownOpcode w ∨ e = .invalidAddressingMode w := by
  unfold decode at h
  simp only at h
  split at h
  · cases h
    exact .inl rfl
  split at h
  · cases h
    exact .inl rfl
  split at h
  · next h' =>
    cases h
    exact .inr (takeModes_eq_error h')
  split at h
  · cases h
    exact .inr rfl
  split at h
  · cases h
  · cases h
    exact .inl rfl

theorem fetchDecode_raisesOnly (s : State) : RaisesOnly s.cfg (fetchDecode s) := by
  intro e h
  unfold fetchDecode at h
  split at h
  · next h' =>
    cases h
    obtain ⟨-, rfl⟩ := fetch_eq_error.1 h'
    simp [MachineRaise, Raised.cause]
  · rcases decode_eq_error h with rfl | rfl <;> simp [MachineRaise, Raised.cause]

end Sys2Proof.Machine
end

