-- ==== Sys2Proof/Laws/Exec.lean ====
section
/-! SUPPORT. What each instruction and a step can do: an equation for the case that every check passes,
and an inversion lemma that says everything a next state can be. -/

namespace Sys2Proof.Machine

/-! ### The shared shapes -/

theorem execArith_cases {op : Int → Int → Int} {m1 m2 m3 : Mode} {s t : State}
    (h : execArith op m1 m2 m3 s = .next t) :
    (∃ e, MachineRaise s.cfg e ∧ t = faultEntry e s) ∨
      ∃ a b d, rdOp s 1 m1 = .ok a ∧ rdOp s 2 m2 = .ok b ∧ wrAddr s 3 m3 = .ok d ∧
        isWord s.cfg (op a b) = true ∧ t = (s.store d (op a b)).advance 4 := by
  rcases commit_eq_next.1 h with h | ⟨e, he, rfl⟩
  · obtain ⟨a, ha, h⟩ := bind_eq_ok.1 h
    obtain ⟨b, hb, h⟩ := bind_eq_ok.1 h
    obtain ⟨d, hd, h⟩ := bind_eq_ok.1 h
    obtain ⟨r, hr, h⟩ := bind_eq_ok.1 h
    obtain ⟨hw, rfl⟩ := chkW_eq_ok.1 hr
    cases h
    exact .inr ⟨a, b, d, ha, hb, hd, hw, rfl⟩
  · exact .inl ⟨e, (raisesOnly_bind (rdOp_raisesOnly _ _ _) fun _ =>
      raisesOnly_bind (rdOp_raisesOnly _ _ _) fun _ => raisesOnly_bind (wrAddr_raisesOnly _ _ _) fun _ =>
      raisesOnly_bind (chkW_raisesOnly _ _) fun _ => raisesOnly_ok _ _) e he, rfl⟩

theorem execArith_of_ok {op : Int → Int → Int} {m1 m2 m3 : Mode} {s : State} {a b : Int} {d : Nat}
    (ha : rdOp s 1 m1 = .ok a) (hb : rdOp s 2 m2 = .ok b) (hd : wrAddr s 3 m3 = .ok d)
    (hw : isWord s.cfg (op a b) = true) :
    execArith op m1 m2 m3 s = .next ((s.store d (op a b)).advance 4) := by
  simp [execArith, ha, hb, hd, chkW_eq_ok.2 ⟨hw, rfl⟩]

theorem execCompare_cases {f : Int → Int → Int} {m1 m2 m3 : Mode} {s t : State}
    (h : execCompare f m1 m2 m3 s = .next t) :
    (∃ e, MachineRaise s.cfg e ∧ t = faultEntry e s) ∨
      ∃ a b d, rdOp s 1 m1 = .ok a ∧ rdOp s 2 m2 = .ok b ∧ wrAddr s 3 m3 = .ok d ∧
        t = (s.store d (f a b)).advance 4 := by
  rcases commit_eq_next.1 h with h | ⟨e, he, rfl⟩
  · obtain ⟨a, ha, h⟩ := bind_eq_ok.1 h
    obtain ⟨b, hb, h⟩ := bind_eq_ok.1 h
    obtain ⟨d, hd, h⟩ := bind_eq_ok.1 h
    cases h
    exact .inr ⟨a, b, d, ha, hb, hd, rfl⟩
  · exact .inl ⟨e, (raisesOnly_bind (rdOp_raisesOnly _ _ _) fun _ =>
      raisesOnly_bind (rdOp_raisesOnly _ _ _) fun _ => raisesOnly_bind (wrAddr_raisesOnly _ _ _) fun _ =>
      raisesOnly_ok _ _) e he, rfl⟩

theorem execCompare_of_ok {f : Int → Int → Int} {m1 m2 m3 : Mode} {s : State} {a b : Int}
    {d : Nat} (ha : rdOp s 1 m1 = .ok a) (hb : rdOp s 2 m2 = .ok b) (hd : wrAddr s 3 m3 = .ok d) :
    execCompare f m1 m2 m3 s = .next ((s.store d (f a b)).advance 4) := by
  simp [execCompare, ha, hb, hd]

theorem execJump_cases {p : Int → Bool} {m1 m2 : Mode} {s t : State}
    (h : execJump p m1 m2 s = .next t) :
    (∃ e, MachineRaise s.cfg e ∧ t = faultEntry e s) ∨
      ∃ a b, rdOp s 1 m1 = .ok a ∧ rdOp s 2 m2 = .ok b ∧
        ((p a = true ∧ ∃ x, chkA s.cfg b = .ok x ∧ t = s.jump x) ∨
          (p a = false ∧ t = s.advance 3)) := by
  rcases commit_eq_next.1 h with h | ⟨e, he, rfl⟩
  · obtain ⟨a, ha, h⟩ := bind_eq_ok.1 h
    obtain ⟨b, hb, h⟩ := bind_eq_ok.1 h
    refine .inr ⟨a, b, ha, hb, ?_⟩
    split at h
    · next hp =>
      obtain ⟨x, hx, h⟩ := bind_eq_ok.1 h
      cases h
      exact .inl ⟨hp, x, hx, rfl⟩
    · next hp =>
      cases h
      exact .inr ⟨by simpa using hp, rfl⟩
  · exact .inl ⟨e, (raisesOnly_bind (rdOp_raisesOnly _ _ _) fun _ =>
      raisesOnly_bind (rdOp_raisesOnly _ _ _) fun _ =>
      raisesOnly_ite (raisesOnly_bind (chkA_raisesOnly _ _) fun _ => raisesOnly_ok _ _)
        (raisesOnly_ok _ _)) e he, rfl⟩

theorem execInp_cases {m1 : Mode} {s t : State} (h : execInp m1 s = .next t) :
    (∃ e, MachineRaise s.cfg e ∧ t = faultEntry e s) ∨
      ∃ d, wrAddr s 1 m1 = .ok d ∧
        ((s.inQ = [] ∧ s.inClosed = false ∧ t = s.setRun .waitingOnInput) ∨
          ∃ v rest, s.inQ = v :: rest ∧
            t = (((s.popInput rest).store d v).setRun .running).advance 2) := by
  rcases commit_eq_next.1 h with h | ⟨e, he, rfl⟩
  · obtain ⟨d, hd, h⟩ := bind_eq_ok.1 h
    refine .inr ⟨d, hd, ?_⟩
    split at h
    · next hq =>
      split at h
      · cases h
      · next hc =>
        cases h
        exact .inl ⟨hq, by simpa using hc, rfl⟩
    · next v rest hq =>
      cases h
      exact .inr ⟨v, rest, hq, rfl⟩
  · refine .inl ⟨e, ?_, rfl⟩
    rcases bind_eq_error.1 he with he | ⟨d, -, he⟩
    · exact wrAddr_raisesOnly _ _ _ e he
    · split at he
      · split at he
        · cases he
          simp [MachineRaise, Raised.cause]
        · cases he
      · cases he

theorem execOut_cases {m1 : Mode} {s t : State} (h : execOut m1 s = .next t) :
    (∃ e, MachineRaise s.cfg e ∧ t = faultEntry e s) ∨
      ∃ v, rdOp s 1 m1 = .ok v ∧ s.outDropped = false ∧ t = (s.pushOutput v).advance 2 := by
  rcases commit_eq_next.1 h with h | ⟨e, he, rfl⟩
  · obtain ⟨v, hv, h⟩ := bind_eq_ok.1 h
    refine .inr ⟨v, hv, ?_⟩
    split at h
    · cases h
    · next hc =>
      cases h
      exact ⟨by simpa using hc, rfl⟩
  · refine .inl ⟨e, ?_, rfl⟩
    rcases bind_eq_error.1 he with he | ⟨v, -, he⟩
    · exact rdOp_raisesOnly _ _ _ e he
    · split at he
      · cases he
        simp [MachineRaise, Raised.cause]
      · cases he

theorem execArb_cases {m1 : Mode} {s t : State} (h : execArb m1 s = .next t) :
    (∃ e, MachineRaise s.cfg e ∧ t = faultEntry e s) ∨
      ∃ a, rdOp s 1 m1 = .ok a ∧ isWord s.cfg (s.rb + a) = true ∧
        t = (s.setRb (s.rb + a)).advance 2 := by
  rcases commit_eq_next.1 h with h | ⟨e, he, rfl⟩
  · obtain ⟨a, ha, h⟩ := bind_eq_ok.1 h
    obtain ⟨r, hr, h⟩ := bind_eq_ok.1 h
    obtain ⟨hw, rfl⟩ := chkW_eq_ok.1 hr
    cases h
    exact .inr ⟨a, ha, hw, rfl⟩
  · exact .inl ⟨e, (raisesOnly_bind (rdOp_raisesOnly _ _ _) fun _ =>
      raisesOnly_bind (chkW_raisesOnly _ _) fun _ => raisesOnly_ok _ _) e he, rfl⟩

theorem execHalt_eq (s : State) : execHalt s = .next s.enterHalted := rfl

/-! ### The step -/

/-- Every meaning is a commit: it answers a next state and nothing else. -/
theorem exec_is_commit (i : Instr) (s : State) : ∃ r, exec i s = commit s r := by
  cases i
  case halt => exact ⟨.ok s.enterHalted, rfl⟩
  all_goals exact ⟨_, rfl⟩

/-- Everything a step that answers a next state can do. -/
theorem step_cases {s t : State} (h : step s = .next t) :
    noStep s = none ∧
      ((∃ e, fetchDecode s = .error e ∧ t = faultEntry e s) ∨
        ∃ i, fetchDecode s = .ok i ∧ exec i s = .next t) := by
  unfold step at h
  split at h
  · cases h
  · next hn =>
    refine ⟨hn, ?_⟩
    split at h
    · next e he =>
      cases h
      exact .inl ⟨e, he, rfl⟩
    · next i hi => exact .inr ⟨i, hi, h⟩

end Sys2Proof.Machine
end

