-- ==== Sys2Proof/Laws/Handle.lean ====
section
/-! SUPPORT. What the host's operations on one machine can do, said once each (60_exceptions.md R171 to
R176; 70_reset_and_hazards.md R190). -/

namespace Sys2Proof.Machine

/-- A push that completes: the input was open, the value is a word, and it stands at the tail. -/
theorem push_cases {s t : State} {v : Int} {r : Reply} (h : s.push v = .done t r) :
    s.inClosed = false ∧ isWord s.cfg v = true ∧ t = s.feed [v] := by
  unfold State.push at h
  split at h
  · cases h
  · next hc =>
    cases h
    simpa using hc

/-- A push of a word to an open input completes. -/
theorem push_of_word {s : State} {v : Int} (ho : s.inClosed = false) (hw : isWord s.cfg v = true) :
    ∃ r, s.push v = .done (s.feed [v]) r := by
  simp [State.push, ho, hw]

/-- A start that completes: the machine had not been started, and the host gets the join primitive. -/
theorem start_cases {s t : State} {r : Reply} (h : s.start = .done t r) :
    s.started = false ∧ t = { s with started := true } ∧ r = .joinPrimitive := by
  unfold State.start at h
  split at h
  · cases h
  · next hs =>
    cases h
    exact ⟨by simpa using hs, rfl, rfl⟩

/-- A pop that completes: the head taken, or the end of the stream and nothing changed. -/
theorem pop_cases {s t : State} {r : Reply} (h : s.pop = .done t r) :
    s.outDropped = false ∧
      ((∃ v rest, s.outQ = v :: rest ∧ t = { s with outQ := rest } ∧ r = .word v) ∨
        (s.outQ = [] ∧ s.outClosed = true ∧ t = s ∧ r = .endOfStream)) := by
  unfold State.pop at h
  split at h
  · cases h
  · next hd =>
    refine ⟨by simpa using hd, ?_⟩
    split at h
    · next v rest hq =>
      cases h
      exact .inl ⟨v, rest, hq, rfl, rfl⟩
    · next hq =>
      split at h
      · next hc =>
        cases h
        exact .inr ⟨hq, hc, rfl, rfl⟩
      · cases h

/-- A join that returns: the machine has terminated and is unchanged. -/
theorem join_cases {s t : State} {r : Reply} (h : s.join = .done t r) :
    s.terminated = true ∧ t = s ∧ ∃ j, r = .joined j := by
  unfold State.join at h
  unfold State.terminated
  cases hr : s.runState <;> rw [hr] at h <;> cases h <;> exact ⟨rfl, rfl, _, rfl⟩

/-- The join of a machine that has terminated returns. -/
theorem join_of_terminated {s : State} (h : s.terminated = true) :
    ∃ j, s.join = .done s (.joined j) := by
  unfold State.terminated at h
  unfold State.join
  cases hr : s.runState <;> simp_all

/-- An inspection that completes: of a machine that has terminated, at a valid address, which changes
nothing. -/
theorem peek_cases {s t : State} {a : Nat} {r : Reply} (h : s.peek a = .done t r) :
    s.terminated = true ∧ a < s.cfg.addrLimit ∧ t = s ∧ r = .word (s.cell a) := by
  unfold State.peek at h
  split at h
  · next hp =>
    cases h
    exact ⟨hp.1, hp.2, rfl, rfl⟩
  · cases h

/-- A construction that yields a machine: the overrides are words, the text parses, the image fits, the
overrides' addresses are valid, and every other element is at its reset value. -/
theorem construct_cases {c : Config} {text : List Char} {ov : List (Int × Int)} {s : State}
    (h : construct c text ov = .machine s) :
    (∀ p ∈ ov, isWord c p.2 = true) ∧
      ∃ xs image m, parseText c text = .ok xs ∧ loadImage c xs = .ok image ∧
        applyOverrides c ov image = .ok m ∧ s = State.fresh c m := by
  unfold construct at h
  split at h
  · next hw =>
    refine ⟨by simpa using hw, ?_⟩
    unfold build at h
    cases hx : parseText c text with
    | error e => rw [hx] at h; cases h
    | ok xs =>
      cases hi : loadImage c xs with
      | error e => rw [hx] at h; simp [hi, bind, Except.bind] at h
      | ok image =>
        cases hm : applyOverrides c ov image with
        | error e => rw [hx] at h; simp [hi, hm, bind, Except.bind] at h
        | ok m =>
          rw [hx] at h
          simp only [hi, hm, bind, Except.bind, pure, Except.pure] at h
          cases h
          exact ⟨xs, image, m, rfl, hi, hm, rfl⟩
  · cases h

end Sys2Proof.Machine
end

