-- ==== Sys2Proof/Laws/Memory.lean ====
section
/-! SUPPORT. The laws of memory: read after write, and that every memory operation keeps the canonical
form (spec 20_memory.md R42, R43). -/

namespace Sys2Proof.Machine

/-- Every listed address is at least `a`. -/
def Memory.above (a : Nat) (m : Memory) : Prop := ∀ p ∈ m, a ≤ p.1

theorem Memory.wf_nil : Memory.wf [] := ⟨List.Pairwise.nil, by simp⟩

theorem Memory.wf_cons {b : Nat} {u : Int} {m : Memory} :
    Memory.wf ((b, u) :: m) ↔ (∀ p ∈ m, b < p.1) ∧ u ≠ 0 ∧ Memory.wf m := by
  simp only [Memory.wf, List.pairwise_cons, List.forall_mem_cons]
  tauto

@[simp] theorem Memory.read_nil (a : Nat) : Memory.read [] a = 0 := rfl

theorem Memory.read_cons (b : Nat) (u : Int) (m : Memory) (a : Nat) :
    Memory.read ((b, u) :: m) a = if a = b then u else Memory.read m a := rfl

/-- An address below every listed one reads as an unlisted address. -/
theorem Memory.read_of_lt {m : Memory} {a : Nat} (h : ∀ p ∈ m, a < p.1) : m.read a = 0 := by
  induction m with
  | nil => rfl
  | cons p m ih =>
    obtain ⟨b, u⟩ := p
    have hb : a < b := h (b, u) (by simp)
    rw [Memory.read_cons, if_neg (by omega)]
    exact ih fun q hq => h q (by simp [hq])

/-- A cell reads as 0 or as some listed value. -/
theorem Memory.read_mem_or_zero (m : Memory) (a : Nat) :
    m.read a = 0 ∨ (a, m.read a) ∈ m := by
  induction m with
  | nil => exact .inl rfl
  | cons p m ih =>
    obtain ⟨b, u⟩ := p
    rw [Memory.read_cons]
    split
    · next h => subst h; simp
    · exact ih.imp id fun h => by simp [h]

/-- What a write leaves listed: cells that were listed, and the cell written. -/
theorem Memory.mem_write {m : Memory} {a : Nat} {v : Int} {p : Cell} (h : p ∈ m.write a v) :
    p ∈ m ∨ (p = (a, v) ∧ v ≠ 0) := by
  induction m with
  | nil =>
    simp only [Memory.write] at h
    split at h
    · simp at h
    · next hv => exact .inr ⟨by simpa using h, hv⟩
  | cons q m ih =>
    obtain ⟨b, u⟩ := q
    simp only [Memory.write] at h
    split_ifs at h with h1 h2 h3 h4
    · exact .inl h
    · rcases List.mem_cons.1 h with h | h
      · exact .inr ⟨h, h2⟩
      · exact .inl h
    · exact .inl (by simp [h])
    · rcases List.mem_cons.1 h with h | h
      · exact .inr ⟨h, h4⟩
      · exact .inl (by simp [h])
    · rcases List.mem_cons.1 h with h | h
      · exact .inl (by simp [h])
      · exact (ih h).imp (fun h => by simp [h]) id

/-- A write keeps the canonical form. -/
theorem Memory.write_wf {m : Memory} (h : m.wf) (a : Nat) (v : Int) : (m.write a v).wf := by
  induction m with
  | nil =>
    simp only [Memory.write]
    split
    · exact Memory.wf_nil
    · next hv => exact Memory.wf_cons.2 ⟨by simp, hv, Memory.wf_nil⟩
  | cons p m ih =>
    obtain ⟨b, u⟩ := p
    obtain ⟨hb, hu, hm⟩ := Memory.wf_cons.1 h
    simp only [Memory.write]
    split_ifs with h1 h2 h3 h4
    · exact h
    · refine Memory.wf_cons.2 ⟨fun p hp => ?_, h2, h⟩
      rcases List.mem_cons.1 hp with rfl | hp
      · exact h1
      · exact h1.trans (hb p hp)
    · exact hm
    · exact Memory.wf_cons.2 ⟨fun p hp => h3 ▸ hb p hp, h4, hm⟩
    · refine Memory.wf_cons.2 ⟨fun p hp => ?_, hu, ih hm⟩
      rcases Memory.mem_write hp with hp | ⟨rfl, -⟩
      · exact hb p hp
      · exact lt_of_le_of_ne (Nat.le_of_not_lt h1) (Ne.symm h3)

/-- Read after write: the written cell has the new value and every other cell its old one (R43). -/
theorem Memory.read_write {m : Memory} (h : m.wf) (a : Nat) (v : Int) (x : Nat) :
    (m.write a v).read x = if x = a then v else m.read x := by
  induction m with
  | nil =>
    simp only [Memory.write]
    split
    · next hv => split <;> simp [hv]
    · rfl
  | cons p m ih =>
    obtain ⟨b, u⟩ := p
    obtain ⟨hb, -, hm⟩ := Memory.wf_cons.1 h
    simp only [Memory.write]
    split_ifs with h1 h2 h3 h4 h5 h6 h7 h8 h9
    · subst h3
      rw [h2, Memory.read_of_lt]
      intro p hp
      rcases List.mem_cons.1 hp with rfl | hp
      · exact h1
      · exact h1.trans (hb p hp)
    · rfl
    · simp [Memory.read_cons, h4]
    · simp [Memory.read_cons, h4]
    · subst h5 h7
      rw [h6]
      exact Memory.read_of_lt hb
    · subst h5
      simp [Memory.read_cons, h7]
    · simp [Memory.read_cons, h8]
    · subst h5
      simp [Memory.read_cons, h8]
    · subst h9
      rw [Memory.read_cons, if_neg h5, ih hm, if_pos rfl]
    · rw [Memory.read_cons, Memory.read_cons, ih hm, if_neg h9]

theorem Memory.read_write_self {m : Memory} (h : m.wf) (a : Nat) (v : Int) :
    (m.write a v).read a = v := by rw [Memory.read_write h, if_pos rfl]

theorem Memory.read_write_ne {m : Memory} (h : m.wf) {a x : Nat} (v : Int) (hx : x ≠ a) :
    (m.write a v).read x = m.read x := by rw [Memory.read_write h, if_neg hx]

/-- A property of 0 and of every listed value is a property of everything read. -/
theorem Memory.read_satisfies {P : Int → Prop} {m : Memory} (h0 : P 0) (h : ∀ p ∈ m, P p.2)
    (a : Nat) : P (m.read a) := by
  rcases m.read_mem_or_zero a with h' | h'
  · rw [h']
    exact h0
  · exact h _ h'

/-- The loaded image lists no address below its start. -/
theorem imageFrom_above (a : Nat) (xs : List Int) : Memory.above a (imageFrom a xs) := by
  induction xs generalizing a with
  | nil => simp [imageFrom, Memory.above]
  | cons x xs ih =>
    intro p hp
    simp only [imageFrom] at hp
    split at hp
    · exact Nat.le_of_succ_le (ih (a + 1) p hp)
    · rcases List.mem_cons.1 hp with rfl | hp
      · exact Nat.le_refl a
      · exact Nat.le_of_succ_le (ih (a + 1) p hp)

/-- The loaded image lists no address at or beyond its end. -/
theorem imageFrom_below (a : Nat) (xs : List Int) : ∀ p ∈ imageFrom a xs, p.1 < a + xs.length := by
  induction xs generalizing a with
  | nil => simp [imageFrom]
  | cons x xs ih =>
    intro p hp
    simp only [imageFrom] at hp
    rw [List.length_cons]
    split at hp
    · have := ih (a + 1) p hp
      omega
    · rcases List.mem_cons.1 hp with rfl | hp
      · change a < a + (xs.length + 1)
        omega
      · have := ih (a + 1) p hp
        omega

/-- The loaded image is in canonical form. -/
theorem imageFrom_wf (a : Nat) (xs : List Int) : (imageFrom a xs).wf := by
  induction xs generalizing a with
  | nil => exact Memory.wf_nil
  | cons x xs ih =>
    simp only [imageFrom]
    split
    · exact ih (a + 1)
    · next hx => exact Memory.wf_cons.2 ⟨fun p hp => imageFrom_above (a + 1) xs p hp, hx, ih (a + 1)⟩

/-- Overrides keep the canonical form. -/
theorem applyOverrides_wf {c : Config} {ov : List (Int × Int)} {m m' : Memory} (h : m.wf)
    (hm : applyOverrides c ov m = .ok m') : m'.wf := by
  induction ov generalizing m with
  | nil =>
    cases hm
    exact h
  | cons p ov ih =>
    obtain ⟨x, v⟩ := p
    simp only [applyOverrides] at hm
    split at hm
    · cases hm
    · exact ih (Memory.write_wf h _ _) hm

/-- The memory right after reset is in canonical form. -/
theorem reset_mem_wf : State.reset.mem.wf := Memory.wf_nil

/-- Placing an instruction for the next fetch keeps the canonical form. -/
theorem withFetchWord_mem_wf {m : Memory} (h : m.wf) (a : Nat) (w : Int) :
    ((((m.write a w).write (a + 1) 0).write (a + 2) 0).write (a + 3) 0).wf :=
  Memory.write_wf (Memory.write_wf (Memory.write_wf (Memory.write_wf h _ _) _ _) _ _) _ _

end Sys2Proof.Machine
end

