-- ==== Sys2Proof/Laws/Invariant.lean ====
section
/-! SUPPORT. What holds in good states (`State.Inv`): cells and operands are words, write addresses are
valid; and the two ways a good state stays good: fault entry, and a completed instruction. -/

namespace Sys2Proof.Machine

theorem cell_isWord {s : State} (h : s.Inv) (a : Nat) : isWord s.cfg (s.cell a) = true :=
  Memory.read_satisfies (P := fun v => isWord s.cfg v = true) (isWord_zero _) h.mem_word a

theorem map_cell_eq_ok {s : State} {x : Except Raised Nat} {v : Int} (h : x.map s.cell = .ok v) :
    ∃ a, x = .ok a ∧ v = s.cell a := by
  cases x with
  | error e => cases h
  | ok a =>
    cases h
    exact ⟨a, rfl, rfl⟩

/-- A resolved source is the content of some cell: the operand word itself, or the cell it names. -/
theorem rdOp_is_cell {s : State} {k : Nat} {m : Mode} {v : Int} (hv : rdOp s k m = .ok v) :
    ∃ a, v = s.cell a := by
  cases ho : operandWord s k with
  | error e =>
    rw [rdOp_of_error ho] at hv
    cases hv
  | ok raw =>
    obtain ⟨-, rfl⟩ := operandWord_eq_ok.1 ho
    cases m with
    | immediate =>
      rw [rdOp_immediate ho] at hv
      cases hv
      exact ⟨_, rfl⟩
    | position =>
      rw [rdOp_position ho] at hv
      obtain ⟨a, -, h⟩ := map_cell_eq_ok hv
      exact ⟨a, h⟩
    | relative =>
      rw [rdOp_relative ho] at hv
      obtain ⟨a, -, h⟩ := map_cell_eq_ok hv
      exact ⟨a, h⟩

theorem rdOp_isWord {s : State} (h : s.Inv) {k : Nat} {m : Mode} {v : Int}
    (hv : rdOp s k m = .ok v) : isWord s.cfg v = true := by
  obtain ⟨a, rfl⟩ := rdOp_is_cell hv
  exact cell_isWord h a

theorem wrAddr_lt_limit {s : State} {k : Nat} {m : Mode} {d : Nat} (hd : wrAddr s k m = .ok d) :
    d < s.cfg.addrLimit := by
  cases ho : operandWord s k with
  | error e =>
    rw [wrAddr_of_error ho] at hd
    cases hd
  | ok raw =>
    cases m with
    | immediate =>
      rw [wrAddr_immediate ho] at hd
      cases hd
    | position =>
      rw [wrAddr_position ho] at hd
      obtain ⟨h1, h2, rfl⟩ := chkA_eq_ok.1 hd
      omega
    | relative =>
      rw [wrAddr_relative ho] at hd
      obtain ⟨-, h1, h2, rfl⟩ := relativeAddr_eq_ok.1 hd
      omega

/-- Storing a word at a valid address keeps what the invariant says of memory. -/
theorem store_keeps_mem {s : State} (h : s.Inv) {d : Nat} {v : Int} (hd : d < s.cfg.addrLimit)
    (hv : isWord s.cfg v = true) :
    (s.mem.write d v).wf ∧ (∀ p ∈ s.mem.write d v, p.1 < s.cfg.addrLimit) ∧
      ∀ p ∈ s.mem.write d v, isWord s.cfg p.2 = true := by
  refine ⟨Memory.write_wf h.mem_wf _ _, fun p hp => ?_, fun p hp => ?_⟩ <;>
    rcases Memory.mem_write hp with hp | ⟨rfl, -⟩
  · exact h.mem_addr p hp
  · exact hd
  · exact h.mem_word p hp
  · exact hv

/-- Fault entry keeps a started machine good. -/
theorem faultEntry_keeps_inv {s : State} (h : s.Inv) (hs : s.started = true) {e : Raised}
    (he : MachineRaise s.cfg e) : (faultEntry e s).Inv where
  limit_pos := by simpa using h.limit_pos
  mem_wf := by rw [faultEntry_mem]; exact h.mem_wf
  mem_addr := by simpa using h.mem_addr
  mem_word := by simpa using h.mem_word
  rb_word := by simpa using h.rb_word
  inQ_word := by simpa using h.inQ_word
  outQ_word := by simpa using h.outQ_word
  ip_bound := by simpa using h.ip_bound
  closed_iff := by simp [State.terminated]
  cause_iff := by simp
  cause_not_parse := by simpa using he.1
  cause_overflow := by simpa using he.2
  record_ip := by simp
  record_word := by
    intro _ hip
    rw [faultEntry_cfg, faultEntry_ip] at hip
    simp [faultEntry_faultWord hip, State.cell]
  dropped_empty := by simpa using h.dropped_empty
  waits_at_in := by simp
  halted_at_halt := by simp
  not_started := by simp [hs]

/-- A completed instruction that leaves the machine running keeps it good, if what it wrote is good. -/
theorem running_keeps_inv {s t : State} (h : s.Inv) (hs : s.started = true)
    (hr : s.terminated = false) (hcfg : t.cfg = s.cfg) (hst : t.started = s.started)
    (hrun : t.runState = .running)
    (hmem : t.mem.wf ∧ (∀ p ∈ t.mem, p.1 < s.cfg.addrLimit) ∧
      ∀ p ∈ t.mem, isWord s.cfg p.2 = true)
    (hrb : isWord s.cfg t.rb = true) (hin : ∀ v ∈ t.inQ, isWord s.cfg v = true)
    (hout : ∀ v ∈ t.outQ, isWord s.cfg v = true) (hip : t.ip < s.cfg.addrLimit + 4)
    (hcl : t.outClosed = s.outClosed) (hca : t.faultCause = s.faultCause)
    (hdr : t.outDropped = true → t.outQ = []) : t.Inv := by
  have hopen : s.outClosed = false := by
    have := h.closed_iff
    simpa [hr] using this
  have hnone : s.faultCause = none := by
    by_contra hne
    simp [State.terminated, h.cause_iff.1 hne] at hr
  exact
    { limit_pos := by rw [hcfg]; exact h.limit_pos
      mem_wf := hmem.1
      mem_addr := by rw [hcfg]; exact hmem.2.1
      mem_word := by rw [hcfg]; exact hmem.2.2
      rb_word := by rw [hcfg]; exact hrb
      inQ_word := by rw [hcfg]; exact hin
      outQ_word := by rw [hcfg]; exact hout
      ip_bound := by rw [hcfg]; exact hip
      closed_iff := by simp [hcl, hopen, State.terminated, hrun]
      cause_iff := by simp [hca, hnone, hrun]
      cause_not_parse := by simp [hca, hnone]
      cause_overflow := by simp [hca, hnone]
      record_ip := by simp [hrun]
      record_word := by simp [hrun]
      dropped_empty := hdr
      waits_at_in := by simp [hrun]
      halted_at_halt := by simp [hrun]
      not_started := by simp [hst, hs] }

end Sys2Proof.Machine
end

