-- ==== Sys2Proof/Laws/PerInstr.lean ====
section
/-! SUPPORT. Families of statements made for every instruction, one lemma per constructor. -/

namespace Sys2Proof.Laws

namespace TableRow

/-- An instruction's code has a row in the opcode table with as many operands as the instruction has,
its instruction word selects that row, and its length is the row's operand count plus 1
(spec 30_encoding.md R60, R70; 40_execution.md R80). -/
def Statement (i : Instr) : Prop :=
  nops i.code = some i.operands.length ∧ (encode i).toNat % 100 = i.code ∧
    i.length = i.operands.length + 1

/-- The code is below 100, so it is what is left modulo 100. -/
theorem of_code_lt {i : Instr} (h : nops i.code = some i.operands.length) (hc : i.code < 100) :
    Statement i := by
  refine ⟨h, ?_, rfl⟩
  simp only [encode, Int.toNat_natCast]
  omega

theorem add (m1 m2 m3 : Mode) : Statement (.add m1 m2 m3) := of_code_lt rfl (by simp [Instr.code])
theorem mul (m1 m2 m3 : Mode) : Statement (.mul m1 m2 m3) := of_code_lt rfl (by simp [Instr.code])
theorem inp (m1 : Mode) : Statement (.inp m1) := of_code_lt rfl (by simp [Instr.code])
theorem out (m1 : Mode) : Statement (.out m1) := of_code_lt rfl (by simp [Instr.code])
theorem jnz (m1 m2 : Mode) : Statement (.jnz m1 m2) := of_code_lt rfl (by simp [Instr.code])
theorem jz (m1 m2 : Mode) : Statement (.jz m1 m2) := of_code_lt rfl (by simp [Instr.code])
theorem lt (m1 m2 m3 : Mode) : Statement (.lt m1 m2 m3) := of_code_lt rfl (by simp [Instr.code])
theorem eq (m1 m2 m3 : Mode) : Statement (.eq m1 m2 m3) := of_code_lt rfl (by simp [Instr.code])
theorem arb (m1 : Mode) : Statement (.arb m1) := of_code_lt rfl (by simp [Instr.code])
theorem halt : Statement .halt := of_code_lt rfl (by simp [Instr.code])

end TableRow

end Sys2Proof.Laws
end

