-- ==== Sys2Proof/Laws/System.lean ====
section
/-! SUPPORT. What one agent's action can do to a system, said once (60_exceptions.md R179 to R182). -/

namespace Sys2Proof.Machine

/-! ### `System.setMachine` -/

@[simp] theorem System.setMachine_machines (sys : System) (i : Nat) (s : State) :
    (sys.setMachine i s).machines = sys.machines.set i s := rfl
@[simp] theorem System.setMachine_wires (sys : System) (i : Nat) (s : State) :
    (sys.setMachine i s).wires = sys.wires := rfl
@[simp] theorem System.setMachine_joined (sys : System) (i : Nat) (s : State) :
    (sys.setMachine i s).joined = sys.joined := rfl

/-- Writing back the machine that is there changes nothing. -/
theorem System.setMachine_self {sys : System} {i : Nat} {s : State} (h : sys.machines[i]? = some s) :
    sys.setMachine i s = sys := by
  obtain ⟨hi, rfl⟩ := List.getElem?_eq_some_iff.1 h
  simp [System.setMachine]

/-! ### `System.place` -/

@[simp] theorem System.place_wires (sys : System) (i : Nat) (t : State) :
    (sys.place i t).wires = sys.wires := by
  unfold System.place
  split
  · rfl
  · dsimp only
    split <;> rfl

@[simp] theorem System.place_joined (sys : System) (i : Nat) (t : State) :
    (sys.place i t).joined = sys.joined := by
  unfold System.place
  split
  · rfl
  · dsimp only
    split <;> rfl

@[simp] theorem System.place_length (sys : System) (i : Nat) (t : State) :
    (sys.place i t).machines.length = sys.machines.length := by
  unfold System.place
  split
  · simp
  · dsimp only
    split <;> simp

/-! ### Actions -/

/-- A host operation on a machine that completes: the machine exists, and it alone is replaced. -/
theorem onMachine_cases {sys t : System} {i : Nat} {f : State → HostResult State} {r : Reply}
    (h : sys.onMachine i f = .done t r) :
    ∃ s u, sys.machines[i]? = some s ∧ f s = .done u r ∧ t = sys.setMachine i u := by
  unfold System.onMachine at h
  split at h
  · cases h
  · next s hs =>
    split at h
    · next u r' hf =>
      cases h
      exact ⟨s, u, hs, hf, rfl⟩
    · cases h
    · cases h

/-- A machine's step in a system: it exists, it steps as it does alone, and the result is placed. -/
theorem runMachine_cases {sys t : System} {i : Nat} {r : Reply}
    (h : sys.runMachine i = .done t r) :
    ∃ s u, sys.machines[i]? = some s ∧ step s = .next u ∧ t = sys.place i u ∧ r = .nothing := by
  unfold System.runMachine at h
  split at h
  · cases h
  · next s hs =>
    split at h
    · next u hu =>
      cases h
      exact ⟨s, u, hs, hu, rfl, rfl⟩
    · cases h
    · cases h

/-- A join in a system that returns: the machine has terminated, no machine and no wire changes, and
the machine is joined. -/
theorem joinMachine_cases {sys t : System} {i : Nat} {r : Reply}
    (h : sys.joinMachine i = .done t r) :
    ∃ s j, sys.machines[i]? = some s ∧ s.terminated = true ∧ r = .joined j ∧
      t = { sys with joined := if i ∈ sys.joined then sys.joined else i :: sys.joined } := by
  unfold System.joinMachine at h
  split at h
  · next u r' hu =>
    obtain ⟨s, v, hs, hj, rfl⟩ := onMachine_cases hu
    obtain ⟨hterm, rfl, j, rfl⟩ := join_cases hj
    rw [System.setMachine_self hs] at h
    cases h
    exact ⟨_, j, hs, hterm, rfl, rfl⟩
  · cases h
  · cases h

/-- No action changes the wiring or the number of machines. -/
theorem act_keeps_wiring {sys t : System} {a : Action} {r : Reply} (h : sys.act a = .done t r) :
    t.wires = sys.wires ∧ t.machines.length = sys.machines.length := by
  have on {i : Nat} {f : State → HostResult State} (h : sys.onMachine i f = .done t r) :
      t.wires = sys.wires ∧ t.machines.length = sys.machines.length := by
    obtain ⟨_, _, _, _, rfl⟩ := onMachine_cases h
    simp
  cases a <;> simp only [System.act] at h
  case run i =>
    obtain ⟨_, _, _, _, rfl, _⟩ := runMachine_cases h
    simp
  case push j v =>
    unfold System.pushInput at h
    split at h
    · exact on h
    · split at h
      · cases h
      · exact on h
  case close j =>
    unfold System.closeInput at h
    split at h
    · exact on h
    · cases h
  case start i => exact on h
  case pop i =>
    unfold System.popOutput at h
    split at h <;> exact on h
  case drop i =>
    unfold System.dropOutput at h
    split at h
    · exact on h
    · cases h
  case join i =>
    obtain ⟨_, _, _, _, _, rfl⟩ := joinMachine_cases h
    exact ⟨rfl, rfl⟩
  case peek i p =>
    unfold System.peekMachine at h
    split at h
    · exact on h
    · cases h

end Sys2Proof.Machine
end

