-- ==== Sys2Proof/Tests/Slice0.lean ====
section
/-! SUPPORT. Tests of one step each, with results taken from the spec's examples and vectors
(30_encoding.md, 41 to 46, 60, 70, 95_test_vectors.md), and for every statement with hypotheses a witness
that meets them together. -/

namespace Sys2Proof.Tests

open Sys2Proof.Machine

/-- A started machine with the program `ws`. -/
def sample (c : Config) (ws inp : List Int) (closed : Bool) : State :=
  { State.fresh c (imageFrom 0 ws) with started := true, inQ := inp, inClosed := closed }

/-- The state after one step; the state itself where there is none. -/
def after (s : State) : State :=
  match step s with
  | .next t => t
  | .fault _ => s
  | .refused _ => s

/-- One step of the program `ws` under the spec's parameters. -/
def run1 (ws inp : List Int) (closed : Bool) : State := after (sample Config.spec ws inp closed)

/-- What join reports after one step, as (cause, ip, word). -/
def record (s : State) : Nat × Nat × Int := (causeCode s.faultCause, s.faultIp, s.faultWord)

/-- Samples under the spec's parameters are good states. -/
theorem sample_inv (ws inp : List Int) (closed : Bool) (h : ws.length < 2 ^ 63) :
    (sample Config.spec ws inp closed).Inv where
  limit_pos := by
    change 0 < 2 ^ 63
    decide
  mem_wf := imageFrom_wf 0 ws
  mem_addr := fun p hp => by
    have := imageFrom_below 0 ws p hp
    change p.1 < 2 ^ 63
    omega
  mem_word := fun _ _ => rfl
  rb_word := rfl
  inQ_word := fun _ _ => rfl
  outQ_word := fun _ _ => rfl
  ip_bound := by
    change 0 < 2 ^ 63 + 4
    decide
  closed_iff := by simp [sample, State.fresh, State.terminated]
  cause_iff := by simp [sample, State.fresh]
  cause_not_parse := by simp [sample, State.fresh]
  cause_overflow := by simp [sample, State.fresh]
  record_ip := by simp [sample, State.fresh]
  record_word := by simp [sample, State.fresh]
  dropped_empty := by simp [sample, State.fresh]
  waits_at_in := by simp [sample, State.fresh]
  halted_at_halt := by simp [sample, State.fresh]
  not_started := by simp [sample]

/-! ### Well-formedness: an ill-formed term for each check (30_encoding.md R73) -/

theorem test_wellFormed_refuses_add_immediate :
    (Instr.add .position .position .immediate).wellFormed = false := by decide
theorem test_wellFormed_refuses_mul_immediate :
    (Instr.mul .position .position .immediate).wellFormed = false := by decide
theorem test_wellFormed_refuses_inp_immediate : (Instr.inp .immediate).wellFormed = false := by decide
theorem test_wellFormed_refuses_lt_immediate :
    (Instr.lt .position .position .immediate).wellFormed = false := by decide
theorem test_wellFormed_refuses_eq_immediate :
    (Instr.eq .position .position .immediate).wellFormed = false := by decide
theorem test_wellFormed_accepts_relative :
    (Instr.add .immediate .immediate .relative).wellFormed = true := by decide
theorem test_line_refuses_missing_operand :
    (Line.mk (.out .position) []).wellFormed = false := by decide

/-! ### Decoding: words of table D (95_test_vectors.md), digit by digit from 30_encoding.md R62, R70 -/

theorem test_decode_add : decode true 21101 = .ok (.add .immediate .immediate .relative) := by decide
theorem test_decode_mul : decode true 1002 = .ok (.mul .position .immediate .position) := by decide
theorem test_decode_in : decode true 203 = .ok (.inp .relative) := by decide
theorem test_decode_in_immediate : decode true 103 = .ok (.inp .immediate) := by decide
theorem test_decode_out : decode true 204 = .ok (.out .relative) := by decide
theorem test_decode_jnz : decode true 1105 = .ok (.jnz .immediate .immediate) := by decide
theorem test_decode_jz : decode true 2206 = .ok (.jz .relative .relative) := by decide
theorem test_decode_lt : decode true 22207 = .ok (.lt .relative .relative .relative) := by decide
theorem test_decode_eq : decode true 1108 = .ok (.eq .immediate .immediate .position) := by decide
theorem test_decode_arb : decode true 109 = .ok (.arb .immediate) := by decide
theorem test_decode_halt : decode true 99 = .ok .halt := by decide
theorem test_decode_negative : decode true (-101) = .error (.unknownOpcode (-101)) := by decide
theorem test_decode_code_before_digit : decode true 350 = .error (.unknownOpcode 350) := by decide
theorem test_decode_digit_3 : decode true 3001 = .error (.invalidAddressingMode 3001) := by decide
theorem test_decode_excess_strict :
    decode true 10004 = .error (.invalidAddressingMode 10004) := by decide
theorem test_decode_excess_lenient : decode false 10004 = .ok (.out .position) := by decide
theorem test_decodeTableWord_eq :
    decodeTableWord 8 8 = some (.eq .position .position .position) := by decide
theorem test_decodeTableWord_refuses : decodeTableWord 8 10 = none := by decide

/-- The words of R75's example `ADD [9], #-1, [rb+3]`. -/
theorem test_line_words :
    (Line.mk (.add .position .immediate .relative) [9, -1, 3]).words = [21001, 9, -1, 3] := by decide

/-! ### One step each (examples of the instructions' rules; 95_test_vectors.md) -/

theorem test_add_example :
    ((run1 [1, 9, 10, 3, 2, 3, 11, 0, 99, 30, 40, 50] [] true).cell 3,
      (run1 [1, 9, 10, 3, 2, 3, 11, 0, 99, 30, 40, 50] [] true).ip) = (70, 4) := by decide
/-- 2^62 + 2^62 under `Int64`: Fault(8, 0, 1101). -/
theorem test_add_overflow_int64 :
    record (after (sample Config.int64Variant
      [1101, 4611686018427387904, 4611686018427387904, 5, 99] [] true)) = (8, 0, 1101) := by decide
theorem test_mul_negative : (run1 [1102, -3, 4, 5, 99] [] true).cell 5 = -12 := by decide
/-- -2^32 · 2^31 = -2^63 is a word under `Int64`. -/
theorem test_mul_least_int64 :
    (after (sample Config.int64Variant [1102, -4294967296, 2147483648, 5, 99] [] true)).cell 5 =
      -9223372036854775808 := by decide
theorem test_in_own_operand_word :
    ((run1 [3, 1, 99] [1101] true).cell 1, (run1 [3, 1, 99] [1101] true).inQ) = (1101, []) := by decide
theorem test_in_destination_before_input :
    (record (run1 [203, -1, 99] [9] true), (run1 [203, -1, 99] [9] true).inQ) =
      ((5, 0, 203), [9]) := by decide
theorem test_in_waits : (run1 [3, 0, 99] [] false).runState = .waitingOnInput := by decide
theorem test_out_position : (run1 [4, 0, 99] [] true).outQ = [4] := by decide
theorem test_out_dropped :
    record (after { sample Config.spec [4, 0, 99] [] true with outDropped := true }) =
      (6, 0, 4) := by decide
theorem test_jnz_negative_condition : (run1 [1105, -1, 3, 99] [] true).ip = 3 := by decide
theorem test_jnz_resolves_target_when_not_taken :
    record (run1 [105, 0, -3, 99] [] true) = (5, 0, 105) := by decide
theorem test_jz_taken : (run1 [1106, 0, 4, 0, 99] [] true).ip = 4 := by decide
theorem test_jz_not_taken : (run1 [1106, -2, 0, 99] [] true).ip = 3 := by decide
theorem test_lt_signed : (run1 [1107, -5, -1, 5, 99] [] true).cell 5 = 1 := by decide
theorem test_lt_equal : (run1 [1107, 3, 3, 5, 99] [] true).cell 5 = 0 := by decide
theorem test_eq_unequal : (run1 [1108, 1, -1, 5, 99] [] true).cell 5 = 0 := by decide
theorem test_eq_own_word : (run1 [8, 0, 0, 0, 99] [] true).cell 0 = 1 := by decide
theorem test_arb_position : (run1 [9, 0, 99] [] true).rb = 9 := by decide
/-- `109,5,209,-3` at its second instruction: rb = 5 + mem[5 - 3] = 214, the old rb in the operand. -/
theorem test_arb_uses_old_rb :
    (after (run1 [109, 5, 209, -3, 99, 0, 0] [] true)).rb = 214 := by decide
theorem test_halt_keeps_ip :
    ((run1 [99, 1, 2] [] true).ip, (run1 [99, 1, 2] [] true).runState,
      (run1 [99, 1, 2] [] true).outClosed) = (0, .halted, true) := by decide
theorem test_fetch_at_limit_faults :
    (causeCode (after { sample Config.spec [99] [] true with ip := 2 ^ 63 }).faultCause) = 7 := by
  decide
theorem test_immediate_destination : record (run1 [11101, 1, 1, 5] [] true) = (4, 0, 11101) := by decide
theorem test_reset_runs_placed_word :
    (after (State.reset.withFetchWord 8 99)).runState = .halted := by decide
/-- V1c: the override (0, 2) makes the first instruction MUL. -/
theorem test_construct_override :
    ∃ s, construct Config.spec ['1', ',', '-', '2'] [(0, 2)] = .machine s ∧
      (s.cell 0, s.cell 1) = (2, -2) := ⟨_, rfl, by decide⟩
theorem test_construct_refuses_override_that_is_no_word :
    construct Config.int64Variant ['9', '9'] [(0, 9223372036854775808)] = .refused := by decide
theorem test_parse_rejects_inner_space :
    parseText Config.spec ['1', ',', ' ', '2'] = .error (.parseError 2) := by decide

/-! ### Witnesses: the hypotheses of each statement, met together -/

theorem witness_ExcessDigitsFaultOrAreIgnored : nops (199 % 100) = some 0 ∧ 199 / 10 ^ (2 + 0) ≠ 0 := by
  decide
theorem witness_UnknownOpcodeExactlyForIllegalCodes :
    noStep (sample Config.spec [98] [] true) = none ∧
      (sample Config.spec [98] [] true).ip < Config.spec.addrLimit ∧
      ((sample Config.spec [98] [] true).cell 0).toNat % 100 = 98 := by decide
theorem witness_UnknownOpcode_negative : (sample Config.spec [-1] [] true).cell 0 < 0 := by decide
theorem witness_UnknownOpcode_zero : ((sample Config.spec [100] [] true).cell 0).toNat % 100 = 0 := by
  decide
theorem witness_IllegalDigits_digit : nops (301 % 100) = some 3 ∧ 3 ≤ dig (2 + 0) 301 := by decide
theorem witness_IllegalDigits_legal : nops (22201 % 100) = some 3 ∧ 22201 / 10 ^ (2 + 3) = 0 := by
  decide
theorem witness_AbsentModeDigitsArePosition :
    decode true (1001 : Nat) = .ok (.add .position .immediate .position) ∧
      (Instr.add .position .immediate .position).operands[2]? = some (.dest, .position) ∧
      1001 < 10 ^ (2 + 2) := by decide

/-- `rb` = 100 and the operand word -1: the Relative operand accesses cell 99. -/
def relativeSample : State := { sample Config.spec [204, -1, 99] [] true with rb := 100 }

theorem witness_RelativeAccessesSameCellAsPosition :
    relativeSample.mem.wf ∧ relativeSample.ip + 1 < relativeSample.cfg.addrLimit ∧
      isWord relativeSample.cfg (relativeSample.rb + relativeSample.cell (relativeSample.ip + 1)) = true ∧
      wrAddr relativeSample 1 .relative = .ok 99 := by decide
theorem witness_FirstOperandFaultIsTaken :
    firstOperandFault (sample Config.spec [1, 0, -7, -8] [] true) 1
      (Instr.add .position .position .position).operands = some (.negativeAddress (-7)) := by decide
theorem witness_ImmediateDestinationNeverActs :
    (Instr.add .immediate .immediate .immediate).wellFormed = false ∧
      (Instr.add .immediate .immediate .immediate).operands =
        [(.source, .immediate), (.source, .immediate)] ++ [(.dest, .immediate)] ∧
      firstOperandFault (sample Config.spec [11101, 1, 1, 5] [] true) 1
        [(.source, .immediate), (.source, .immediate)] = none ∧
      operandWord (sample Config.spec [11101, 1, 1, 5] [] true) 3 = .ok 5 := by decide

/-- A machine on which every mode of the four storing instructions with two sources resolves:
operand words 4, 5 and 6, `rb` = 1. -/
def storingSample : State := { sample Config.spec [1101, 4, 5, 6] [] true with rb := 1 }

theorem witness_storing_position :
    storingSample.mem.wf ∧ rdOp storingSample 1 .position = .ok 0 ∧
      rdOp storingSample 2 .position = .ok 0 ∧ wrAddr storingSample 3 .position = .ok 6 := by decide
theorem witness_storing_immediate_relative :
    rdOp storingSample 1 .immediate = .ok 4 ∧ rdOp storingSample 2 .relative = .ok 0 ∧
      wrAddr storingSample 3 .relative = .ok 7 ∧ isWord storingSample.cfg (4 + 0) = true := by decide
theorem witness_storing_overflow :
    rdOp (sample Config.int64Variant [1101, 4611686018427387904, 4611686018427387904, 5] [] true) 1
        .immediate = .ok 4611686018427387904 ∧
      isWord Config.int64Variant (4611686018427387904 + 4611686018427387904) = false ∧
      isWord Config.int64Variant (4611686018427387904 * 4611686018427387904) = false := by decide
theorem witness_storing_operand_fault :
    firstOperandFault (sample Config.spec [11101, 1, 1, 5] [] true) 1
      (Instr.lt .immediate .immediate .immediate).operands = some (.invalidWriteTarget 5) := by decide
theorem witness_InStoresHeadOrWaitsOrFaults :
    (sample Config.spec [3, 5, 99] [1, 2] true).mem.wf ∧
      wrAddr (sample Config.spec [3, 5, 99] [1, 2] true) 1 .position = .ok 5 ∧
      (sample Config.spec [3, 5, 99] [1, 2] true).inQ = [1, 2] ∧
      wrAddr (sample Config.spec [103, 5] [] false) 1 .immediate = .error (.invalidWriteTarget 5) := by
  decide
theorem witness_OutAppendsToOutput :
    rdOp (sample Config.spec [104, 42, 99] [] true) 1 .immediate = .ok 42 ∧
      (sample Config.spec [104, 42, 99] [] true).outDropped = false ∧
      rdOp (sample Config.spec [204, -1, 99] [] true) 1 .relative = .error (.negativeAddress (-1)) := by
  decide
theorem witness_jumps :
    rdOp (sample Config.spec [1105, 1, 3] [] true) 1 .immediate = .ok 1 ∧
      rdOp (sample Config.spec [1105, 1, 3] [] true) 2 .immediate = .ok 3 ∧
      rdOp (sample Config.spec [1106, 0, 4] [] true) 1 .immediate = .ok 0 := by decide
theorem witness_jump_target_edges :
    ValidAddr Config.spec (2 ^ 63 - 1) ∧ ValidAddr Config.spec 0 ∧
      AddrFault Config.spec (2 ^ 63) (.addressOutOfRange (2 ^ 63)) ∧
      AddrFault Config.spec (-1) (.negativeAddress (-1)) := by
  simp [ValidAddr, AddrFault, Config.spec]
theorem witness_ArbAddsToRelativeBase :
    rdOp (sample Config.spec [109, 10, 99] [] true) 1 .immediate = .ok 10 ∧
      isWord Config.int64Variant (4611686018427387904 + 4611686018427387903) = true ∧
      isWord Config.int64Variant (4611686018427387904 + 4611686018427387904) = false := by decide
theorem witness_MovCopiesAndJmpJumps_mov :
    (sample Config.spec [1001, 4, 0, 5, 7] [] true).Inv ∧
      noStep (sample Config.spec [1001, 4, 0, 5, 7] [] true) = none ∧
      (Line.mov .position 4 .position 5).words = [1001, 4, 0, 5] ∧
      rdOp (sample Config.spec [1001, 4, 0, 5, 7] [] true) 1 .position = .ok 7 ∧
      wrAddr (sample Config.spec [1001, 4, 0, 5, 7] [] true) 3 .position = .ok 5 :=
  ⟨sample_inv _ _ _ (by decide), by decide⟩
theorem witness_MovCopiesAndJmpJumps_jmp :
    (Line.jmp .immediate 6).words = [1105, 1, 6] ∧
      rdOp (sample Config.spec [1105, 1, 6] [] true) 2 .immediate = .ok 6 := by decide
theorem witness_OnlyTheStoredCellChanges :
    storedCell (.add .immediate .immediate .position) (sample Config.spec [1101, 2, 3, 4] [] true) =
        some (4, 5) ∧
      storedCell .halt (sample Config.spec [99] [] true) = none ∧
      (run1 [1101, 2, 3, 4] [] true).ip = 4 := by decide
theorem witness_MemoriesThatReadAlikeAreEqual :
    Memory.wf (Memory.write (Memory.write [] 3 1) 3 0) ∧ Memory.wf [] := by decide
theorem witness_FaultingStepChangesOnlyTheRecord :
    ∃ t, step (sample Config.spec [0] [] true) = .next t ∧ t.runState = .faulted := ⟨_, rfl, by decide⟩
theorem witness_FetchAndDecodeFaultsAreTaken :
    noStep { sample Config.spec [99] [] true with ip := 2 ^ 63 } = none ∧
      decode true 199 = .error (.invalidAddressingMode 199) := by decide
theorem witness_InstructionsRaiseOnlyTheirFaults :
    ∃ t, exec (.inp .relative) (sample Config.int64Variant [203, -1] [9] true) = .next t ∧
      t.faultCause = some .negativeAddress := ⟨_, rfl, by decide⟩
theorem witness_EveryFaultOfTheMatrixIsRaised : nops 3 ≠ none ∧ mayRaise 3 .channelClosed = true := by
  decide
theorem witness_UnboundedWordsNeverOverflow :
    ∃ t, step (sample Config.spec [1101, 4611686018427387904, 4611686018427387904, 5] [] true) = .next t ∧
      t.cell 5 = 9223372036854775808 := ⟨_, rfl, by decide⟩
theorem witness_StepRunsTheDecodedInstruction :
    noStep (sample Config.spec [99] [] true) = none ∧
      decode true ((sample Config.spec [99] [] true).cell 0) = .ok .halt := by decide
theorem witness_RunStateChangesAsTabled :
    (sample Config.spec [3, 0, 99] [] false).Inv ∧
      ∃ t, step (sample Config.spec [3, 0, 99] [] false) = .next t ∧ t.runState = .waitingOnInput :=
  ⟨sample_inv _ _ _ (by decide), _, rfl, by decide⟩
/-- A machine that waits at its IN while the producer closes: the next step faults. -/
def waiting : State :=
  { sample Config.spec [3, 0, 99] [] true with runState := .waitingOnInput }

theorem waiting_inv : waiting.Inv := by
  constructor <;> first
    | decide
    | exact fun _ => ⟨.position, 0, by decide, by decide⟩

theorem witness_RunStateChangesAsTabled_closed :
    waiting.Inv ∧ ∃ t, step waiting = .next t ∧ t.runState = .faulted :=
  ⟨waiting_inv, _, rfl, by decide⟩
theorem witness_DisabledStepStopsUnderItsReason :
    noStep State.reset = some .notStarted ∧ noStep (run1 [99] [] true) = some .alreadyHalted ∧
      noStep (run1 [0] [] true) = some .alreadyFaulted ∧
      noStep (run1 [3, 0, 99] [] false) = some .blockedOnInput ∧ noStep waiting = none := by decide
theorem witness_InstructionPointerAdvancesAsSpecified :
    (sample Config.spec [1105, 1, 7] [] true).Inv ∧
      fetchDecode (sample Config.spec [1105, 1, 7] [] true) = .ok (.jnz .immediate .immediate) ∧
      ∃ t, step (sample Config.spec [1105, 1, 7] [] true) = .next t ∧ t.runState = .running ∧ t.ip = 7 :=
  ⟨sample_inv _ _ _ (by decide), by decide, _, rfl, by decide⟩
theorem witness_RelativeBaseIsTheSumOfArbOperands :
    ∃ t, step (sample Config.spec [109, 10] [] true) = .next t ∧
      t.rb ≠ (sample Config.spec [109, 10] [] true).rb := ⟨_, rfl, by decide⟩
theorem witness_ChannelsChangeOnlyByInAndOut :
    ∃ t, step (sample Config.spec [3, 5] [8] true) = .next t ∧ t.inQ = [] := ⟨_, rfl, by decide⟩
theorem witness_WaitingChangesNothingButTheRunState :
    ∃ t, step (sample Config.spec [3, 0, 99] [] false) = .next t ∧ t.runState = .waitingOnInput ∧
      (sample Config.spec [3, 0, 99] [] false).runState = .running := ⟨_, rfl, by decide⟩
theorem witness_ArrivalTimeOfInputDoesNotMatter :
    (sample Config.spec [3, 5] [8] false).inClosed = false ∧
      ∃ t, step (sample Config.spec [3, 5] [8] false) = .next t ∧ t.runState ≠ .waitingOnInput :=
  ⟨by decide, _, rfl, by decide⟩
theorem witness_TerminatedMachinesStayTerminated :
    (run1 [99] [] true).terminated = true ∧
      ∃ t r, (run1 [99] [] true).pop = .done t r := ⟨by decide, _, _, rfl⟩
theorem witness_StepKeepsStatesGood :
    (sample Config.spec [1, 0, 0, 0] [] true).Inv ∧
      ∃ t, step (sample Config.spec [1, 0, 0, 0] [] true) = .next t :=
  ⟨sample_inv _ _ _ (by decide), _, rfl⟩
theorem witness_ConstructionLoadsImageAndOverrides :
    ∃ s, construct Config.spec ['9', '9'] [(0, 2), (0, 3)] = .machine s := ⟨_, rfl⟩
theorem witness_ConstructedMachineIsGood :
    0 < Config.int64Variant.addrLimit ∧
      ∃ s, construct Config.int64Variant ['9', '9'] [(0, 2)] = .machine s := ⟨by decide, _, rfl⟩
theorem witness_ConstructionFailsInOrder_text :
    parseText Config.spec [] = .error (.parseError 0) := by decide
theorem witness_ConstructionFailsInOrder_size :
    parseText { Config.spec with addrLimit := 2 } ['1', ',', '2'] = .ok [1, 2] := by decide
theorem witness_ConstructionFailsInOrder_override :
    parseText Config.spec ['9', '9'] = .ok [99] ∧
      (∀ p ∈ [((0 : Int), (2 : Int)), (-1, 3)], isWord Config.spec p.2 = true) ∧
      ValidAddr Config.spec 0 ∧ AddrFault Config.spec (-1) (.negativeAddress (-1)) :=
  ⟨by decide, by decide, by simp [ValidAddr, Config.spec], .inl ⟨by decide, rfl⟩⟩
theorem witness_HostOperationsKeepStatesGood :
    (sample Config.spec [99] [] false).Inv ∧
      ∃ t r, (sample Config.spec [99] [] false).push 5 = .done t r :=
  ⟨sample_inv _ _ _ (by decide), _, _, rfl⟩
theorem witness_PushAppendsUntilClosed :
    (sample Config.spec [99] [] false).inClosed = false ∧
      isWord Config.int64Variant 9223372036854775807 = true ∧
      ∃ t r, (sample Config.spec [99] [] false).close = .done t r := ⟨by decide, by decide, _, _, rfl⟩
theorem witness_HostBringsOnlyWords :
    isWord (sample Config.int64Variant [99] [] false).cfg 9223372036854775808 = false ∧
      isWord Config.int64Variant (-9223372036854775809) = false := by decide
theorem witness_PopTakesHeadAndDropDiscards :
    (run1 [104, 7, 99] [] true).outQ = [7] ∧ (run1 [104, 7, 99] [] true).outDropped = false ∧
      (run1 [99] [] true).outQ = [] ∧ (run1 [99] [] true).outClosed = true ∧
      rdOp (sample Config.spec [104, 7] [] true) 1 .immediate = .ok 7 := by decide
theorem witness_MachineStartsOnce :
    ∃ t r, State.reset.start = .done t r ∧ State.reset.started = false ∧ t.started = true :=
  ⟨_, _, rfl, by decide⟩
theorem witness_JoinReportsTheFault :
    (run1 [99] [] true).runState = .halted ∧
      ∃ t, step (sample Config.spec [350] [] true) = .next t ∧ t.runState = .faulted ∧
        t.join = .done t (.joined (.err 2 0 350)) ∧
        ∃ after r, (System.make [t] []).act (.join 0) = .done after r ∧
          after.act (.peek 0 0) = .done after (.word 350) :=
  ⟨by decide, _, rfl, by decide, by decide, _, _, rfl, by decide⟩
theorem witness_RunToCompletionBlocksOnEmptyInput :
    ∃ t r, ({ sample Config.spec [3, 0, 99] [] false with started := false } : State).start = .done t r ∧
      (State.runFor 1 t).runState = .waitingOnInput ∧ (State.runFor 1 t).inQ = [] ∧
      (State.runFor 1 t).inClosed = false := ⟨_, _, rfl, by decide⟩

/-- The pipeline of P7 (95_test_vectors.md), cut to one IN and one OUT: machine 0 sends, machine 1
receives; both started. -/
def pair : System :=
  { System.make
      [sample Config.spec [104, 7, 99] [] false, sample Config.spec [3, 9, 99] [] false]
      [(0, 1)] with joined := [] }

theorem pair_inv : pair.Inv where
  machine := by
    intro s hs
    simp only [pair, System.make, List.mem_cons, List.not_mem_nil, or_false] at hs
    rcases hs with rfl | rfl
    · exact sample_inv _ _ _ (by decide)
    · exact sample_inv _ _ _ (by decide)
  wire_range := by decide
  one_producer := by decide
  one_consumer := by decide
  wire_shared := by
    intro w hw s t hs ht
    simp only [pair, System.make, List.mem_cons, List.not_mem_nil, or_false] at hw
    subst hw
    cases hs
    cases ht
    decide
  joined_ended := by simp [pair]

theorem test_wired_output_arrives :
    (match pair.act (.run 0) with
      | .done t _ => t.machines.map State.inQ
      | .blocked => []
      | .refused => []) = [[], [7]] := by decide
theorem witness_ActionsKeepSystemsGood :
    pair.Inv ∧ ∃ t r, pair.act (.run 0) = .done t r := ⟨pair_inv, _, _, rfl⟩
theorem witness_JoinReportsTheFault_before_join :
    pair.Inv ∧ 1 ∉ pair.joined ∧
      ∃ s, pair.machines[1]? = some s ∧ s.terminated = false := ⟨pair_inv, by decide, _, rfl, by decide⟩
theorem witness_MachineStepTouchesOnlyItsChannel :
    pair.Inv ∧ pair.consumerOf 0 = some 1 ∧ pair.consumerOf 1 = none ∧
      ∃ s t, pair.machines[0]? = some s ∧ step s = .next t :=
  ⟨pair_inv, by decide, by decide, _, _, rfl, rfl⟩
theorem witness_HostReachesWiredChannelsOnlyAtTheEnds :
    pair.Inv ∧ (0, 1) ∈ pair.wires ∧ ∃ s u, pair.machines[0]? = some s ∧ pair.machines[1]? = some u ∧
      s.started = true ∧ u.terminated = false :=
  ⟨pair_inv, by decide, _, _, rfl, rfl, by decide, by decide⟩
/-- A machine constructed with the program `3,9,99` and not yet started. -/
def idle : State := State.fresh Config.spec [(0, 3), (1, 9), (2, 99)]

theorem idle_inv : idle.Inv := by
  constructor <;> first | decide | simp [idle, State.fresh]

/-- A machine halted at its HALT with an input left unread (42_io.md, vector `99`, In = [5]). -/
def ended : State :=
  { sample Config.spec [99] [5] true with runState := .halted, outClosed := true }

theorem ended_inv : ended.Inv := by
  constructor <;> first | decide | simp [ended, sample, State.fresh]

theorem witness_HostReachesWiredChannels_seeding :
    (System.make [idle, idle] [(0, 1)]).Inv ∧ idle.started = false ∧ isWord idle.cfg 5 = true := by
  refine ⟨⟨?_, by decide, by decide, by decide, ?_, by simp [System.make]⟩, by decide, by decide⟩
  · intro s hs
    simp only [System.make, List.mem_cons, List.not_mem_nil, or_false, or_self] at hs
    subst hs
    exact idle_inv
  · intro w hw s t hs ht
    simp only [System.make, List.mem_cons, List.not_mem_nil, or_false] at hw
    subst hw
    cases hs
    cases ht
    decide
theorem witness_HostReachesWiredChannels_leftover :
    (System.make [ended, ended] [(0, 1)]).Inv ∧ ended.terminated = true ∧ ended.inQ = [5] := by
  refine ⟨⟨?_, by decide, by decide, by decide, ?_, by simp [System.make]⟩, by decide⟩
  · intro s hs
    simp only [System.make, List.mem_cons, List.not_mem_nil, or_false, or_self] at hs
    subst hs
    exact ended_inv
  · intro w hw s t hs ht
    simp only [System.make, List.mem_cons, List.not_mem_nil, or_false] at hw
    subst hw
    cases hs
    cases ht
    decide
/-- The sender's OUT and the receiver's wait: the pair that needs one more step on one side. -/
theorem witness_StepsOfTwoMachinesMeetAgain :
    pair.Inv ∧ (0 : Nat) ≠ 1 ∧ (∃ si, pair.act (.run 0) = .done si .nothing) ∧
      ∃ sj, pair.act (.run 1) = .done sj .nothing :=
  ⟨pair_inv, by decide, ⟨_, rfl⟩, _, rfl⟩
theorem witness_PipelineOutcomeIsScheduleIndependent :
    pair.Inv ∧ (∀ a ∈ [Action.run 0, .run 0, .run 1, .run 1], FeedingAction a) ∧
      ∃ t, pair.runSchedule [.run 0, .run 0, .run 1, .run 1] = some t ∧ t.AllTerminated := by
  refine ⟨pair_inv, ?_, _, rfl, ?_⟩
  · simp [FeedingAction]
  · unfold System.AllTerminated
    decide

/-- One machine that jumps to its own address for ever (43_jumps.md R121), its input open or closed. -/
def looping (closed : Bool) : System :=
  System.make [sample Config.spec [1106, 0, 0] [] closed] []

theorem looping_inv : (looping false).Inv where
  machine := by
    intro s hs
    simp only [looping, System.make, List.mem_cons, List.not_mem_nil, or_false] at hs
    exact hs ▸ sample_inv _ _ _ (by decide)
  wire_range := by decide
  one_producer := by decide
  one_consumer := by decide
  wire_shared := by simp [looping, System.make]
  joined_ended := by simp [looping, System.make]

/-- The host closes the input first; from then on the machine jumps. -/
def loopTrace (n : Nat) : System := looping (decide (0 < n))
def loopActs (n : Nat) : Action := if n = 0 then .close 0 else .run 0
def loopHost (n : Nat) : Option Action := if n = 0 then some (.close 0) else none

theorem looping_runs (b : Bool) : (looping b).act (.run 0) = .done (looping b) .nothing := by
  cases b <;> decide

theorem witness_WeakFairnessServesEveryAgent :
    (loopTrace 0).Inv ∧ IsExecution loopTrace loopActs loopHost ∧
      WeaklyFair loopTrace loopActs loopHost ∧ (loopTrace 1).Enabled 0 ∧
      loopHost 0 = some (.close 0) ∧ ∃ t r, (loopTrace 0).act (.close 0) = .done t r := by
  refine ⟨looping_inv, ⟨fun n => ?_, fun n => ?_⟩, fun g n h => ?_, ⟨_, rfl, by decide⟩, rfl, _, _, rfl⟩
  · rcases n with _ | n
    · exact .inl ⟨.nothing, by decide⟩
    · exact .inl ⟨.nothing, by simpa [loopTrace, loopActs] using looping_runs true⟩
  · rcases n with _ | n <;> simp [loopActs, loopHost, Action.agent]
  · cases g with
    | host =>
      obtain ⟨a, ha, -⟩ := h (n + 1) (Nat.le_succ n)
      simp [loopHost] at ha
    | machine i =>
      obtain ⟨s, hs, -⟩ := h n (Nat.le_refl n)
      have : i = 0 := by
        have := (List.getElem?_eq_some_iff.1 hs).1
        simpa [loopTrace, looping, System.make] using this
      exact ⟨n + 1, Nat.le_succ n, by simp [loopActs, Action.agent, this]⟩

end Sys2Proof.Tests
end

section
/-! What an instruction can do to a good state, case by case, and that every step keeps the good states
good. -/

namespace Sys2Proof.Machine

/-- The states in which an instruction `i` can leave `s`: the fault taken, the run ended or waiting, an
input word taken, or one completed effect with the next `ip`. -/
inductive Effect (s : State) : Instr → State → Prop where
  | fault (i : Instr) {e : Raised} (he : MachineRaise s.cfg e) : Effect s i (faultEntry e s)
  | halt : Effect s .halt s.enterHalted
  | wait {m : Mode} {d : Nat} (hd : wrAddr s 1 m = .ok d) (hq : s.inQ = [])
      (hc : s.inClosed = false) : Effect s (.inp m) (s.setRun .waitingOnInput)
  | input {m : Mode} {d : Nat} {v : Int} {rest : List Int} (hd : wrAddr s 1 m = .ok d)
      (hq : s.inQ = v :: rest) :
      Effect s (.inp m) ((((s.popInput rest).store d v).setRun .running).advance 2)
  | output {m : Mode} {v : Int} (hv : rdOp s 1 m = .ok v) (hd : s.outDropped = false) :
      Effect s (.out m) ((s.pushOutput v).advance 2)
  | store {i : Instr} {d : Nat} {v : Int} (hi : ∀ m, i ≠ .inp m) (hd : d < s.cfg.addrLimit)
      (hv : isWord s.cfg v = true) : Effect s i ((s.store d v).advance 4)
  | jump {i : Instr} {a : Nat} (hi : ∀ m, i ≠ .inp m) (ha : a < s.cfg.addrLimit) :
      Effect s i (s.jump a)
  | fallThrough {i : Instr} (hi : ∀ m, i ≠ .inp m) : Effect s i (s.advance 3)
  | setRb {m : Mode} {v : Int} (hv : isWord s.cfg v = true) :
      Effect s (.arb m) ((s.setRb v).advance 2)

/-- A comparison writes a word. -/
theorem truthWord_isWord (c : Config) (b : Bool) : isWord c (truthWord b) = true := by
  cases b
  · exact isWord_zero c
  · exact isWord_one c

theorem execArith_effect {op : Int → Int → Int} {m1 m2 m3 : Mode} {i : Instr} {s t : State}
    (hi : ∀ m, i ≠ .inp m) (h : execArith op m1 m2 m3 s = .next t) : Effect s i t := by
  obtain ⟨e, he, rfl⟩ | ⟨a, b, d, -, -, hd, hw, rfl⟩ := execArith_cases h
  · exact .fault i he
  · exact .store hi (wrAddr_lt_limit hd) hw

theorem execCompare_effect {f : Int → Int → Int} {m1 m2 m3 : Mode} {i : Instr} {s t : State}
    (hi : ∀ m, i ≠ .inp m) (hf : ∀ a b, isWord s.cfg (f a b) = true)
    (h : execCompare f m1 m2 m3 s = .next t) : Effect s i t := by
  obtain ⟨e, he, rfl⟩ | ⟨a, b, d, -, -, hd, rfl⟩ := execCompare_cases h
  · exact .fault i he
  · exact .store hi (wrAddr_lt_limit hd) (hf a b)

theorem execJump_effect {p : Int → Bool} {m1 m2 : Mode} {i : Instr} {s t : State}
    (hi : ∀ m, i ≠ .inp m) (h : execJump p m1 m2 s = .next t) : Effect s i t := by
  obtain ⟨e, he, rfl⟩ | ⟨a, b, -, -, ⟨-, x, hx, rfl⟩ | ⟨-, rfl⟩⟩ := execJump_cases h
  · exact .fault i he
  · obtain ⟨h0, hlt, rfl⟩ := chkA_eq_ok.1 hx
    exact .jump hi (by omega)
  · exact .fallThrough hi

/-- Every instruction has one of the effects. -/
theorem exec_effect {i : Instr} {s t : State} (h : exec i s = .next t) : Effect s i t := by
  cases i with
  | add => exact execArith_effect (by simp) h
  | mul => exact execArith_effect (by simp) h
  | inp m =>
    obtain ⟨e, he, rfl⟩ | ⟨d, hd, ⟨hq, hc, rfl⟩ | ⟨v, rest, hq, rfl⟩⟩ := execInp_cases h
    · exact .fault _ he
    · exact .wait hd hq hc
    · exact .input hd hq
  | out m =>
    obtain ⟨e, he, rfl⟩ | ⟨v, hv, hd, rfl⟩ := execOut_cases h
    · exact .fault _ he
    · exact .output hv hd
  | jnz => exact execJump_effect (by simp) h
  | jz => exact execJump_effect (by simp) h
  | lt => exact execCompare_effect (by simp) (fun _ _ => truthWord_isWord _ _) h
  | eq => exact execCompare_effect (by simp) (fun _ _ => truthWord_isWord _ _) h
  | arb m =>
    obtain ⟨e, he, rfl⟩ | ⟨a, -, hw, rfl⟩ := execArb_cases h
    · exact .fault _ he
    · exact .setRb hw
  | halt =>
    cases h
    exact .halt

/-- A step takes the fault of its fetch or decode, or has an effect of the decoded instruction. -/
theorem step_effect {s t : State} (h : step s = .next t) :
    noStep s = none ∧ ((∃ e, MachineRaise s.cfg e ∧ t = faultEntry e s) ∨
      ∃ i, fetchDecode s = .ok i ∧ Effect s i t) := by
  obtain ⟨hn, ⟨e, he, rfl⟩ | ⟨i, hi, hx⟩⟩ := step_cases h
  · exact ⟨hn, .inl ⟨e, fetchDecode_raisesOnly s e he, rfl⟩⟩
  · exact ⟨hn, .inr ⟨i, hi, exec_effect hx⟩⟩

/-! ### What no step writes -/

/-- The parameters, `started`, and the bits that the far ends of the channels own. -/
structure SameFarEnds (s t : State) : Prop where
  cfg : t.cfg = s.cfg
  started : t.started = s.started
  inClosed : t.inClosed = s.inClosed
  outDropped : t.outDropped = s.outDropped

theorem faultEntry_sameFarEnds (e : Raised) (s : State) : SameFarEnds s (faultEntry e s) := by
  constructor <;> simp

theorem Effect.sameFarEnds {i : Instr} {s t : State} (h : Effect s i t) : SameFarEnds s t := by
  cases h with
  | fault _ _ => exact faultEntry_sameFarEnds _ s
  | _ => exact ⟨rfl, rfl, rfl, rfl⟩

theorem step_sameFarEnds {s t : State} (h : step s = .next t) : SameFarEnds s t := by
  obtain ⟨-, ⟨e, -, rfl⟩ | ⟨i, -, hx⟩⟩ := step_effect h
  · exact faultEntry_sameFarEnds e s
  · exact hx.sameFarEnds

/-! ### Every step keeps the good states good -/

/-- A machine with an enabled step has been started and has not terminated. -/
theorem started_and_unended_of_noStep {s : State} (h : noStep s = none) :
    s.started = true ∧ s.terminated = false := by
  obtain ⟨hs, hr | ⟨hr, -⟩⟩ := noStep_eq_none.1 h
  · exact ⟨hs, by simp [State.terminated, hr]⟩
  · exact ⟨hs, by simp [State.terminated, hr]⟩

/-- A machine that has not terminated has no fault on record. -/
theorem faultCause_eq_none {s : State} (h : s.Inv) (hr : s.terminated = false) :
    s.faultCause = none := by
  by_contra hne
  simp [State.terminated, h.cause_iff.1 hne] at hr

/-- Only at an IN does a good machine step out of a wait, so at any other instruction it is running. -/
theorem running_of_not_inp {s : State} (h : s.Inv) {i : Instr} (hn : noStep s = none)
    (hf : fetchDecode s = .ok i) (hi : ∀ m, i ≠ .inp m) : s.runState = .running := by
  obtain ⟨-, hr | ⟨hr, -⟩⟩ := noStep_eq_none.1 hn
  · exact hr
  · obtain ⟨m, d, hm, -⟩ := h.waits_at_in hr
    cases hf.symm.trans hm
    exact absurd rfl (hi m)

/-- A machine that has not terminated has its output open. -/
theorem outClosed_eq_false {s : State} (h : s.Inv) (hr : s.terminated = false) :
    s.outClosed = false := by
  simpa [hr] using h.closed_iff

/-- A machine halts at its HALT. -/
theorem enterHalted_keeps_inv {s : State} (h : s.Inv) (hs : s.started = true)
    (hr : s.terminated = false) (hf : fetchDecode s = .ok .halt) : s.enterHalted.Inv :=
  { h with
    closed_iff := by simp [State.terminated]
    cause_iff := by simp [faultCause_eq_none h hr]
    record_ip := by simp
    record_word := by simp
    waits_at_in := by simp
    halted_at_halt := fun _ => hf
    not_started := by simp [hs] }

/-- A machine waits at an IN whose destination resolves. -/
theorem wait_keeps_inv {s : State} (h : s.Inv) (hs : s.started = true) (hr : s.terminated = false)
    {m : Mode} {d : Nat} (hf : fetchDecode s = .ok (.inp m)) (hd : wrAddr s 1 m = .ok d) :
    (s.setRun .waitingOnInput).Inv :=
  { h with
    closed_iff := by simp [State.terminated, outClosed_eq_false h hr]
    cause_iff := by simp [faultCause_eq_none h hr]
    record_ip := by simp
    record_word := by simp
    waits_at_in := fun _ => ⟨m, d, hf, hd⟩
    halted_at_halt := by simp
    not_started := by simp [hs] }

/-- An effect of the instruction that a good machine fetches leaves the machine good. -/
theorem Effect.keeps_inv {s t : State} {i : Instr} (h : s.Inv) (hn : noStep s = none)
    (hf : fetchDecode s = .ok i) (hx : Effect s i t) : t.Inv := by
  obtain ⟨hs, hr⟩ := started_and_unended_of_noStep hn
  have hip : s.ip < s.cfg.addrLimit := (fetchDecode_eq_ok.1 hf).1
  have hmem := And.intro h.mem_wf (And.intro h.mem_addr h.mem_word)
  have hadvance (n : Nat) (hle : n ≤ 4) : s.ip + n < s.cfg.addrLimit + 4 := by omega
  have hrun := running_of_not_inp h hn hf
  cases hx with
  | fault _ he => exact faultEntry_keeps_inv h hs he
  | halt => exact enterHalted_keeps_inv h hs hr hf
  | wait hd _ _ => exact wait_keeps_inv h hs hr hf hd
  | @input m d v rest hd hq =>
    have hword : ∀ x ∈ v :: rest, isWord s.cfg x = true := hq ▸ h.inQ_word
    obtain ⟨hv, hrest⟩ := List.forall_mem_cons.1 hword
    exact running_keeps_inv h hs hr rfl rfl rfl (store_keeps_mem h (wrAddr_lt_limit hd) hv) h.rb_word
      hrest h.outQ_word (hadvance 2 (by decide)) rfl rfl h.dropped_empty
  | @output m v hv hopen =>
    have hout : ∀ x ∈ s.outQ ++ [v], isWord s.cfg x = true :=
      List.forall_mem_append.2 ⟨h.outQ_word, by simpa using rdOp_isWord h hv⟩
    exact running_keeps_inv h hs hr rfl rfl (hrun (by simp)) hmem h.rb_word h.inQ_word hout
      (hadvance 2 (by decide)) rfl rfl (by simp [hopen])
  | store hi hd hv =>
    exact running_keeps_inv h hs hr rfl rfl (hrun hi) (store_keeps_mem h hd hv) h.rb_word h.inQ_word
      h.outQ_word (hadvance 4 (by decide)) rfl rfl h.dropped_empty
  | @jump _ a hi ha =>
    exact running_keeps_inv h hs hr rfl rfl (hrun hi) hmem h.rb_word h.inQ_word h.outQ_word
      (show a < s.cfg.addrLimit + 4 by omega) rfl rfl h.dropped_empty
  | fallThrough hi =>
    exact running_keeps_inv h hs hr rfl rfl (hrun hi) hmem h.rb_word h.inQ_word h.outQ_word
      (hadvance 3 (by decide)) rfl rfl h.dropped_empty
  | setRb hv =>
    exact running_keeps_inv h hs hr rfl rfl (hrun (by simp)) hmem hv h.inQ_word h.outQ_word
      (hadvance 2 (by decide)) rfl rfl h.dropped_empty

/-- Every step keeps the good states good. -/
theorem step_keeps_inv {s t : State} (h : s.Inv) (ht : step s = .next t) : t.Inv := by
  obtain ⟨hn, ⟨e, he, rfl⟩ | ⟨i, hf, hx⟩⟩ := step_effect ht
  · exact faultEntry_keeps_inv h (started_and_unended_of_noStep hn).1 he
  · exact hx.keeps_inv h hn hf

end Sys2Proof.Machine
end

section
/-! The host's operations on one machine touch its two endpoints and `started` only, and keep it good. -/

namespace Sys2Proof.Machine

/-- Writing words to the channels, closing, dropping and starting keep a good machine good: a dropped
queue has to be empty, and a machine that is still not started has sent nothing. -/
theorem endpoints_keep_inv {s : State} (h : s.Inv) {started inClosed outDropped : Bool}
    {inQ outQ : List Int} (hin : ∀ v ∈ inQ, isWord s.cfg v = true)
    (hout : ∀ v ∈ outQ, isWord s.cfg v = true) (hdrop : outDropped = true → outQ = [])
    (hstart : started = false → s.started = false ∧ outQ = []) :
    ({ s with started := started, inQ := inQ, inClosed := inClosed, outQ := outQ
              outDropped := outDropped } : State).Inv :=
  { h with
    inQ_word := hin
    outQ_word := hout
    dropped_empty := hdrop
    not_started := fun hnew => by
      obtain ⟨hold, hq⟩ := hstart hnew
      obtain ⟨hip, hrb, hrun, -, hopen⟩ := h.not_started hold
      exact ⟨hip, hrb, hrun, hq, hopen⟩ }

/-- Before start nothing has been sent. -/
theorem outQ_eq_nil_of_not_started {s : State} (h : s.Inv) (hs : s.started = false) :
    s.started = false ∧ s.outQ = [] := by
  obtain ⟨-, -, -, hq, -⟩ := h.not_started hs
  exact ⟨hs, hq⟩

/-- Any words as input, and the input open or closed. -/
theorem setInput_keeps_inv {s : State} (h : s.Inv) {inQ : List Int} {inClosed : Bool}
    (hin : ∀ v ∈ inQ, isWord s.cfg v = true) :
    ({ s with inQ := inQ, inClosed := inClosed } : State).Inv :=
  endpoints_keep_inv h hin h.outQ_word h.dropped_empty (outQ_eq_nil_of_not_started h)

/-- Any part of the output left, and the consumer there or gone. -/
theorem setOutput_keeps_inv {s : State} (h : s.Inv) {outQ : List Int} {outDropped : Bool}
    (hout : outQ ⊆ s.outQ) (hdrop : outDropped = true → outQ = []) :
    ({ s with outQ := outQ, outDropped := outDropped } : State).Inv :=
  endpoints_keep_inv h h.inQ_word (fun v hv => h.outQ_word v (hout hv)) hdrop fun hs =>
    ⟨hs, List.subset_nil.1 ((outQ_eq_nil_of_not_started h hs).2 ▸ hout)⟩

theorem feed_keeps_inv {s : State} (h : s.Inv) {vs : List Int}
    (hvs : ∀ v ∈ vs, isWord s.cfg v = true) : (s.feed vs).Inv :=
  setInput_keeps_inv h (List.forall_mem_append.2 ⟨h.inQ_word, hvs⟩)

theorem push_keeps_good {s t : State} {v : Int} {r : Reply} (h : s.Inv) (ht : s.push v = .done t r) :
    t.Inv ∧ SameParameters s t := by
  obtain ⟨-, hv, rfl⟩ := push_cases ht
  exact ⟨feed_keeps_inv h (by simpa using hv), rfl⟩

theorem close_keeps_good {s t : State} {r : Reply} (h : s.Inv) (ht : s.close = .done t r) :
    t.Inv ∧ SameParameters s t := by
  cases ht
  exact ⟨setInput_keeps_inv h h.inQ_word, rfl⟩

theorem start_keeps_good {s t : State} {r : Reply} (h : s.Inv) (ht : s.start = .done t r) :
    t.Inv ∧ SameParameters s t := by
  obtain ⟨-, rfl, -⟩ := start_cases ht
  exact ⟨endpoints_keep_inv h h.inQ_word h.outQ_word h.dropped_empty (by simp), rfl⟩

theorem pop_keeps_good {s t : State} {r : Reply} (h : s.Inv) (ht : s.pop = .done t r) :
    t.Inv ∧ SameParameters s t := by
  obtain ⟨hd, ⟨v, rest, hq, rfl, -⟩ | ⟨-, -, rfl, -⟩⟩ := pop_cases ht
  · exact ⟨setOutput_keeps_inv h (by simp [hq]) (by simp [hd]), rfl⟩
  · exact ⟨h, rfl⟩

theorem drop_keeps_good {s t : State} {r : Reply} (h : s.Inv) (ht : s.drop = .done t r) :
    t.Inv ∧ SameParameters s t := by
  cases ht
  exact ⟨setOutput_keeps_inv h (List.nil_subset _) fun _ => rfl, rfl⟩

/-- Settles O47, operation by operation: each writes `started` or one endpoint, or nothing at all. -/
theorem hostOperationsKeepStatesGood : Obligations.HostOperationsKeepStatesGood := by
  rintro s t f r h (rfl | rfl | rfl | rfl | rfl | ⟨v, rfl⟩ | ⟨a, rfl⟩) ht
  · exact close_keeps_good h ht
  · exact start_keeps_good h ht
  · exact pop_keeps_good h ht
  · exact drop_keeps_good h ht
  · obtain ⟨-, rfl, -⟩ := join_cases ht
    exact ⟨h, rfl⟩
  · exact push_keeps_good h ht
  · obtain ⟨-, -, rfl, -⟩ := peek_cases ht
    exact ⟨h, rfl⟩

end Sys2Proof.Machine
end

section
/-! Construction: what the loader puts into memory is words at valid addresses, and what is no word is
refused. -/

namespace Sys2Proof.Machine

/-! ### The words of a program text -/

/-- A number that is added to the numbers read is a word. -/
theorem pushNumber_words {c : Config} {pos mag : Nat} {negative : Bool} {done all : List Int}
    (hd : ∀ x ∈ done, isWord c x = true) (h : pushNumber c pos negative mag done = .ok all) :
    ∀ x ∈ all, isWord c x = true := by
  unfold pushNumber at h
  split at h
  · next hw =>
    cases h
    exact List.forall_mem_cons.2 ⟨hw, hd⟩
  · cases h

/-- The parser, from any point of the grammar on, adds nothing but words to those it has read. -/
theorem parseFrom_words {c : Config} {st : ParseState} {pos : Nat} {done xs : List Int}
    {text : List Char} (hd : ∀ x ∈ done, isWord c x = true)
    (h : parseFrom c st pos done text = .ok xs) : ∀ x ∈ xs, isWord c x = true := by
  induction text generalizing st pos done with
  | nil =>
    cases st with
    | number p n mag =>
      obtain ⟨all, hall, h⟩ := bind_eq_ok.1 h
      cases h
      simpa using pushNumber_words hd hall
    | trail =>
      cases h
      simpa using hd
    | _ => cases h
  | cons ch rest ih =>
    cases st with
    | lead =>
      simp only [parseFrom] at h
      split at h
      · exact ih hd h
      split at h
      · exact ih hd h
      split at h
      · exact ih hd h
      · cases h
    | field =>
      simp only [parseFrom] at h
      split at h
      · exact ih hd h
      split at h
      · exact ih hd h
      · cases h
    | sign p =>
      simp only [parseFrom] at h
      split at h
      · exact ih hd h
      · cases h
    | number p n mag =>
      simp only [parseFrom] at h
      split at h
      · exact ih hd h
      split at h
      · split at h
        · cases h
        · next hall => exact ih (pushNumber_words hd hall) h
      split at h
      · split at h
        · cases h
        · next hall => exact ih (pushNumber_words hd hall) h
      · cases h
    | trail =>
      simp only [parseFrom] at h
      split at h
      · exact ih hd h
      · cases h

theorem parseText_words {c : Config} {text : List Char} {xs : List Int}
    (h : parseText c text = .ok xs) : ∀ x ∈ xs, isWord c x = true :=
  parseFrom_words (done := []) (by simp) h

/-! ### The cells of the image and of the overrides -/

/-- The image lists words of the program. -/
theorem imageFrom_word_mem {a : Nat} {xs : List Int} {p : Cell} (h : p ∈ imageFrom a xs) :
    p.2 ∈ xs := by
  induction xs generalizing a with
  | nil => cases h
  | cons x xs ih =>
    simp only [imageFrom] at h
    split at h
    · exact List.mem_cons_of_mem _ (ih h)
    · obtain rfl | h := List.mem_cons.1 h
      · exact List.mem_cons_self
      · exact List.mem_cons_of_mem _ (ih h)

/-- The image that is loaded: of fewer words than there are addresses. -/
theorem loadImage_eq_ok {c : Config} {xs : List Int} {m : Memory} (h : loadImage c xs = .ok m) :
    xs.length < c.addrLimit ∧ m = imageFrom 0 xs := by
  unfold loadImage at h
  split at h
  · cases h
  · next hlen =>
    cases h
    exact ⟨Nat.lt_of_not_le hlen, rfl⟩

/-- Every listed cell is a word at a valid address. -/
def GoodCells (c : Config) (m : Memory) : Prop :=
  ∀ p ∈ m, p.1 < c.addrLimit ∧ isWord c p.2 = true

theorem loadImage_goodCells {c : Config} {xs : List Int} {m : Memory}
    (hx : ∀ x ∈ xs, isWord c x = true) (h : loadImage c xs = .ok m) : GoodCells c m := by
  obtain ⟨hlen, rfl⟩ := loadImage_eq_ok h
  intro p hp
  have hbelow := imageFrom_below 0 xs p hp
  exact ⟨by omega, hx _ (imageFrom_word_mem hp)⟩

theorem applyOverrides_goodCells {c : Config} {ov : List (Int × Int)} {m m' : Memory}
    (hm : GoodCells c m) (ho : ∀ p ∈ ov, isWord c p.2 = true)
    (h : applyOverrides c ov m = .ok m') : GoodCells c m' := by
  induction ov generalizing m with
  | nil =>
    cases h
    exact hm
  | cons o ov ih =>
    obtain ⟨x, v⟩ := o
    obtain ⟨hv, ho⟩ := List.forall_mem_cons.1 ho
    simp only [applyOverrides] at h
    split at h
    · cases h
    · next a ha =>
      obtain ⟨h0, hlt, rfl⟩ := chkA_eq_ok.1 ha
      refine ih (fun p hp => ?_) ho h
      obtain hp | ⟨rfl, -⟩ := Memory.mem_write hp
      · exact hm p hp
      · exact ⟨by omega, hv⟩

/-! ### The constructed machine -/

/-- A fresh machine is good when its memory is. -/
theorem fresh_inv {c : Config} {m : Memory} (hc : 0 < c.addrLimit) (hwf : m.wf)
    (hm : GoodCells c m) : (State.fresh c m).Inv where
  limit_pos := hc
  mem_wf := hwf
  mem_addr p hp := (hm p hp).1
  mem_word p hp := (hm p hp).2
  rb_word := isWord_zero c
  inQ_word := by simp [State.fresh]
  outQ_word := by simp [State.fresh]
  ip_bound := Nat.add_pos_left hc 4
  closed_iff := by simp [State.fresh, State.terminated]
  cause_iff := by simp [State.fresh]
  cause_not_parse := by simp [State.fresh]
  cause_overflow := by simp [State.fresh]
  record_ip := by simp [State.fresh]
  record_word := by simp [State.fresh]
  dropped_empty := by simp [State.fresh]
  waits_at_in := by simp [State.fresh]
  halted_at_halt := by simp [State.fresh]
  not_started := by simp [State.fresh]

/-- Settles O44: text, image and overrides bring only words at valid addresses into memory, and the rest
is as in every fresh machine. -/
theorem constructedMachineIsGood : Obligations.ConstructedMachineIsGood := by
  intro c text ov s hc h
  obtain ⟨ho, xs, image, m, hx, hi, hm, rfl⟩ := construct_cases h
  have himage : image.wf := (loadImage_eq_ok hi).2 ▸ imageFrom_wf 0 xs
  exact fresh_inv hc (applyOverrides_wf himage hm)
    (applyOverrides_goodCells (loadImage_goodCells (parseText_words hx) hi) ho hm)

/-! ### What is no word -/

/-- A construction is refused for the overrides' values and for nothing else. -/
theorem construct_eq_refused {c : Config} {text : List Char} {ov : List (Int × Int)} :
    construct c text ov = .refused ↔ ∃ p ∈ ov, isWord c p.2 = false := by
  unfold construct
  split
  · next hw =>
    have hall : ∀ p ∈ ov, isWord c p.2 = true := by simpa using hw
    constructor
    · intro h
      split at h <;> cases h
    · rintro ⟨p, hp, hno⟩
      simp [hall p hp] at hno
  · next hw => simpa using hw

/-- Settles O59: `push` tests its value, and `construct` those of its overrides before it builds. -/
theorem hostBringsOnlyWords : Obligations.HostBringsOnlyWords := by
  refine ⟨fun s v hv => ?_, fun c text ov => construct_eq_refused⟩
  simp [State.push, hv]

end Sys2Proof.Machine
end

section
/-! Systems: replacing one machine, and moving what it sent along its wire, keep what `System.Inv` says of
machines, wires and joins. -/

namespace Sys2Proof.Machine

/-! ### Replacing one machine -/

/-- What `System.Inv` says of one wire. -/
def SharedChannel (ms : List State) (w : Nat × Nat) : Prop :=
  ∀ s t, ms[w.1]? = some s → ms[w.2]? = some t →
    s.outQ = [] ∧ s.outDropped = false ∧ t.inClosed = s.outClosed ∧ t.cfg = s.cfg

/-- Machine `i` going from `s` to `u` changes nothing that the wire `w` shares. -/
structure SameAtWire (w : Nat × Nat) (i : Nat) (s u : State) : Prop where
  cfg : u.cfg = s.cfg
  producer : w.1 = i → u.outQ = s.outQ ∧ u.outDropped = s.outDropped ∧ u.outClosed = s.outClosed
  consumer : w.2 = i → u.inClosed = s.inClosed

theorem getElem?_set_cases {ms : List State} {i k : Nat} {u x : State}
    (h : (ms.set i u)[k]? = some x) : (k = i ∧ x = u) ∨ (k ≠ i ∧ ms[k]? = some x) := by
  rw [List.getElem?_set] at h
  split at h
  · next hik =>
    split at h
    · cases h
      exact .inl ⟨hik.symm, rfl⟩
    · cases h
  · next hik => exact .inr ⟨Ne.symm hik, h⟩

theorem sharedChannel_set {ms : List State} {w : Nat × Nat} {i : Nat} {s u : State}
    (h : SharedChannel ms w) (hs : ms[i]? = some s) (hu : SameAtWire w i s u) :
    SharedChannel (ms.set i u) w := by
  intro p c hp hc
  obtain ⟨h1, rfl⟩ | ⟨-, hp'⟩ := getElem?_set_cases hp <;>
    obtain ⟨h2, rfl⟩ | ⟨-, hc'⟩ := getElem?_set_cases hc
  · obtain ⟨hq, hd, hcl⟩ := hu.producer h1
    rw [hq, hd, hcl, hu.consumer h2]
    simpa using h s s (h1 ▸ hs) (h2 ▸ hs)
  · obtain ⟨hq, hd, hcl⟩ := hu.producer h1
    rw [hq, hd, hcl, hu.cfg]
    exact h s c (h1 ▸ hs) hc'
  · rw [hu.consumer h2, hu.cfg]
    exact h p s hp' (h2 ▸ hs)
  · exact h p c hp' hc'

theorem terminated_set {ms : List State} {i k : Nat} {s u : State} (hs : ms[i]? = some s)
    (hu : s.terminated = true → u.terminated = true)
    (hk : ∃ x, ms[k]? = some x ∧ x.terminated = true) :
    ∃ x, (ms.set i u)[k]? = some x ∧ x.terminated = true := by
  obtain ⟨x, hx, hend⟩ := hk
  by_cases hik : i = k
  · subst hik
    cases hs.symm.trans hx
    exact ⟨u, by simp [(List.getElem?_eq_some_iff.1 hs).1], hu hend⟩
  · exact ⟨x, by rw [List.getElem?_set_ne hik, hx], hend⟩

theorem inv_set {ms : List State} (h : ∀ s ∈ ms, s.Inv) (i : Nat) {u : State} (hu : u.Inv) :
    ∀ s ∈ ms.set i u, s.Inv := by
  intro s hs
  obtain hs | rfl := List.mem_or_eq_of_mem_set hs
  · exact h s hs
  · exact hu

/-- A machine replaced by a good one that looks the same to every wire keeps the system good. -/
theorem setMachine_keeps_inv {sys : System} {i : Nat} {s u : State} (h : sys.Inv)
    (hs : sys.machines[i]? = some s) (hu : u.Inv) (hw : ∀ w ∈ sys.wires, SameAtWire w i s u)
    (hend : s.terminated = true → u.terminated = true) : (sys.setMachine i u).Inv :=
  { h with
    machine := inv_set h.machine i hu
    wire_range := by simpa using h.wire_range
    wire_shared := fun w hmem => sharedChannel_set (h.wire_shared w hmem) hs (hw w hmem)
    joined_ended := fun k hk => terminated_set hs hend (h.joined_ended k hk) }

/-! ### Who is at the other end of a channel -/

theorem consumerOf_eq_some {sys : System} {i j : Nat} (h : sys.consumerOf i = some j) :
    (i, j) ∈ sys.wires := by
  unfold System.consumerOf at h
  obtain ⟨w, hw, rfl⟩ := Option.map_eq_some_iff.1 h
  have hi : w.1 = i := by simpa using List.find?_some hw
  exact hi ▸ List.mem_of_find?_eq_some hw

theorem consumerOf_eq_none {sys : System} {i : Nat} (h : sys.consumerOf i = none) :
    ∀ w ∈ sys.wires, w.1 ≠ i := by
  simpa [System.consumerOf] using h

theorem producerOf_eq_none {sys : System} {j : Nat} (h : sys.producerOf j = none) :
    ∀ w ∈ sys.wires, w.2 ≠ j := by
  simpa [System.producerOf] using h

/-! ### A machine's step -/

theorem place_of_unwired {sys : System} {i : Nat} (h : sys.consumerOf i = none) (t : State) :
    sys.place i t = sys.setMachine i t := by
  simp [System.place, h]

theorem place_of_wired {sys : System} {i j : Nat} {t u : State} (h : sys.consumerOf i = some j)
    (hu : (sys.setMachine i { t with outQ := [] }).machines[j]? = some u) :
    sys.place i t = (sys.setMachine i { t with outQ := [] }).setMachine j
      { u.feed t.outQ with inClosed := t.outClosed } := by
  simp only [System.place, h, hu]

/-- The wire along which a step's output moved: the producer's own queue is empty again and the consumer
has the producer's closed bit. Producer and consumer may be one machine. -/
theorem sharedChannel_sent {ms : List State} {i j : Nat} {t u : State} (hi : i < ms.length)
    (hu : (ms.set i { t with outQ := [] })[j]? = some u) (hd : t.outDropped = false)
    (hcfg : u.cfg = t.cfg) :
    SharedChannel ((ms.set i { t with outQ := [] }).set j
      { u.feed t.outQ with inClosed := t.outClosed }) (i, j) := by
  intro p c hp hc
  have hsent : (ms.set i { t with outQ := [] })[i]? = some { t with outQ := [] } := by simp [hi]
  obtain ⟨-, rfl⟩ | ⟨hne, -⟩ := getElem?_set_cases hc
  · obtain ⟨hij, rfl⟩ | ⟨-, hp'⟩ := getElem?_set_cases hp
    · dsimp only at hij
      subst hij
      cases hsent.symm.trans hu
      exact ⟨rfl, hd, rfl, rfl⟩
    · cases hsent.symm.trans hp'
      exact ⟨rfl, hd, rfl, hcfg⟩
  · exact absurd rfl hne

/-- A step whose output is wired: what it sent, and its `out_closed`, go to the consumer; every other wire
sees neither the producer's output nor the consumer's input. -/
theorem place_wired_keeps_inv {sys : System} {i j : Nat} {s t : State} (h : sys.Inv)
    (hs : sys.machines[i]? = some s) (ht : step s = .next t) (hc : sys.consumerOf i = some j) :
    (sys.place i t).Inv := by
  have hwire := consumerOf_eq_some hc
  have hfar := step_sameFarEnds ht
  have hrun := (started_and_unended_of_noStep (step_cases ht).1).2
  obtain ⟨hi, hj⟩ := h.wire_range _ hwire
  obtain ⟨-, hopen, -, hjcfg⟩ := h.wire_shared _ hwire s _ hs (List.getElem?_eq_getElem hj)
  have htInv : t.Inv := step_keeps_inv (h.machine s (List.mem_of_getElem? hs)) ht
  have hkept := inv_set h.machine i
    (setOutput_keeps_inv htInv (List.nil_subset _) (outDropped := t.outDropped) fun _ => rfl)
  obtain ⟨u, hu⟩ : ∃ u, (sys.machines.set i { t with outQ := [] })[j]? = some u :=
    ⟨_, List.getElem?_eq_getElem (by simpa using hj)⟩
  have hcfg : u.cfg = t.cfg := by
    obtain ⟨-, rfl⟩ | ⟨-, hu'⟩ := getElem?_set_cases hu
    · rfl
    · cases (List.getElem?_eq_getElem hj).symm.trans hu'
      exact hjcfg.trans hfar.cfg.symm
  have hfed : ∀ v ∈ u.inQ ++ t.outQ, isWord u.cfg v = true :=
    have huInv := hkept u (List.mem_of_getElem? hu)
    List.forall_mem_append.2 ⟨huInv.inQ_word, hcfg ▸ htInv.outQ_word⟩
  rw [place_of_wired hc hu]
  exact
    { machine := inv_set hkept j (setInput_keeps_inv (hkept u (List.mem_of_getElem? hu)) hfed)
      wire_range := by simpa using h.wire_range
      one_producer := h.one_producer
      one_consumer := h.one_consumer
      wire_shared := fun w hw => by
        by_cases hsame : w = (i, j)
        · subst hsame
          exact sharedChannel_sent hi hu (hfar.outDropped.trans hopen) hcfg
        · have hne1 : w.1 ≠ i := fun he =>
            hsame (List.inj_on_of_nodup_map h.one_consumer hw hwire he)
          have hne2 : w.2 ≠ j := fun he =>
            hsame (List.inj_on_of_nodup_map h.one_producer hw hwire he)
          exact sharedChannel_set
            (sharedChannel_set (h.wire_shared w hw) hs
              ⟨hfar.cfg, fun he => absurd he hne1, fun _ => hfar.inClosed⟩)
            hu ⟨rfl, fun _ => ⟨rfl, rfl, rfl⟩, fun he => absurd he hne2⟩
      joined_ended := fun k hk =>
        terminated_set hu id (terminated_set hs (by simp [hrun]) (h.joined_ended k hk)) }

theorem place_keeps_inv {sys : System} {i : Nat} {s t : State} (h : sys.Inv)
    (hs : sys.machines[i]? = some s) (ht : step s = .next t) : (sys.place i t).Inv := by
  cases hc : sys.consumerOf i with
  | some j => exact place_wired_keeps_inv h hs ht hc
  | none =>
    have hfar := step_sameFarEnds ht
    have hrun := (started_and_unended_of_noStep (step_cases ht).1).2
    rw [place_of_unwired hc]
    exact setMachine_keeps_inv h hs (step_keeps_inv (h.machine s (List.mem_of_getElem? hs)) ht)
      (fun w hw => ⟨hfar.cfg, fun hi => absurd hi (consumerOf_eq_none hc w hw), fun _ => hfar.inClosed⟩)
      (by simp [hrun])

/-! ### The host's operations -/

/-- A host operation on one machine keeps the system good if it keeps the machine good, running or not as
it was, and the same to every wire. -/
theorem onMachine_keeps_inv {sys t : System} {i : Nat} {f : State → HostResult State} {r : Reply}
    (h : sys.Inv) (ht : sys.onMachine i f = .done t r)
    (hf : ∀ s u r, s.Inv → f s = .done u r →
      u.Inv ∧ u.runState = s.runState ∧ ∀ w ∈ sys.wires, SameAtWire w i s u) : t.Inv := by
  obtain ⟨s, u, hs, hu, rfl⟩ := onMachine_cases ht
  obtain ⟨hInv, hrun, hw⟩ := hf s u r (h.machine s (List.mem_of_getElem? hs)) hu
  exact setMachine_keeps_inv h hs hInv hw (by simp [State.terminated, hrun])

/-- A push writes the input queue, which no wire compares. -/
theorem pushInput_keeps_inv {sys t : System} {j : Nat} {v : Int} {r : Reply} (h : sys.Inv)
    (ht : sys.pushInput j v = .done t r) : t.Inv := by
  have hon : sys.onMachine j (fun s => s.push v) = .done t r := by
    unfold System.pushInput at ht
    split at ht
    · exact ht
    · split at ht
      · cases ht
      · exact ht
  refine onMachine_keeps_inv h hon fun s u r hs hu => ⟨(push_keeps_good hs hu).1, ?_⟩
  obtain ⟨-, -, rfl⟩ := push_cases hu
  exact ⟨rfl, fun w _ => ⟨rfl, fun _ => ⟨rfl, rfl, rfl⟩, fun _ => rfl⟩⟩

/-- The host closes only an input that no wire leads to. -/
theorem closeInput_keeps_inv {sys t : System} {j : Nat} {r : Reply} (h : sys.Inv)
    (ht : sys.closeInput j = .done t r) : t.Inv := by
  unfold System.closeInput at ht
  split at ht
  · next hp =>
    refine onMachine_keeps_inv h ht fun s u r hs hu => ⟨(close_keeps_good hs hu).1, ?_⟩
    cases hu
    exact ⟨rfl, fun w hw =>
      ⟨rfl, fun _ => ⟨rfl, rfl, rfl⟩, fun hj => absurd hj (producerOf_eq_none hp w hw)⟩⟩
  · cases ht

/-- A start writes `started`, which no wire compares. -/
theorem startMachine_keeps_inv {sys t : System} {i : Nat} {r : Reply} (h : sys.Inv)
    (ht : sys.onMachine i State.start = .done t r) : t.Inv := by
  refine onMachine_keeps_inv h ht fun s u r hs hu => ⟨(start_keeps_good hs hu).1, ?_⟩
  obtain ⟨-, rfl, -⟩ := start_cases hu
  exact ⟨rfl, fun w _ => ⟨rfl, fun _ => ⟨rfl, rfl, rfl⟩, fun _ => rfl⟩⟩

/-- A pop of what a terminated consumer left takes the head of its input queue, or nothing. -/
theorem popLeftover_cases {s t : State} {r : Reply} (h : s.popLeftover = .done t r) :
    s.terminated = true ∧
      ((∃ v rest, s.inQ = v :: rest ∧ t = { s with inQ := rest } ∧ r = .word v) ∨
        (s.inQ = [] ∧ s.inClosed = true ∧ t = s ∧ r = .endOfStream)) := by
  unfold State.popLeftover at h
  split at h
  · next hend =>
    refine ⟨hend, ?_⟩
    split at h
    · next v rest hq =>
      cases h
      exact .inl ⟨v, rest, hq, rfl, rfl⟩
    · next hq =>
      split at h
      · next hc =>
        cases h
        exact .inr ⟨hq, hc, rfl, rfl⟩
      · cases h
  · cases h

/-- The host pops an output that no wire leaves from, or the input queue of a wire's consumer. -/
theorem popOutput_keeps_inv {sys t : System} {i : Nat} {r : Reply} (h : sys.Inv)
    (ht : sys.popOutput i = .done t r) : t.Inv := by
  unfold System.popOutput at ht
  split at ht
  · next hc =>
    refine onMachine_keeps_inv h ht fun s u r hs hu => ⟨(pop_keeps_good hs hu).1, ?_⟩
    have hno (w : Nat × Nat) (hw : w ∈ sys.wires) {p : Prop} (hi : w.1 = i) : p :=
      absurd hi (consumerOf_eq_none hc w hw)
    obtain ⟨-, ⟨v, rest, -, rfl, -⟩ | ⟨-, -, rfl, -⟩⟩ := pop_cases hu <;>
      exact ⟨rfl, fun w hw => ⟨rfl, hno w hw, fun _ => rfl⟩⟩
  · refine onMachine_keeps_inv h ht fun s u r hs hu => ?_
    obtain ⟨-, ⟨v, rest, hq, rfl, -⟩ | ⟨-, -, rfl, -⟩⟩ := popLeftover_cases hu
    · have hrest : ∀ x ∈ rest, isWord s.cfg x = true := fun x hx => hs.inQ_word x (by simp [hq, hx])
      exact ⟨setInput_keeps_inv hs hrest, rfl,
        fun w _ => ⟨rfl, fun _ => ⟨rfl, rfl, rfl⟩, fun _ => rfl⟩⟩
    · exact ⟨hs, rfl, fun w _ => ⟨rfl, fun _ => ⟨rfl, rfl, rfl⟩, fun _ => rfl⟩⟩

/-- The host drops only an output that no wire leaves from. -/
theorem dropOutput_keeps_inv {sys t : System} {i : Nat} {r : Reply} (h : sys.Inv)
    (ht : sys.dropOutput i = .done t r) : t.Inv := by
  unfold System.dropOutput at ht
  split at ht
  · next hc =>
    refine onMachine_keeps_inv h ht fun s u r hs hu => ⟨(drop_keeps_good hs hu).1, ?_⟩
    cases hu
    exact ⟨rfl, fun w hw => ⟨rfl, fun hi => absurd hi (consumerOf_eq_none hc w hw), fun _ => rfl⟩⟩
  · cases ht

/-- A join changes no machine, and what it adds to `joined` has terminated. -/
theorem joinMachine_keeps_inv {sys t : System} {i : Nat} {r : Reply} (h : sys.Inv)
    (ht : sys.joinMachine i = .done t r) : t.Inv := by
  obtain ⟨s, j, hs, hend, -, rfl⟩ := joinMachine_cases ht
  refine { h with joined_ended := fun k hk => ?_ }
  have hk : k = i ∨ k ∈ sys.joined := by
    dsimp only at hk
    split at hk
    · exact .inr hk
    · exact List.mem_cons.1 hk
  obtain rfl | hk := hk
  · exact ⟨s, hs, hend⟩
  · exact h.joined_ended k hk

/-- An inspection changes nothing. -/
theorem peekMachine_eq {sys t : System} {i a : Nat} {r : Reply}
    (ht : sys.peekMachine i a = .done t r) : t = sys := by
  unfold System.peekMachine at ht
  split at ht
  · obtain ⟨s, u, hs, hu, rfl⟩ := onMachine_cases ht
    obtain ⟨-, -, rfl, -⟩ := peek_cases hu
    exact System.setMachine_self hs
  · cases ht

/-- Settles O53, action by action: a machine's step is placed along its wire, a host operation replaces one
machine without touching what a wire shares. -/
theorem actionsKeepSystemsGood : Obligations.ActionsKeepSystemsGood := by
  intro sys t a r h ht
  cases a with
  | run i =>
    obtain ⟨s, u, hs, hu, rfl, -⟩ := runMachine_cases ht
    exact place_keeps_inv h hs hu
  | push j v => exact pushInput_keeps_inv h ht
  | close j => exact closeInput_keeps_inv h ht
  | start i => exact startMachine_keeps_inv h ht
  | pop i => exact popOutput_keeps_inv h ht
  | drop i => exact dropOutput_keeps_inv h ht
  | join i => exact joinMachine_keeps_inv h ht
  | peek i p => exact peekMachine_eq ht ▸ h

end Sys2Proof.Machine
end

section
/-! One machine: what its steps keep, what they do to its channels, and when two memories are one. -/

namespace Sys2Proof.Machine

/-! ### The invariant at reset and at every step -/

/-- Settles O40: every effect of an instruction keeps good states good, and no step writes the parameters. -/
theorem stepKeepsStatesGood : Obligations.StepKeepsStatesGood :=
  fun _ _ h ht => ⟨step_keeps_inv h ht, (step_sameFarEnds ht).cfg⟩

/-- Settles O41: the reset state is a fresh machine with nothing in memory. -/
theorem resetStateIsGood : Obligations.ResetStateIsGood :=
  fresh_inv (by decide) Memory.wf_nil (by simp [GoodCells])

/-- Settles O42, by running the construction of the text `0`; the empty memory reads 0 everywhere. -/
theorem resetStateIsAsSpecified : Obligations.ResetStateIsAsSpecified :=
  ⟨rfl, Memory.read_nil, rfl, rfl, rfl, rfl, rfl, rfl, rfl, rfl, rfl, rfl⟩

/-! ### What a step does to the channels -/

/-- Only an IN takes from `InQ`, and it takes the head (10_state.md R30). -/
theorem Effect.inQ_cases {s t : State} {i : Instr} (h : Effect s i t) :
    t.inQ = s.inQ ∨ ∃ m v, i = .inp m ∧ s.inQ = v :: t.inQ := by
  cases h with
  | fault _ _ => exact .inl (faultEntry_inQ _ s)
  | input _ hq => exact .inr ⟨_, _, rfl, hq⟩
  | _ => exact .inl rfl

/-- Only an OUT appends to `OutQ`, and it appends its operand (10_state.md R32). -/
theorem Effect.outQ_cases {s t : State} {i : Instr} (h : Effect s i t) :
    t.outQ = s.outQ ∨ ∃ m v, i = .out m ∧ rdOp s 1 m = .ok v ∧ t.outQ = s.outQ ++ [v] := by
  cases h with
  | fault _ _ => exact .inl (faultEntry_outQ _ s)
  | output hv _ => exact .inr ⟨_, _, rfl, hv, rfl⟩
  | _ => exact .inl rfl

theorem faultEntry_terminated (e : Raised) (s : State) : (faultEntry e s).terminated = true := by
  simp [State.terminated]

/-- The output closes on entry to `Halted` and to `Faulted` only (10_state.md R33). -/
theorem Effect.outClosed_cases {s t : State} {i : Instr} (h : Effect s i t) :
    t.outClosed = s.outClosed ∨ t.terminated = true := by
  cases h with
  | fault _ _ => exact .inr (faultEntry_terminated _ s)
  | halt => exact .inr rfl
  | _ => exact .inl rfl

/-- Settles O36: a fault of fetch or decode keeps both queues, and the rest is read off the effect of the
decoded instruction. -/
theorem channelsChangeOnlyByInAndOut : Obligations.ChannelsChangeOnlyByInAndOut := by
  intro s t ht
  have hfar := step_sameFarEnds ht
  obtain ⟨-, ⟨e, -, rfl⟩ | ⟨i, hf, hx⟩⟩ := step_effect ht
  · exact ⟨.inl (faultEntry_inQ e s), .inl (faultEntry_outQ e s), hfar.inClosed, hfar.outDropped,
      hfar.started, hfar.cfg, fun _ => faultEntry_terminated e s⟩
  · refine ⟨hx.inQ_cases.imp_right ?_, hx.outQ_cases.imp_right ?_, hfar.inClosed, hfar.outDropped,
      hfar.started, hfar.cfg, hx.outClosed_cases.resolve_left⟩
    · rintro ⟨m, v, rfl, hq⟩
      exact ⟨m, v, hf, hq⟩
    · rintro ⟨m, v, rfl, hv⟩
      exact ⟨m, v, hf, hv⟩

/-! ### Canonical memories -/

/-- A canonical memory reads 0 below its first listed address. -/
theorem Memory.head_le_of_read_ne_zero {b : Nat} {u : Int} {m : Memory} {a : Nat}
    (h : Memory.wf ((b, u) :: m)) (ha : Memory.read ((b, u) :: m) a ≠ 0) : b ≤ a := by
  by_contra hlt
  have hab : a < b := by omega
  exact ha (Memory.read_of_lt (List.forall_mem_cons.2
    ⟨hab, fun p hp => hab.trans ((Memory.wf_cons.1 h).1 p hp)⟩))

@[simp] theorem Memory.read_head (b : Nat) (u : Int) (m : Memory) :
    Memory.read ((b, u) :: m) b = u := by simp [Memory.read_cons]

/-- Two canonical lists that read alike start with the same cell: each head is read as a word other
than 0, so neither list starts above the other. -/
theorem Memory.head_eq_of_read_eq {a b : Nat} {u v : Int} {m m' : Memory}
    (h : Memory.wf ((a, u) :: m)) (h' : Memory.wf ((b, v) :: m'))
    (hread : ∀ x, Memory.read ((a, u) :: m) x = Memory.read ((b, v) :: m') x) : a = b ∧ u = v := by
  obtain ⟨-, hu, -⟩ := Memory.wf_cons.1 h
  obtain ⟨-, hv, -⟩ := Memory.wf_cons.1 h'
  have hba : b ≤ a := Memory.head_le_of_read_ne_zero h' (by simpa [← hread a] using hu)
  have hab : a ≤ b := Memory.head_le_of_read_ne_zero h (by simpa [hread b] using hv)
  obtain rfl := Nat.le_antisymm hab hba
  exact ⟨rfl, by simpa using hread a⟩

/-- Without the cell they start with, two canonical lists still read alike: there both read 0. -/
theorem Memory.tail_read_eq {b : Nat} {u : Int} {m m' : Memory}
    (h : Memory.wf ((b, u) :: m)) (h' : Memory.wf ((b, u) :: m'))
    (hread : ∀ x, Memory.read ((b, u) :: m) x = Memory.read ((b, u) :: m') x) (x : Nat) :
    m.read x = m'.read x := by
  by_cases hx : x = b
  · subst hx
    rw [Memory.read_of_lt (Memory.wf_cons.1 h).1, Memory.read_of_lt (Memory.wf_cons.1 h').1]
  · simpa [Memory.read_cons, hx] using hread x

/-- Settles O25, by induction on both lists; a list that starts with a cell does not read as the empty
one. -/
theorem memoriesThatReadAlikeAreEqual : Obligations.MemoriesThatReadAlikeAreEqual := by
  intro m m' h h' hread
  induction m generalizing m' with
  | nil =>
    cases m' with
    | nil => rfl
    | cons q m' =>
      obtain ⟨b, v⟩ := q
      obtain ⟨-, hv, -⟩ := Memory.wf_cons.1 h'
      exact absurd (by simpa using (hread b).symm) hv
  | cons p m ih =>
    obtain ⟨a, u⟩ := p
    obtain ⟨-, hu, hm⟩ := Memory.wf_cons.1 h
    cases m' with
    | nil => exact absurd (by simpa using hread a) hu
    | cons q m' =>
      obtain ⟨b, v⟩ := q
      obtain ⟨-, -, hm'⟩ := Memory.wf_cons.1 h'
      obtain ⟨rfl, rfl⟩ := Memory.head_eq_of_read_eq h h' hread
      rw [ih m' hm hm' (Memory.tail_read_eq h h' hread)]

end Sys2Proof.Machine
end

section
/-! Construction: which word each cell of a constructed machine holds. -/

namespace Sys2Proof.Machine

/-- The image holds the program's words from its start on, and 0 after them (70_reset_and_hazards.md
R193). -/
theorem read_imageFrom (a k : Nat) (xs : List Int) :
    (imageFrom a xs).read (a + k) = xs[k]?.getD 0 := by
  induction xs generalizing a k with
  | nil => rfl
  | cons x xs ih =>
    have habove : (imageFrom (a + 1) xs).read a = 0 :=
      Memory.read_of_lt fun p hp => imageFrom_above (a + 1) xs p hp
    cases k with
    | zero =>
      simp only [imageFrom]
      split
      · next hx => simp [habove, hx]
      · simp
    | succ k =>
      have htail : (imageFrom (a + 1) xs).read (a + (k + 1)) = xs[k]?.getD 0 := by
        rw [← ih (a + 1) k, Nat.add_right_comm, Nat.add_assoc]
      simp only [imageFrom]
      split
      · simpa using htail
      · simpa [Memory.read_cons] using htail

/-- The first pair of a list counts only when no later one is for the same address. -/
theorem lastOverride_cons (x v : Int) (ov : List (Int × Int)) (a : Nat) :
    lastOverride ((x, v) :: ov) a = (lastOverride ov a).or (if x = a then some v else none) := by
  rw [lastOverride, List.reverse_cons, List.find?_append, Option.map_or]
  by_cases hx : x = a <;> simp [lastOverride, hx]

/-- Overrides that apply have valid addresses, and each cell then holds the last one for it, else what
it held (70_reset_and_hazards.md R194). -/
theorem applyOverrides_eq_ok {c : Config} {ov : List (Int × Int)} {m m' : Memory} (hm : m.wf)
    (h : applyOverrides c ov m = .ok m') :
    (∀ p ∈ ov, ValidAddr c p.1) ∧ ∀ a, m'.read a = (lastOverride ov a).getD (m.read a) := by
  induction ov generalizing m with
  | nil =>
    cases h
    exact ⟨by simp, fun _ => rfl⟩
  | cons o ov ih =>
    obtain ⟨x, v⟩ := o
    simp only [applyOverrides] at h
    split at h
    · cases h
    · next d hd =>
      obtain ⟨h0, hlt, rfl⟩ := chkA_eq_ok.1 hd
      obtain ⟨hvalid, hread⟩ := ih (Memory.write_wf hm _ _) h
      refine ⟨List.forall_mem_cons.2 ⟨⟨h0, hlt⟩, hvalid⟩, fun a => ?_⟩
      have hxa : a = x.toNat ↔ x = a := by omega
      rw [hread a, lastOverride_cons, Memory.read_write hm]
      simp only [hxa]
      cases lastOverride ov a with
      | some w => rfl
      | none => split <;> rfl

/-- Settles O43: the overrides patch the image, and every other element is a fresh machine's. -/
theorem constructionLoadsImageAndOverrides : Obligations.ConstructionLoadsImageAndOverrides := by
  intro c text ov s h
  obtain ⟨-, xs, image, m, hx, hi, hm, rfl⟩ := construct_cases h
  obtain ⟨hlen, rfl⟩ := loadImage_eq_ok hi
  obtain ⟨hvalid, hread⟩ := applyOverrides_eq_ok (imageFrom_wf 0 xs) hm
  refine ⟨⟨xs, hx, hlen, hvalid, fun a => ?_⟩, rfl, rfl, rfl, rfl, rfl, rfl, rfl, rfl, rfl, rfl, rfl⟩
  have himage := read_imageFrom 0 a xs
  rw [Nat.zero_add] at himage
  exact (hread a).trans (by rw [himage])

end Sys2Proof.Machine
end

section
/-! Systems: what a machine's step leaves in each machine, by where its output is wired. -/

namespace Sys2Proof.Machine

/-- An output that another machine consumes. -/
theorem place_machines_of_wired {sys : System} {i j : Nat} {t u : State}
    (hc : sys.consumerOf i = some j) (hij : i ≠ j) (hu : sys.machines[j]? = some u) :
    (sys.place i t).machines = (sys.machines.set i { t with outQ := [] }).set j
      { u with inQ := u.inQ ++ t.outQ, inClosed := t.outClosed } := by
  rw [place_of_wired (t := t) hc (by simpa [List.getElem?_set_ne hij] using hu)]
  rfl

/-- An output wired to the machine's own input. -/
theorem place_machines_of_selfWired {sys : System} {i : Nat} {t : State}
    (hc : sys.consumerOf i = some i) (hi : i < sys.machines.length) :
    (sys.place i t).machines = sys.machines.set i
      { t with inQ := t.inQ ++ t.outQ, outQ := [], inClosed := t.outClosed } := by
  rw [place_of_wired (t := t) hc (List.getElem?_set_self hi)]
  exact List.set_set _

/-- The consumer of an output is one of the machines. -/
theorem consumer_exists {sys : System} {i j : Nat} (h : sys.Inv) (hc : sys.consumerOf i = some j) :
    ∃ u, sys.machines[j]? = some u :=
  ⟨_, List.getElem?_eq_getElem (h.wire_range _ (consumerOf_eq_some hc)).2⟩

/-- A machine that is not its own consumer is as after its step, what it sent being moved away. -/
theorem place_getElem?_self {sys : System} {i : Nat} {t : State} (h : sys.Inv)
    (hi : i < sys.machines.length) (hself : sys.consumerOf i ≠ some i) :
    ∃ u, (sys.place i t).machines[i]? = some u ∧ u = { t with outQ := u.outQ } ∧
      (sys.consumerOf i = none → u = t) ∧ (sys.consumerOf i ≠ none → u.outQ = []) := by
  cases hc : sys.consumerOf i with
  | none =>
    rw [place_of_unwired hc]
    exact ⟨t, List.getElem?_set_self hi, rfl, fun _ => rfl, fun hne => absurd rfl hne⟩
  | some j =>
    have hij : i ≠ j := fun he => hself (he ▸ hc)
    obtain ⟨w, hw⟩ := consumer_exists h hc
    rw [place_machines_of_wired hc hij hw, List.getElem?_set_ne hij.symm]
    exact ⟨{ t with outQ := [] }, List.getElem?_set_self hi, rfl, by simp, fun _ => rfl⟩

/-- Another machine changes only as the consumer: its input queue and closed bit. -/
theorem place_getElem?_other {sys : System} {i j : Nat} {t u : State} (h : sys.Inv)
    (hi : i < sys.machines.length) (hji : j ≠ i) (hu : sys.machines[j]? = some u) :
    (sys.place i t).machines[j]? = some (if sys.consumerOf i = some j then
      { u with inQ := u.inQ ++ t.outQ, inClosed := t.outClosed } else u) := by
  have hj : j < sys.machines.length := (List.getElem?_eq_some_iff.1 hu).1
  cases hc : sys.consumerOf i with
  | none => simp [place_of_unwired hc, List.getElem?_set_ne hji.symm, hu]
  | some k =>
    by_cases hik : i = k
    · subst hik
      simp [place_machines_of_selfWired hc hi, List.getElem?_set_ne hji.symm, hu, hji.symm]
    · obtain ⟨w, hw⟩ := consumer_exists h hc
      rw [place_machines_of_wired hc hik hw]
      by_cases hkj : k = j
      · subst hkj
        cases hu.symm.trans hw
        simp [hj]
      · simp [List.getElem?_set_ne hkj, List.getElem?_set_ne hji.symm, hu, hkj]

/-- A machine that steps alone steps in the system, and its next state is placed. -/
theorem act_run_of_step {sys : System} {i : Nat} {s t : State} (hs : sys.machines[i]? = some s)
    (ht : step s = .next t) : sys.act (.run i) = .done (sys.place i t) .nothing := by
  simp [System.act, System.runMachine, hs, ht]

/-- Settles O54: the system after the step is the placed one, looked at machine by machine. -/
theorem machineStepTouchesOnlyItsChannel : Obligations.MachineStepTouchesOnlyItsChannel := by
  intro sys i s t h hs ht
  have hi : i < sys.machines.length := (List.getElem?_eq_some_iff.1 hs).1
  refine ⟨sys.place i t, act_run_of_step hs ht, sys.place_wires i t, sys.place_joined i t,
    sys.place_length i t, place_getElem?_self h hi, fun j u => place_getElem?_other h hi,
    fun hc => ?_⟩
  rw [place_machines_of_selfWired hc hi]
  exact List.getElem?_set_self hi

end Sys2Proof.Machine
end

section
/-! Memory: an instruction changes at most the cell it stores to, and a fetch there then reads the stored
word. -/

namespace Sys2Proof.Machine

/-! ### When an instruction stores, and what -/

/-- A three-operand form resolves its operands, and `op` of its sources is the word `v` for cell `d`. -/
def OperandsStore (op : Int → Int → Int) (m1 m2 m3 : Mode) (s : State) (d : Nat) (v : Int) : Prop :=
  ∃ a b, rdOp s 1 m1 = .ok a ∧ rdOp s 2 m2 = .ok b ∧ wrAddr s 3 m3 = .ok d ∧
    isWord s.cfg (op a b) = true ∧ op a b = v

@[simp] theorem toOption_eq_some {α : Type} {x : Except Raised α} {a : α} :
    x.toOption = some a ↔ x = .ok a := by cases x <;> simp [Except.toOption]

theorem ltWord_eq (a b : Int) : ltWord a b = if a < b then 1 else 0 := by simp [ltWord, truthWord]

theorem eqWord_eq (a b : Int) : eqWord a b = if a = b then 1 else 0 := by simp [eqWord, truthWord]

@[simp] theorem isWord_ltWord (c : Config) (a b : Int) : isWord c (ltWord a b) = true :=
  truthWord_isWord c _

@[simp] theorem isWord_eqWord (c : Config) (a b : Int) : isWord c (eqWord a b) = true :=
  truthWord_isWord c _

section
variable {op : Int → Int → Int} {m1 m2 m3 : Mode} {s t : State} {d : Nat} {v : Int}

theorem storedCell_add_eq_some : storedCell (.add m1 m2 m3) s = some (d, v) ↔
    OperandsStore (fun a b => a + b) m1 m2 m3 s d v := by
  simp [storedCell, OperandsStore, Option.bind_eq_some_iff]

theorem storedCell_mul_eq_some : storedCell (.mul m1 m2 m3) s = some (d, v) ↔
    OperandsStore (fun a b => a * b) m1 m2 m3 s d v := by
  simp [storedCell, OperandsStore, Option.bind_eq_some_iff]

theorem storedCell_lt_eq_some : storedCell (.lt m1 m2 m3) s = some (d, v) ↔
    OperandsStore ltWord m1 m2 m3 s d v := by
  simp [storedCell, OperandsStore, Option.bind_eq_some_iff, ← ltWord_eq]

theorem storedCell_eq_eq_some : storedCell (.eq m1 m2 m3) s = some (d, v) ↔
    OperandsStore eqWord m1 m2 m3 s d v := by
  simp [storedCell, OperandsStore, Option.bind_eq_some_iff, ← eqWord_eq]

theorem storedCell_inp_eq_some : storedCell (.inp m1) s = some (d, v) ↔
    wrAddr s 1 m1 = .ok d ∧ s.inQ.head? = some v := by
  simp [storedCell, Option.bind_eq_some_iff]

/-! ### The memory after an instruction that stores -/

theorem execArith_mem_of_stores (hs : OperandsStore op m1 m2 m3 s d v)
    (h : execArith op m1 m2 m3 s = .next t) :
    d < s.cfg.addrLimit ∧ t.mem = s.mem.write d v := by
  obtain ⟨a, b, ha, hb, hd, hw, rfl⟩ := hs
  cases (execArith_of_ok ha hb hd hw).symm.trans h
  exact ⟨wrAddr_lt_limit hd, rfl⟩

theorem execCompare_mem_of_stores (hs : OperandsStore op m1 m2 m3 s d v)
    (h : execCompare op m1 m2 m3 s = .next t) :
    d < s.cfg.addrLimit ∧ t.mem = s.mem.write d v := by
  obtain ⟨a, b, ha, hb, hd, -, rfl⟩ := hs
  cases (execCompare_of_ok ha hb hd).symm.trans h
  exact ⟨wrAddr_lt_limit hd, rfl⟩

/-- An IN whose destination resolves takes the head of `InQ` and stores it (42_io.md R110). -/
theorem execInp_of_head {rest : List Int} (hd : wrAddr s 1 m1 = .ok d) (hq : s.inQ = v :: rest) :
    execInp m1 s = .next ((((s.popInput rest).store d v).setRun .running).advance 2) := by
  simp [execInp, hd, hq]

theorem exec_mem_of_stored {i : Instr} (hs : storedCell i s = some (d, v))
    (h : exec i s = .next t) : d < s.cfg.addrLimit ∧ t.mem = s.mem.write d v := by
  cases i with
  | add => exact execArith_mem_of_stores (storedCell_add_eq_some.1 hs) h
  | mul => exact execArith_mem_of_stores (storedCell_mul_eq_some.1 hs) h
  | lt => exact execCompare_mem_of_stores (storedCell_lt_eq_some.1 hs) h
  | eq => exact execCompare_mem_of_stores (storedCell_eq_eq_some.1 hs) h
  | inp m1 =>
    obtain ⟨hd, hv⟩ := storedCell_inp_eq_some.1 hs
    obtain ⟨rest, hq⟩ := List.head?_eq_some_iff.1 hv
    cases (execInp_of_head hd hq).symm.trans h
    exact ⟨wrAddr_lt_limit hd, rfl⟩
  | out | jnz | jz | arb | halt => cases hs

/-! ### The memory after an instruction that stores nothing -/

theorem execArith_mem_or_stores (h : execArith op m1 m2 m3 s = .next t) :
    t.mem = s.mem ∨ ∃ d v, OperandsStore op m1 m2 m3 s d v := by
  obtain ⟨e, -, rfl⟩ | ⟨a, b, d, ha, hb, hd, hw, rfl⟩ := execArith_cases h
  · exact .inl (faultEntry_mem e s)
  · exact .inr ⟨d, _, a, b, ha, hb, hd, hw, rfl⟩

theorem execCompare_mem_or_stores (hop : ∀ a b, isWord s.cfg (op a b) = true)
    (h : execCompare op m1 m2 m3 s = .next t) :
    t.mem = s.mem ∨ ∃ d v, OperandsStore op m1 m2 m3 s d v := by
  obtain ⟨e, -, rfl⟩ | ⟨a, b, d, ha, hb, hd, rfl⟩ := execCompare_cases h
  · exact .inl (faultEntry_mem e s)
  · exact .inr ⟨d, _, a, b, ha, hb, hd, hop a b, rfl⟩

theorem execJump_mem {p : Int → Bool} (h : execJump p m1 m2 s = .next t) : t.mem = s.mem := by
  obtain ⟨e, -, rfl⟩ | ⟨a, b, -, -, ⟨-, x, -, rfl⟩ | ⟨-, rfl⟩⟩ := execJump_cases h
  · exact faultEntry_mem e s
  · rfl
  · rfl

/-- Memory is as before, or the instruction stores: `storedCell` misses no store. -/
theorem exec_mem_or_stored {i : Instr} (h : exec i s = .next t) :
    t.mem = s.mem ∨ ∃ d v, storedCell i s = some (d, v) := by
  cases i with
  | add => simpa only [storedCell_add_eq_some] using execArith_mem_or_stores h
  | mul => simpa only [storedCell_mul_eq_some] using execArith_mem_or_stores h
  | lt => simpa only [storedCell_lt_eq_some] using execCompare_mem_or_stores (isWord_ltWord _) h
  | eq => simpa only [storedCell_eq_eq_some] using execCompare_mem_or_stores (isWord_eqWord _) h
  | inp m1 =>
    obtain ⟨e, -, rfl⟩ | ⟨d, hd, ⟨-, -, rfl⟩ | ⟨v, rest, hq, rfl⟩⟩ := execInp_cases h
    · exact .inl (faultEntry_mem e s)
    · exact .inl rfl
    · exact .inr ⟨d, v, storedCell_inp_eq_some.2 ⟨hd, by rw [hq, List.head?_cons]⟩⟩
  | out m1 =>
    obtain ⟨e, -, rfl⟩ | ⟨v, -, -, rfl⟩ := execOut_cases h
    · exact .inl (faultEntry_mem e s)
    · exact .inl rfl
  | jnz | jz => exact .inl (execJump_mem h)
  | arb m1 =>
    obtain ⟨e, -, rfl⟩ | ⟨a, -, -, rfl⟩ := execArb_cases h
    · exact .inl (faultEntry_mem e s)
    · exact .inl rfl
  | halt =>
    cases h
    exact .inl rfl

end

/-- Settles O24: an instruction with a stored cell writes exactly that cell of memory, and one without
leaves memory as it was; the cell is below the address limit, so a fetch there reads it. -/
theorem onlyTheStoredCellChanges : Obligations.OnlyTheStoredCellChanges := by
  intro i s t hwf ht
  refine ⟨fun hnone x => ?_, fun d v hs => ?_⟩
  · obtain hmem | ⟨d, v, hs⟩ := exec_mem_or_stored ht
    · exact congrArg (Memory.read · x) hmem
    · cases hnone.symm.trans hs
  · obtain ⟨hlt, hmem⟩ := exec_mem_of_stored hs ht
    have hcell : t.cell d = v := by
      rw [State.cell, hmem, Memory.read_write_self hwf]
    refine ⟨hcell, fun x hx => ?_, fun hip => ?_⟩
    · rw [State.cell, hmem, Memory.read_write_ne hwf v hx, State.cell]
    · have hcfg : t.cfg = s.cfg := (exec_effect ht).sameFarEnds.cfg
      exact fetch_eq_ok.2 ⟨by rw [hip, hcfg]; exact hlt, by rw [hip, hcell]⟩

end Sys2Proof.Machine
end

section
/-! Encoding: which words the decoder reads and as what, and which it refuses. -/

namespace Sys2Proof.Machine

/-! ### Modes and their digits (30_encoding.md R62, R63) -/

@[simp] theorem modeOfDigit_digit (m : Mode) : modeOfDigit m.digit = some m := by cases m <;> rfl

theorem digit_lt_three (m : Mode) : m.digit < 3 := by cases m <;> decide

/-- A digit names no mode, or it is the digit of the mode it names. -/
theorem modeOfDigit_cases (d : Nat) :
    3 ≤ d ∧ modeOfDigit d = none ∨ ∃ m : Mode, m.digit = d ∧ modeOfDigit d = some m := by
  match d with
  | 0 => exact .inr ⟨.position, rfl, rfl⟩
  | 1 => exact .inr ⟨.immediate, rfl, rfl⟩
  | 2 => exact .inr ⟨.relative, rfl, rfl⟩
  | d + 3 => exact .inl ⟨Nat.le_add_left 3 d, rfl⟩

theorem modeNumber_lt (ms : List Mode) : modeNumber ms < 10 ^ ms.length := by
  induction ms with
  | nil => simp [modeNumber]
  | cons m ms ih =>
    have := digit_lt_three m
    rw [modeNumber, List.length_cons, Nat.pow_succ]
    omega

/-- Each mode adds its digit at its own place. -/
theorem digit_mul_pow_le_modeNumber {ms : List Mode} {k : Nat} {m : Mode} (h : ms[k]? = some m) :
    m.digit * 10 ^ k ≤ modeNumber ms := by
  induction ms generalizing k with
  | nil => simp at h
  | cons m' ms ih =>
    rw [modeNumber]
    cases k with
    | zero =>
      obtain rfl : m' = m := by simpa using h
      omega
    | succ k =>
      have := ih (by simpa using h)
      rw [Nat.pow_succ, ← Nat.mul_assoc]
      omega

/-! ### The digits of a word (00_scope.md R12) -/

theorem dig_zero (w : Nat) : dig 0 w = w % 10 := by simp [dig]

theorem dig_succ (k w : Nat) : dig (k + 1) w = dig k (w / 10) := by
  rw [dig, dig, Nat.div_div_eq_div_mul, Nat.pow_succ']

theorem dig_two_add (k w : Nat) : dig (2 + k) w = dig k (w / 100) := by
  rw [dig, dig, Nat.div_div_eq_div_mul, Nat.pow_add]

theorem div_pow_two_add (w n : Nat) : w / 10 ^ (2 + n) = w / 100 / 10 ^ n := by
  rw [Nat.div_div_eq_div_mul, Nat.pow_add]

theorem mod_pow_two_add (w n : Nat) : w % 10 ^ (2 + n) = w % 100 + 100 * (w / 100 % 10 ^ n) := by
  rw [Nat.pow_add, Nat.mod_mul]

/-! ### The loop over the mode digits (R64, R66) -/

theorem takeModes_modeNumber (w : Int) (ms : List Mode) (left : Nat) :
    takeModes w ms.length (modeNumber ms + 10 ^ ms.length * left) = .ok (ms, left) := by
  induction ms with
  | nil => simp [takeModes, modeNumber]
  | cons m ms ih =>
    have hm := digit_lt_three m
    have hword : modeNumber (m :: ms) + 10 ^ (m :: ms).length * left =
        m.digit + 10 * (modeNumber ms + 10 ^ ms.length * left) := by
      rw [modeNumber, List.length_cons]
      ring
    have hmod : (m.digit + 10 * (modeNumber ms + 10 ^ ms.length * left)) % 10 = m.digit := by omega
    have hdiv : (m.digit + 10 * (modeNumber ms + 10 ^ ms.length * left)) / 10 =
        modeNumber ms + 10 ^ ms.length * left := by omega
    rw [hword]
    simp [takeModes, hmod, hdiv, ih]

/-- The loop meets a digit that names no mode, or reads `n` modes, whose digits are the `n` lowest. -/
theorem takeModes_cases (w : Int) (n rest : Nat) :
    ((∃ k, k < n ∧ 3 ≤ dig k rest) ∧ takeModes w n rest = .error (.invalidAddressingMode w)) ∨
      ((∀ k, k < n → dig k rest < 3) ∧ ∃ ms : List Mode, ms.length = n ∧
        rest = modeNumber ms + 10 ^ n * (rest / 10 ^ n) ∧
        takeModes w n rest = .ok (ms, rest / 10 ^ n)) := by
  induction n generalizing rest with
  | zero => exact .inr ⟨by simp, [], rfl, by simp [modeNumber], by simp [takeModes]⟩
  | succ n ih =>
    obtain ⟨h3, hnone⟩ | ⟨m, hm, hsome⟩ := modeOfDigit_cases (rest % 10)
    · exact .inl ⟨⟨0, Nat.succ_pos n, (dig_zero rest).symm ▸ h3⟩, by simp [takeModes, hnone]⟩
    · obtain ⟨⟨k, hk, h3⟩, hrun⟩ | ⟨hlt, ms, hlen, hrest, hrun⟩ := ih (rest / 10)
      · exact .inl ⟨⟨k + 1, Nat.succ_lt_succ hk, (dig_succ k rest).symm ▸ h3⟩,
          by simp [takeModes, hsome, hrun]⟩
      · have hleft : rest / 10 / 10 ^ n = rest / 10 ^ (n + 1) := by
          rw [Nat.div_div_eq_div_mul, Nat.pow_succ']
        rw [hleft] at hrest hrun
        refine .inr ⟨fun k hk => ?_, m :: ms, by simp [hlen], ?_, by simp [takeModes, hsome, hrun]⟩
        · cases k with
          | zero =>
            rw [dig_zero, ← hm]
            exact digit_lt_three m
          | succ k => exact (dig_succ k rest).symm ▸ hlt k (Nat.lt_of_succ_lt_succ hk)
        · have hplace : 10 ^ (n + 1) * (rest / 10 ^ (n + 1)) =
              10 * (10 ^ n * (rest / 10 ^ (n + 1))) := by ring
          rw [modeNumber, hm, hplace]
          omega

/-! ### The rows of the opcode table (R70, R71; 40_execution.md R80) -/

theorem tableRow (i : Instr) : Laws.TableRow.Statement i := by
  cases i with
  | add => exact Laws.TableRow.add ..
  | mul => exact Laws.TableRow.mul ..
  | inp => exact Laws.TableRow.inp ..
  | out => exact Laws.TableRow.out ..
  | jnz => exact Laws.TableRow.jnz ..
  | jz => exact Laws.TableRow.jz ..
  | lt => exact Laws.TableRow.lt ..
  | eq => exact Laws.TableRow.eq ..
  | arb => exact Laws.TableRow.arb ..
  | halt => exact Laws.TableRow.halt

theorem nops_code (i : Instr) : nops i.code = some i.operands.length := (tableRow i).1

/-- The modes of an instruction's operands, in operand order. -/
def operandModes (i : Instr) : List Mode := i.operands.map Prod.snd

@[simp] theorem length_operandModes (i : Instr) : (operandModes i).length = i.operands.length :=
  List.length_map _

theorem encode_eq (i : Instr) : encode i = (i.code + 100 * modeNumber (operandModes i) : Nat) := rfl

theorem buildInstr_code (i : Instr) : buildInstr i.code (operandModes i) = some i := by
  cases i <;> rfl

theorem code_lt_hundred (i : Instr) : i.code < 100 :=
  (tableRow i).2.1 ▸ Nat.mod_lt _ (by decide)

theorem buildInstr_eq_some {code : Nat} {ms : List Mode} {i : Instr} (h : buildInstr code ms = some i) :
    i.code = code ∧ operandModes i = ms := by
  unfold buildInstr at h
  split at h <;> cases h <;> exact ⟨rfl, rfl⟩

/-- A legal code with as many modes as it has operands is an instruction. -/
theorem exists_instr_of_nops {code : Nat} {ms : List Mode} (h : nops code = some ms.length) :
    ∃ i : Instr, i.code = code ∧ operandModes i = ms := by
  obtain ⟨i, hi⟩ : ∃ i, buildInstr code ms = some i := by
    unfold nops at h
    split at h
    case h_1 | h_2 | h_7 | h_8 =>
      obtain ⟨m1, m2, m3, rfl⟩ := List.length_eq_three.1 (Option.some.inj h).symm
      exact ⟨_, rfl⟩
    case h_5 | h_6 =>
      obtain ⟨m1, m2, rfl⟩ := List.length_eq_two.1 (Option.some.inj h).symm
      exact ⟨_, rfl⟩
    case h_3 | h_4 | h_9 =>
      obtain ⟨m1, rfl⟩ := List.length_eq_one_iff.1 (Option.some.inj h).symm
      exact ⟨_, rfl⟩
    case h_10 =>
      obtain rfl := List.length_eq_zero_iff.1 (Option.some.inj h).symm
      exact ⟨_, rfl⟩
    case h_11 => cases h
  exact ⟨i, buildInstr_eq_some hi⟩

theorem nops_eq_none_iff : ∀ {code : Nat}, code < 100 →
    (nops code = none ↔ code = 0 ∨ (10 ≤ code ∧ code ≤ 98)) := by
  decide

/-! ### What the decoder answers (R64) -/

theorem decode_of_unknownCode {strict : Bool} {w : Int} (h : w < 0 ∨ nops (w.toNat % 100) = none) :
    decode strict w = .error (.unknownOpcode w) := by
  unfold decode
  split
  · rfl
  · next hw => simp [h.resolve_left hw]

/-- What is decoded when the loop has read the modes of an instruction of the word's code. -/
theorem decode_of_takeModes {strict : Bool} {w excess : Nat} {i : Instr} (hcode : w % 100 = i.code)
    (hrun : takeModes w i.operands.length (w / 100) = .ok (operandModes i, excess)) :
    decode strict (w : Int) =
      if strict = true ∧ excess ≠ 0 then .error (.invalidAddressingMode w) else .ok i := by
  simp [decode, hcode, nops_code, hrun, buildInstr_code]

/-- A word of a legal code has a digit that names no mode, or its digits up to the last mode digit spell
an instruction, which is read unless digits are strict and a higher digit is not 0. -/
theorem decode_legalCode_cases {w n : Nat} (hn : nops (w % 100) = some n) :
    ((∃ k, k < n ∧ 3 ≤ dig (2 + k) w) ∧
        ∀ strict, decode strict (w : Int) = .error (.invalidAddressingMode w)) ∨
      ((∀ k, k < n → dig (2 + k) w < 3) ∧ ∃ i : Instr, i.code = w % 100 ∧
        encode i = (w % 10 ^ (2 + n) : Nat) ∧
        ∀ strict, decode strict (w : Int) =
          if strict = true ∧ w / 10 ^ (2 + n) ≠ 0 then .error (.invalidAddressingMode w)
          else .ok i) := by
  simp only [dig_two_add, div_pow_two_add]
  obtain ⟨hdig, hrun⟩ | ⟨hdig, ms, rfl, hrest, hrun⟩ := takeModes_cases w n (w / 100)
  · exact .inl ⟨hdig, fun strict => by simp [decode, hn, hrun]⟩
  · obtain ⟨i, hcode, rfl⟩ := exists_instr_of_nops hn
    refine .inr ⟨hdig, i, hcode, ?_, fun strict => decode_of_takeModes hcode.symm ?_⟩
    · rw [mod_pow_two_add, hrest, Nat.add_mul_mod_self_left, Nat.mod_eq_of_lt (modeNumber_lt _),
        ← hcode, encode_eq]
    · rw [← length_operandModes, hrun]

/-- An instruction is read from every word whose digits up to its last mode digit spell it, if the
higher digits are 0 or ignored. -/
theorem decode_of_encode_eq {strict : Bool} {w : Nat} {i : Instr}
    (h : encode i = (w % 10 ^ (2 + i.operands.length) : Nat))
    (hx : strict = true → w / 10 ^ (2 + i.operands.length) = 0) : decode strict (w : Int) = .ok i := by
  have hcode := code_lt_hundred i
  have hspell : i.code + 100 * modeNumber (operandModes i) =
      w % 100 + 100 * (w / 100 % 10 ^ (operandModes i).length) := by
    rw [encode_eq, Nat.cast_inj] at h
    rw [h, length_operandModes, mod_pow_two_add]
  have hmodes : w / 100 % 10 ^ (operandModes i).length = modeNumber (operandModes i) := by omega
  have hrest := Nat.mod_add_div (w / 100) (10 ^ (operandModes i).length)
  have hrun := takeModes_modeNumber w (operandModes i) (w / 100 / 10 ^ (operandModes i).length)
  rw [← hmodes, hrest, length_operandModes, ← div_pow_two_add] at hrun
  rw [decode_of_takeModes (by omega) hrun, if_neg fun hs => hs.2 (hx hs.1)]

theorem encode_lt (i : Instr) : encode i < (10 ^ (2 + i.operands.length) : Nat) := by
  have hcode := code_lt_hundred i
  have hmodes := modeNumber_lt (operandModes i)
  rw [length_operandModes] at hmodes
  rw [encode_eq, Nat.pow_add, Nat.cast_lt]
  omega

@[simp] theorem decode_encode (strict : Bool) (i : Instr) : decode strict (encode i) = .ok i := by
  obtain ⟨w, hw⟩ : ∃ w : Nat, encode i = w := ⟨_, rfl⟩
  have hlt : w < 10 ^ (2 + i.operands.length) := by exact_mod_cast hw ▸ encode_lt i
  rw [hw]
  exact decode_of_encode_eq (by rw [hw, Nat.mod_eq_of_lt hlt]) fun _ => Nat.div_eq_of_lt hlt

/-- A word is negative or of an unknown code, or it is a natural number of a legal code. -/
theorem unknownCode_or_legalCode (w : Int) :
    (w < 0 ∨ nops (w.toNat % 100) = none) ∨ ∃ v n : Nat, w = v ∧ nops (v % 100) = some n := by
  refine or_iff_not_imp_left.2 fun hw => ?_
  obtain ⟨h0, hn⟩ := not_or.1 hw
  obtain ⟨n, hn⟩ := Option.ne_none_iff_exists'.1 hn
  exact ⟨w.toNat, n, by omega, hn⟩

theorem legalCode_of_decode {strict : Bool} {w : Int} {i : Instr} (h : decode strict w = .ok i) :
    ∃ v n : Nat, w = v ∧ nops (v % 100) = some n := by
  obtain hw | hw := unknownCode_or_legalCode w
  · cases (decode_of_unknownCode hw).symm.trans h
  · exact hw

/-- The instructions a word of a legal code decodes to. -/
theorem decode_eq_ok {strict : Bool} {w n : Nat} {i : Instr} (hn : nops (w % 100) = some n) :
    decode strict (w : Int) = .ok i ↔
      encode i = (w % 10 ^ (2 + n) : Nat) ∧ (strict = true → w / 10 ^ (2 + n) = 0) := by
  constructor
  · intro h
    obtain ⟨-, hrun⟩ | ⟨-, j, -, hj, hrun⟩ := decode_legalCode_cases hn
    · cases (hrun strict).symm.trans h
    · rw [hrun strict] at h
      split at h
      · cases h
      · next hx =>
        cases h
        exact ⟨hj, fun hs => by simpa [hs] using hx⟩
  · rintro ⟨hi, hx⟩
    have hcode : w % 100 = i.code := by
      rw [← (tableRow i).2.1, hi, Int.toNat_natCast, Nat.mod_mod_of_dvd]
      exact Nat.pow_dvd_pow 10 (Nat.le_add_right 2 n)
    obtain rfl : i.operands.length = n := by
      rw [hcode, nops_code] at hn
      exact Option.some.inj hn
    exact decode_of_encode_eq hi hx

theorem decode_eq_unknownOpcode {strict : Bool} {w x : Int} :
    decode strict w = .error (.unknownOpcode x) ↔
      x = w ∧ (w < 0 ∨ nops (w.toNat % 100) = none) := by
  constructor
  · intro h
    have hx : x = w := by
      obtain he | he := decode_eq_error h <;> cases he
      rfl
    obtain hw | ⟨v, n, rfl, hn⟩ := unknownCode_or_legalCode w
    · exact ⟨hx, hw⟩
    · obtain ⟨-, hrun⟩ | ⟨-, j, -, -, hrun⟩ := decode_legalCode_cases hn
      · cases (hrun strict).symm.trans h
      · rw [hrun strict] at h
        split at h <;> cases h
  · rintro ⟨rfl, hw⟩
    exact decode_of_unknownCode hw

/-! ### A step and the word it decodes (40_execution.md R89, R90) -/

/-- The machine takes the fault of fetch or decode. -/
theorem step_of_fetchDecode_error {s : State} {e : Raised} (hn : noStep s = none)
    (h : fetchDecode s = .error e) : step s = .next (faultEntry e s) := by
  simp [step, hn, h]

theorem step_of_fetchDecode_ok {s : State} {i : Instr} (hn : noStep s = none)
    (h : fetchDecode s = .ok i) : step s = exec i s := by
  simp [step, hn, h]

theorem fetchDecode_eq_decode {s : State} (h : s.ip < s.cfg.addrLimit) :
    fetchDecode s = decode s.cfg.strictModeDigits (s.cell s.ip) := by
  simp [fetchDecode, fetch_eq_ok.2 ⟨h, rfl⟩]

theorem step_ne_next_of_terminated {s : State} (h : s.terminated = true) (u : State) :
    step s ≠ .next u := by
  intro hu
  simpa [h] using (started_and_unended_of_noStep (step_cases hu).1).2

/-! ### The obligations on the decoder -/

/-- Settles O1: a word that decodes has no digit above its last mode digit, so it is the word its digits
spell; the converse is `decode_encode`. -/
theorem strictDecodeReadsExactlyEncodedWords : Obligations.StrictDecodeReadsExactlyEncodedWords := by
  intro w i
  constructor
  · intro h
    obtain ⟨v, n, rfl, hn⟩ := legalCode_of_decode h
    obtain ⟨hi, hx⟩ := (decode_eq_ok hn).1 h
    rw [hi, Nat.mod_eq_of_lt (Nat.lt_of_div_eq_zero (by positivity) (hx rfl))]
  · rintro rfl
    exact decode_encode true i

/-- Settles O2: excess digits are all that the two digit rules differ in, and taking them off leaves the
code and the digits that are read. -/
theorem excessDigitsFaultOrAreIgnored : Obligations.ExcessDigitsFaultOrAreIgnored := by
  intro w n hn
  refine ⟨fun hx => ?_, fun i => ?_⟩
  · obtain ⟨-, hrun⟩ | ⟨-, i, -, -, hrun⟩ := decode_legalCode_cases hn
    · exact hrun true
    · rw [hrun, if_pos ⟨rfl, hx⟩]
  · have hn' : nops (w % 10 ^ (2 + n) % 100) = some n := by
      rw [Nat.mod_mod_of_dvd w (Nat.pow_dvd_pow 10 (Nat.le_add_right 2 n)), hn]
    rw [decode_eq_ok hn, decode_eq_ok hn', Nat.mod_mod]
    simp

/-- The illegal codes of R71. -/
theorem unknownCode_iff {w : Int} :
    (w < 0 ∨ w.toNat % 100 = 0 ∨ (10 ≤ w.toNat % 100 ∧ w.toNat % 100 ≤ 98)) ↔
      (w < 0 ∨ nops (w.toNat % 100) = none) := by
  rw [nops_eq_none_iff (Nat.mod_lt _ (by decide))]

/-- Settles O3: the codes without a row of the table are 0 and 10 to 98, and a faulted machine has no
step. -/
theorem unknownOpcodeExactlyForIllegalCodes : Obligations.UnknownOpcodeExactlyForIllegalCodes := by
  refine ⟨fun strict w x => by rw [unknownCode_iff, decode_eq_unknownOpcode], fun s hn hip hw => ?_⟩
  have hf : fetchDecode s = .error (.unknownOpcode (s.cell s.ip)) := by
    rw [fetchDecode_eq_decode hip, decode_of_unknownCode (unknownCode_iff.1 hw)]
  exact ⟨_, step_of_fetchDecode_error hn hf, faultEntry_runState _ _, faultEntry_faultCause _ _,
    step_ne_next_of_terminated (faultEntry_terminated _ _)⟩

/-- Settles O4: the two clauses are the two cases of `decode_legalCode_cases`. -/
theorem illegalDigitsExactlyRaiseInvalidMode : Obligations.IllegalDigitsExactlyRaiseInvalidMode := by
  intro strict w n hn
  obtain ⟨hdig, hrun⟩ | ⟨hdig, i, hcode, -, hrun⟩ := decode_legalCode_cases hn
  · rw [if_pos (.inl hdig)]
    exact hrun strict
  · have hnone : ¬ ∃ k, k < n ∧ 3 ≤ dig (2 + k) w := fun ⟨k, hk, h3⟩ =>
      Nat.not_le_of_lt (hdig k hk) h3
    by_cases hx : strict = true ∧ w / 10 ^ (2 + n) ≠ 0
    · rw [if_pos (.inr hx), hrun, if_pos hx]
    · rw [if_neg (not_or.2 ⟨hnone, hx⟩)]
      exact ⟨i, by rw [hrun, if_neg hx], hcode⟩

/-- Settles O6: the mode's digit at its place adds up to no more than the word, which is below that
place. -/
theorem absentModeDigitsArePosition : Obligations.AbsentModeDigitsArePosition := by
  intro strict w k i r m h hk hlt
  obtain ⟨v, n, hv, hn⟩ := legalCode_of_decode h
  obtain rfl := Int.ofNat.inj hv
  have hword : i.code + 100 * modeNumber (operandModes i) = w % 10 ^ (2 + n) :=
    Nat.cast_inj.1 ((decode_eq_ok hn).1 h).1
  have hle := Nat.mod_le w (10 ^ (2 + n))
  have hplace : m.digit * 10 ^ k ≤ modeNumber (operandModes i) :=
    digit_mul_pow_le_modeNumber (by simp [operandModes, hk])
  rw [Nat.pow_add] at hlt
  cases m with
  | position => rfl
  | immediate | relative =>
    simp only [Mode.digit] at hplace
    omega

/-- Settles O7: the words of table D that decode are the encodings of their instructions. -/
theorem sampleWordsDecode : Obligations.SampleWordsDecode :=
  ⟨decode_encode true (.add .immediate .immediate .relative),
    decode_encode true (.mul .position .immediate .position), decode_encode true (.inp .relative),
    decode_encode true (.jnz .immediate .immediate),
    decode_encode true (.lt .relative .relative .relative), decode_encode true (.arb .immediate),
    decode_encode true .halt, by decide, by decide, decode_of_unknownCode (.inl (by decide))⟩

end Sys2Proof.Machine
end

section
/-! Encoding: the list of all instructions (30_encoding.md R74). -/

namespace Sys2Proof.Machine

/-- All lists of `n` modes. -/
def modeLists : Nat → List (List Mode)
  | 0 => [[]]
  | n + 1 => [Mode.position, .immediate, .relative].flatMap fun m => (modeLists n).map (m :: ·)

theorem mem_modeLists (ms : List Mode) : ms ∈ modeLists ms.length := by
  induction ms with
  | nil => exact List.mem_singleton_self []
  | cons m ms ih =>
    refine List.mem_flatMap.2 ⟨m, ?_, List.mem_map_of_mem ih⟩
    cases m <;> decide

/-- Every instruction, once: the legal codes, each with as many modes as it takes. -/
def allInstrs : List Instr :=
  ([1, 2, 3, 4, 5, 6, 7, 8, 9, 99] ×ˢ (List.range 4).flatMap modeLists).filterMap fun p =>
    buildInstr p.1 p.2

theorem mem_allInstrs (i : Instr) : i ∈ allInstrs := by
  have hcode : i.code ∈ [1, 2, 3, 4, 5, 6, 7, 8, 9, 99] := by cases i <;> simp [Instr.code]
  have hlen : (operandModes i).length ∈ List.range 4 := by
    cases i <;> simp [Instr.operands]
  exact List.mem_filterMap.2 ⟨(i.code, operandModes i),
    List.mem_product.2 ⟨hcode, List.mem_flatMap.2 ⟨_, hlen, mem_modeLists _⟩⟩, buildInstr_code i⟩

theorem nodup_allInstrs : allInstrs.Nodup := by
  refine List.Nodup.filterMap (fun p q i hp hq => ?_) (List.Nodup.product (by decide) (by decide))
  obtain ⟨hpc, hpm⟩ := buildInstr_eq_some hp
  obtain ⟨hqc, hqm⟩ := buildInstr_eq_some hq
  exact Prod.ext (hpc.symm.trans hqc) (hpm.symm.trans hqm)

theorem encode_injective : Function.Injective encode := fun i j h => by
  have hi := decode_encode true i
  rw [h, decode_encode] at hi
  exact (Except.ok.inj hi).symm

/-- Settles O5: the list of all instructions; its encodings are the words of O1. The three counts are
finite and computed. -/
theorem legalWordsAre136 : Obligations.LegalWordsAre136 := by
  refine ⟨allInstrs, rfl, nodup_allInstrs.map encode_injective, fun w => ?_, ?_, by decide⟩
  · simp [strictDecodeReadsExactlyEncodedWords w, mem_allInstrs, eq_comm]
  · intro code n hn
    unfold nops at hn
    split at hn <;> cases hn <;> decide

end Sys2Proof.Machine
end

section
/-! The assembler's idioms MOV and JMP, and what an Immediate destination does. -/

namespace Sys2Proof.Machine

/-! ### An operand that faults is the fault taken (40_execution.md R84) -/

section
variable {s : State} {k : Nat} {m : Mode} {rest : List (Role × Mode)} {e : Raised} {α : Type}

/-- A source is resolved before what follows: its fault, if it has one, comes first. -/
theorem rdOp_bind_eq_error {f : Int → Except Raised α}
    (h : firstOperandFault s k ((.source, m) :: rest) = some e)
    (hf : ∀ a, firstOperandFault s (k + 1) rest = some e → f a = .error e) :
    (rdOp s k m >>= f) = .error e := by
  rw [firstOperandFault] at h
  split at h
  · next he =>
    cases h
    rw [he, error_bind]
  · next a ha => rw [ha, ok_bind, hf a h]

theorem wrAddr_bind_eq_error {f : Nat → Except Raised α}
    (h : firstOperandFault s k ((.dest, m) :: rest) = some e)
    (hf : ∀ d, firstOperandFault s (k + 1) rest = some e → f d = .error e) :
    (wrAddr s k m >>= f) = .error e := by
  rw [firstOperandFault] at h
  split at h
  · next he =>
    cases h
    rw [he, error_bind]
  · next d hd => rw [hd, ok_bind, hf d h]

end

theorem exec_of_firstOperandFault {i : Instr} {s : State} {e : Raised}
    (h : firstOperandFault s 1 i.operands = some e) : exec i s = .next (faultEntry e s) := by
  cases i with
  | add | mul | lt | eq =>
    exact congrArg (commit s) <| rdOp_bind_eq_error h fun _ h => rdOp_bind_eq_error h fun _ h =>
      wrAddr_bind_eq_error h fun _ h => nomatch h
  | jnz | jz =>
    exact congrArg (commit s) <| rdOp_bind_eq_error h fun _ h => rdOp_bind_eq_error h fun _ h =>
      nomatch h
  | inp => exact congrArg (commit s) <| wrAddr_bind_eq_error h fun _ h => nomatch h
  | out | arb => exact congrArg (commit s) <| rdOp_bind_eq_error h fun _ h => nomatch h
  | halt => cases h

theorem firstOperandFault_append (s : State) (k : Nat) (xs ys : List (Role × Mode)) :
    firstOperandFault s k (xs ++ ys) =
      (firstOperandFault s k xs).or (firstOperandFault s (k + xs.length) ys) := by
  induction k, xs using firstOperandFault.induct s with
  | case1 k => rfl
  | case2 k m xs e he => simp [firstOperandFault, he]
  | case3 k m xs a ha ih =>
    rw [Nat.add_right_comm, Nat.add_assoc] at ih
    simp [firstOperandFault, ha, ih]
  | case4 k m xs e he => simp [firstOperandFault, he]
  | case5 k m xs d hd ih =>
    rw [Nat.add_right_comm, Nat.add_assoc] at ih
    simp [firstOperandFault, hd, ih]

/-! ### An Immediate destination (30_encoding.md R73) -/

theorem eq_immediate_of_not_writable {m : Mode} (h : m.writable = false) : m = .immediate := by
  cases m with
  | immediate => rfl
  | position | relative => cases h

/-- An ill-formed instruction has an Immediate destination for its last operand. -/
theorem operands_of_not_wellFormed {i : Instr} (h : i.wellFormed = false) :
    ∃ before, i.operands = before ++ [(Role.dest, Mode.immediate)] := by
  cases i with
  | add m1 m2 m3 | mul m1 m2 m3 | lt m1 m2 m3 | eq m1 m2 m3 =>
    obtain rfl : m3 = .immediate := eq_immediate_of_not_writable h
    exact ⟨[(.source, m1), (.source, m2)], rfl⟩
  | inp m1 =>
    obtain rfl : m1 = .immediate := eq_immediate_of_not_writable h
    exact ⟨[], rfl⟩
  | out | jnz | jz | arb | halt => cases h

theorem firstOperandFault_immediateDest {s : State} {k : Nat} {raw : Int}
    (h : operandWord s k = .ok raw) :
    firstOperandFault s k [(.dest, .immediate)] = some (.invalidWriteTarget raw) := by
  simp [firstOperandFault, wrAddr_immediate h]

theorem exists_firstOperandFault_immediateDest (s : State) (k : Nat) :
    ∃ e, firstOperandFault s k [(.dest, .immediate)] = some e := by
  cases h : operandWord s k with
  | error e => exact ⟨e, by simp [firstOperandFault, wrAddr_of_error h]⟩
  | ok raw => exact ⟨_, firstOperandFault_immediateDest h⟩

/-- Settles O12: an Immediate destination is the last operand and never resolves, so some operand
faults, and the destination does if no operand before it has. -/
theorem immediateDestinationNeverActs : Obligations.ImmediateDestinationNeverActs := by
  intro i s hi
  obtain ⟨before, hops⟩ := operands_of_not_wellFormed hi
  refine ⟨fun strict => decode_encode strict i, ?_, fun before' m raw hops' hnone hraw => ?_⟩
  · obtain ⟨e, he⟩ := exists_firstOperandFault_immediateDest s (1 + before.length)
    have hfault := firstOperandFault_append s 1 before [(.dest, .immediate)]
    rw [← hops, he] at hfault
    cases hb : firstOperandFault s 1 before with
    | none => exact ⟨e, exec_of_firstOperandFault (by rw [hfault, hb, Option.none_or])⟩
    | some e' => exact ⟨e', exec_of_firstOperandFault (by rw [hfault, hb, Option.some_or])⟩
  · obtain ⟨rfl, hlast⟩ := List.append_inj' (hops'.symm.trans hops) rfl
    cases hlast
    have hlen : i.operands.length = 1 + before'.length := by simp [hops, Nat.add_comm]
    apply exec_of_firstOperandFault
    rw [hops, firstOperandFault_append, hnone, ← hlen, firstOperandFault_immediateDest hraw,
      Option.none_or]

/-! ### The idioms MOV and JMP (30_encoding.md R76) -/

theorem storesCell_store_advance {s : State} (h : s.mem.wf) (d : Nat) (v : Int) (n : Nat) :
    StoresCell s ((s.store d v).advance n) d v n :=
  ⟨Memory.read_write_self h d v, fun _ hx => Memory.read_write_ne h v hx, rfl⟩

theorem execJump_of_taken {p : Int → Bool} {m1 m2 : Mode} {s : State} {a b : Int} {target : Nat}
    (ha : rdOp s 1 m1 = .ok a) (hb : rdOp s 2 m2 = .ok b) (hp : p a = true)
    (ht : chkA s.cfg b = .ok target) : execJump p m1 m2 s = .next (s.jump target) := by
  simp [execJump, ha, hb, hp, ht]

/-- The word of a resolved operand stands at a valid address. -/
theorem lt_limit_of_rdOp {s : State} {k : Nat} {m : Mode} {v : Int} (h : rdOp s k m = .ok v) :
    s.ip + k < s.cfg.addrLimit := by
  obtain ⟨raw, hraw, -⟩ := bind_eq_ok.1 h
  exact (operandWord_eq_ok.1 hraw).1

theorem lt_limit_of_wrAddr {s : State} {k : Nat} {m : Mode} {d : Nat} (h : wrAddr s k m = .ok d) :
    s.ip + k < s.cfg.addrLimit := by
  obtain ⟨raw, hraw, -⟩ := bind_eq_ok.1 h
  exact (operandWord_eq_ok.1 hraw).1

theorem step_of_encode {s : State} {i : Instr} (hn : noStep s = none) (hip : s.ip < s.cfg.addrLimit)
    (h : encode i = s.cell s.ip) : step s = exec i s :=
  step_of_fetchDecode_ok hn (fetchDecode_eq_ok.2 ⟨hip, h ▸ decode_encode _ i⟩)

theorem rdOp_immediate_cell {s : State} {k : Nat} (h : s.ip + k < s.cfg.addrLimit) :
    rdOp s k .immediate = .ok (s.cell (s.ip + k)) :=
  rdOp_immediate (operandWord_eq_ok.2 ⟨h, rfl⟩)

/-- Settles O23: the words decode to the ADD or JNZ of the idiom, whose Immediate operand is the 0 that
adds nothing, or the 1 on which the jump is taken. -/
theorem movCopiesAndJmpJumps : Obligations.MovCopiesAndJmpJumps := by
  intro s hs hn _
  constructor
  · intro ms x md y a d hwords ha hd
    have hip := lt_limit_of_wrAddr hd
    obtain ⟨hinstr, -, hzero, -⟩ : encode _ = s.cell s.ip ∧ x = s.cell (s.ip + 1) ∧
        (0 : Int) = s.cell (s.ip + 2) ∧ y = s.cell (s.ip + 3) := by
      simpa [Line.words, Line.mov] using hwords
    have hb : rdOp s 2 .immediate = .ok 0 := hzero ▸ rdOp_immediate_cell (by omega)
    have hword : isWord s.cfg (a + 0) = true := by rw [add_zero]; exact rdOp_isWord hs ha
    have hstep := (step_of_encode hn (by omega) hinstr).trans
      (execArith_of_ok (op := fun a b => a + b) ha hb hd hword)
    rw [add_zero] at hstep
    exact ⟨_, hstep, storesCell_store_advance hs.mem_wf d a 4⟩
  · intro mt y b hwords hb hvalid
    have hip := lt_limit_of_rdOp hb
    obtain ⟨hinstr, hone, -⟩ : encode _ = s.cell s.ip ∧ (1 : Int) = s.cell (s.ip + 1) ∧
        y = s.cell (s.ip + 2) := by
      simpa [Line.words, Line.jmp] using hwords
    have ha : rdOp s 1 .immediate = .ok 1 := hone ▸ rdOp_immediate_cell (by omega)
    exact (step_of_encode hn (by omega) hinstr).trans
      (execJump_of_taken ha hb rfl (chkA_eq_ok.2 ⟨hvalid.1, hvalid.2, rfl⟩))

end Sys2Proof.Machine
end

section
/-! Execution: how operands resolve, when a machine has a step and which one, and what a step does to
the run state and to `ip` (40_execution.md). -/

namespace Sys2Proof.Machine

/-! ### Operand resolution (40_execution.md R82, R83) -/

theorem chkA_eq_ok_iff_validAddr {c : Config} {x : Int} {a : Nat} :
    chkA c x = .ok a ↔ ValidAddr c x ∧ a = x.toNat := by
  rw [chkA_eq_ok, ValidAddr, and_assoc]

theorem chkA_eq_error_iff_addrFault {c : Config} {x : Int} {e : Raised} :
    chkA c x = .error e ↔ AddrFault c x e := by
  rw [chkA_eq_error, AddrFault, and_left_comm]

theorem relativeAddr_eq_error {s : State} {raw : Int} {e : Raised} :
    relativeAddr s raw = .error e ↔ RelativeFault s raw e := by
  unfold relativeAddr RelativeFault
  simp [bind_eq_error, chkW_eq_error, chkW_eq_ok, chkA_eq_error_iff_addrFault]

section
variable {s : State} {k : Nat} {m : Mode}

theorem rdOp_eq_ok {v : Int} : rdOp s k m = .ok v ↔ SourceValue s k m v := by
  unfold rdOp SourceValue
  rw [bind_eq_ok]
  refine exists_congr fun raw => and_congr operandWord_eq_ok ?_
  cases m with
  | position => simp [bind_eq_ok, chkA_eq_ok_iff_validAddr, @eq_comm _ v]
  | immediate => simp [eq_comm]
  | relative => simp [bind_eq_ok, relativeAddr_eq_ok, ValidAddr, and_assoc, @eq_comm _ v]

theorem rdOp_eq_error {e : Raised} : rdOp s k m = .error e ↔ SourceFault s k m e := by
  unfold rdOp SourceFault
  rw [bind_eq_error]
  refine or_congr operandWord_eq_error (exists_congr fun raw => and_congr operandWord_eq_ok ?_)
  cases m with
  | position => simp [bind_eq_error, chkA_eq_error_iff_addrFault]
  | immediate => simp
  | relative => simp [bind_eq_error, relativeAddr_eq_error]

theorem wrAddr_eq_ok {d : Nat} : wrAddr s k m = .ok d ↔ DestAddr s k m d := by
  unfold wrAddr DestAddr
  rw [bind_eq_ok]
  refine exists_congr fun raw => and_congr operandWord_eq_ok ?_
  cases m with
  | position => exact chkA_eq_ok_iff_validAddr
  | immediate => simp
  | relative => simp [relativeAddr_eq_ok, ValidAddr, and_assoc]

theorem wrAddr_eq_error {e : Raised} : wrAddr s k m = .error e ↔ DestFault s k m e := by
  unfold wrAddr DestFault
  rw [bind_eq_error]
  refine or_congr operandWord_eq_error (exists_congr fun raw => and_congr operandWord_eq_ok ?_)
  cases m with
  | position => exact chkA_eq_error_iff_addrFault
  | immediate => simp [eq_comm]
  | relative => exact relativeAddr_eq_error

end

/-- Settles O8: the operand word is fetched first, then the mode says which checks follow. -/
theorem sourceOperandResolvesAsSpecified : Obligations.SourceOperandResolvesAsSpecified :=
  fun _ _ _ => ⟨fun _ => rdOp_eq_ok, fun _ => rdOp_eq_error⟩

/-- Settles O9: as O8, with the address itself for the result. -/
theorem destOperandResolvesAsSpecified : Obligations.DestOperandResolvesAsSpecified :=
  fun _ _ _ => ⟨fun _ => wrAddr_eq_ok, fun _ => wrAddr_eq_error⟩

theorem relativeAddr_of_isWord {s : State} {raw : Int} (h : isWord s.cfg (s.rb + raw) = true) :
    relativeAddr s raw = chkA s.cfg (s.rb + raw) := by
  rw [relativeAddr, chkW_eq_ok.2 ⟨h, rfl⟩, ok_bind]

/-- Settles O10: the replaced operand word reads as `rb` plus the old one, so both modes check the same
address. -/
theorem relativeAccessesSameCellAsPosition : Obligations.RelativeAccessesSameCellAsPosition := by
  rintro s t k hwf hk hword rfl
  have hs : operandWord s k = .ok (s.cell (s.ip + k)) := operandWord_eq_ok.2 ⟨hk, rfl⟩
  have ht : operandWord (s.store (s.ip + k) (s.rb + s.cell (s.ip + k))) k =
      .ok (s.rb + s.cell (s.ip + k)) :=
    operandWord_eq_ok.2 ⟨hk, (Memory.read_write_self hwf _ _).symm⟩
  refine ⟨?_, ?_, ?_⟩
  · rw [wrAddr_relative hs, wrAddr_position ht, relativeAddr_of_isWord hword, State.store_cfg]
  · rw [rdOp_relative hs, wrAddr_relative hs]
  · rw [rdOp_position ht, wrAddr_position ht]

/-- Settles O11, instruction by instruction: see `exec_of_firstOperandFault`. -/
theorem firstOperandFaultIsTaken : Obligations.FirstOperandFaultIsTaken :=
  fun _ _ _ => exec_of_firstOperandFault

/-! ### The enabled step (40_execution.md R84, R89, R90) -/

theorem fetchDecode_of_limit_le {s : State} (h : s.cfg.addrLimit ≤ s.ip) :
    fetchDecode s = .error (.addressOutOfRange s.ip) := by
  rw [fetchDecode, fetch_eq_error.2 ⟨h, rfl⟩]

/-- Settles O31: `ip` below the limit makes fetch and decode the decoding of the word at `ip`. -/
theorem stepRunsTheDecodedInstruction : Obligations.StepRunsTheDecodedInstruction := by
  refine fun s hn => ⟨fun i hip hi => ?_, fun e hip he => ?_, fun hip => ?_⟩
  · exact step_of_fetchDecode_ok hn ((fetchDecode_eq_decode hip).trans hi)
  · exact step_of_fetchDecode_error hn ((fetchDecode_eq_decode hip).trans he)
  · exact step_of_fetchDecode_error hn (fetchDecode_of_limit_le hip)

/-- Settles O27: by O31 the step is the entry of the fault, whose fields say the rest. -/
theorem fetchAndDecodeFaultsAreTaken : Obligations.FetchAndDecodeFaultsAreTaken := by
  intro s hn
  obtain ⟨-, hdecode, hfetch⟩ := stepRunsTheDecodedInstruction s hn
  refine ⟨fun hip => ?_, fun hip e he => ?_⟩
  · exact ⟨_, hfetch hip, faultEntry_runState _ _, faultEntry_faultCause _ _⟩
  · exact ⟨_, hdecode e hip he, faultEntry_runState _ _, faultEntry_faultCause _ _,
      faultEntry_faultWord hip⟩

theorem exists_exec_eq_next (i : Instr) (s : State) : ∃ t, exec i s = .next t := by
  obtain ⟨r, hr⟩ := exec_is_commit i s
  rw [hr]
  cases r with
  | ok t => exact ⟨t, rfl⟩
  | error e => exact ⟨faultEntry e s, rfl⟩

theorem exists_step_eq_next_iff {s : State} : (∃ t, step s = .next t) ↔ noStep s = none := by
  refine ⟨fun ⟨t, ht⟩ => (step_cases ht).1, fun hn => ?_⟩
  cases hf : fetchDecode s with
  | error e => exact ⟨_, step_of_fetchDecode_error hn hf⟩
  | ok i => exact step_of_fetchDecode_ok hn hf ▸ exists_exec_eq_next i s

/-- Settles O32: an enabled step always answers a next state, a fault being one. -/
theorem stepEnabledWhenRunningOrInputReady : Obligations.StepEnabledWhenRunningOrInputReady :=
  fun _ => exists_step_eq_next_iff.trans noStep_eq_none

/-! ### The run state (40_execution.md R88) -/

/-- An IN whose destination resolves faults on an empty closed channel (42_io.md R110). -/
theorem execInp_of_closed {m : Mode} {s : State} {d : Nat} (hd : wrAddr s 1 m = .ok d)
    (hq : s.inQ = []) (hc : s.inClosed = true) :
    execInp m s = .next (faultEntry (.channelClosed .input) s) := by
  simp [execInp, hd, hq, hc]

/-- What an instruction makes of the run state of a running machine. -/
theorem Effect.runState_cases {s t : State} {i : Instr} (h : Effect s i t)
    (hr : s.runState = .running) :
    (∃ e, t = faultEntry e s) ∨ (i = .halt ∧ t = s.enterHalted) ∨
      ((∃ m, i = .inp m) ∧ s.inQ = [] ∧ s.inClosed = false ∧ t = s.setRun .waitingOnInput) ∨
      t.runState = .running := by
  cases h with
  | fault => exact .inl ⟨_, rfl⟩
  | halt => exact .inr (.inl ⟨rfl, rfl⟩)
  | wait _ hq hc => exact .inr (.inr (.inl ⟨⟨_, rfl⟩, hq, hc, rfl⟩))
  | input => exact .inr (.inr (.inr rfl))
  | output | store | jump | fallThrough | setRb => exact .inr (.inr (.inr hr))

theorem transition_faultEntry {s : State} (hr : s.runState = .running) (e : Raised) :
    Transition s (faultEntry e s) := by
  rw [Transition, hr, faultEntry_runState]
  exact ⟨e, rfl⟩

theorem transition_of_running {s t : State} (hr : s.runState = .running) (h : step s = .next t) :
    Transition s t := by
  obtain ⟨-, ⟨e, -, rfl⟩ | ⟨i, hi, hx⟩⟩ := step_cases h
  · exact transition_faultEntry hr e
  obtain ⟨e, rfl⟩ | ⟨rfl, rfl⟩ | ⟨⟨m, rfl⟩, hq, hc, rfl⟩ | ht := (exec_effect hx).runState_cases hr
  · exact transition_faultEntry hr e
  · rw [Transition, hr, State.enterHalted_runState]
    exact ⟨hi, rfl⟩
  · rw [Transition, hr, State.setRun_runState]
    exact ⟨⟨m, hi⟩, hq, hc, rfl⟩
  · rw [Transition, hr, ht]
    refine ⟨i, hi, ?_, hx⟩
    rintro rfl
    cases hx
    cases ht

/-- A good machine that waits stands at an IN whose destination resolves: it takes the head of `InQ`,
or faults on the closed channel. -/
theorem transition_of_waiting {s t : State} (hs : s.Inv) (hr : s.runState = .waitingOnInput)
    (h : step s = .next t) : Transition s t := by
  obtain ⟨m, d, hm, hd⟩ := hs.waits_at_in hr
  have hn := (step_cases h).1
  have hx : execInp m s = .next t := (step_of_fetchDecode_ok hn hm).symm.trans h
  cases hq : s.inQ with
  | nil =>
    have hc : s.inClosed = true := by simpa [hr, hq] using (noStep_eq_none.1 hn).2
    cases (execInp_of_closed hd hq hc).symm.trans hx
    rw [Transition, hr, faultEntry_runState]
    exact ⟨⟨m, hm⟩, hq, hc, rfl⟩
  | cons v rest =>
    have ht : t.runState = .running := by
      cases (execInp_of_head hd hq).symm.trans hx
      rfl
    rw [Transition, hr, ht]
    exact ⟨m, hm, by simp [hq], hx⟩

/-- Settles O33: a step starts from a running or a waiting machine, and each has its rows of the
table. -/
theorem runStateChangesAsTabled : Obligations.RunStateChangesAsTabled := by
  intro s t hs h
  obtain ⟨-, hr | ⟨hr, -⟩⟩ := noStep_eq_none.1 (step_cases h).1
  · exact transition_of_running hr h
  · exact transition_of_waiting hs hr h

/-! ### The instruction pointer (40_execution.md R87) -/

/-- A machine that is not running after an instruction stands where it stood. -/
theorem Effect.ip_of_not_running {s t : State} {i : Instr} (h : Effect s i t)
    (hs : (∀ m, i ≠ .inp m) → s.runState = .running) (ht : t.runState ≠ .running) : t.ip = s.ip := by
  cases h with
  | fault => exact faultEntry_ip _ _
  | halt | wait => rfl
  | input => exact absurd rfl ht
  | output | setRb => exact absurd (hs (by simp)) ht
  | store hi | jump hi | fallThrough hi => exact absurd (hs hi) ht

section
variable {s t : State}

theorem ne_faultEntry_of_running (ht : t.runState = .running) (e : Raised) : t ≠ faultEntry e s := by
  rintro rfl
  simp at ht

/-- A machine still running after a jump stands at the target, or 3 words further. -/
theorem execJump_ip {p : Int → Bool} {m1 m2 : Mode} (h : execJump p m1 m2 s = .next t)
    (ht : t.runState = .running) :
    ∃ a b, rdOp s 1 m1 = .ok a ∧ rdOp s 2 m2 = .ok b ∧
      (p a = true → (t.ip : Int) = b) ∧ (p a = false → t.ip = s.ip + 3) := by
  obtain ⟨e, -, he⟩ | ⟨a, b, ha, hb, ⟨hp, x, hx, rfl⟩ | ⟨hp, rfl⟩⟩ := execJump_cases h
  · exact absurd he (ne_faultEntry_of_running ht e)
  · obtain ⟨h0, -, rfl⟩ := chkA_eq_ok.1 hx
    exact ⟨a, b, ha, hb, by simp [h0], by simp [hp]⟩
  · exact ⟨a, b, ha, hb, by simp [hp], by simp⟩

/-- A machine still running after an instruction that is no jump stands behind it. -/
theorem exec_ip_of_not_jump {i : Instr} (hnz : ∀ m1 m2, i ≠ .jnz m1 m2)
    (hz : ∀ m1 m2, i ≠ .jz m1 m2) (h : exec i s = .next t) (ht : t.runState = .running) :
    t.ip = s.ip + i.length := by
  have hfault := ne_faultEntry_of_running (s := s) ht
  cases i with
  | add | mul =>
    obtain ⟨e, -, he⟩ | ⟨_, _, _, -, -, -, -, rfl⟩ := execArith_cases h
    · exact absurd he (hfault e)
    · rfl
  | lt | eq =>
    obtain ⟨e, -, he⟩ | ⟨_, _, _, -, -, -, rfl⟩ := execCompare_cases h
    · exact absurd he (hfault e)
    · rfl
  | inp =>
    obtain ⟨e, -, he⟩ | ⟨_, -, ⟨-, -, rfl⟩ | ⟨_, _, -, rfl⟩⟩ := execInp_cases h
    · exact absurd he (hfault e)
    · cases ht
    · rfl
  | out =>
    obtain ⟨e, -, he⟩ | ⟨_, -, -, rfl⟩ := execOut_cases h
    · exact absurd he (hfault e)
    · rfl
  | arb =>
    obtain ⟨e, -, he⟩ | ⟨_, -, -, rfl⟩ := execArb_cases h
    · exact absurd he (hfault e)
    · rfl
  | jnz m1 m2 => exact absurd rfl (hnz m1 m2)
  | jz m1 m2 => exact absurd rfl (hz m1 m2)
  | halt =>
    cases h
    cases ht

end

/-- Settles O34: a machine that stops or waits keeps `ip` by its effect; one that runs on is behind its
instruction, or where the jump says. -/
theorem instructionPointerAdvancesAsSpecified :
    Obligations.InstructionPointerAdvancesAsSpecified := by
  intro s t i hs hi h
  have hn := (step_cases h).1
  have hx : exec i s = .next t := (step_of_fetchDecode_ok hn hi).symm.trans h
  refine ⟨(exec_effect hx).ip_of_not_running (running_of_not_inp hs hn hi), fun ht => ?_⟩
  cases i with
  | jnz => simpa using execJump_ip hx ht
  | jz => simpa using execJump_ip hx ht
  | add | mul | inp | out | lt | eq | arb | halt =>
    exact ⟨nops_code _, exec_ip_of_not_jump (by simp) (by simp) hx ht⟩

/-! ### A wait (40_execution.md R89; 60_exceptions.md R186) -/

/-- An IN that does not wait does the same from every run state. -/
theorem execInp_setRun {m : Mode} {s : State} (h : s.inQ ≠ [] ∨ s.inClosed = true) (r : RunState) :
    execInp m (s.setRun r) = execInp m s := by
  have haddr : wrAddr (s.setRun r) 1 m = wrAddr s 1 m := rfl
  cases hd : wrAddr s 1 m with
  | error e =>
    have hfault : firstOperandFault s 1 (Instr.inp m).operands = some e := by
      simp [Instr.operands, firstOperandFault, hd]
    exact (exec_of_firstOperandFault (i := .inp m) (s := s.setRun r) hfault).trans
      (exec_of_firstOperandFault hfault).symm
  | ok d =>
    rw [hd] at haddr
    cases hq : s.inQ with
    | nil =>
      have hc : s.inClosed = true := by simpa [hq] using h
      exact (execInp_of_closed haddr hq hc).trans (execInp_of_closed hd hq hc).symm
    | cons v rest => exact (execInp_of_head haddr hq).trans (execInp_of_head hd hq).symm

/-- With input ready, a started machine at an IN steps alike whether it waits or runs. -/
theorem step_setRun_waitingOnInput {m : Mode} {s : State} (hs : s.started = true)
    (hr : s.runState = .running) (hm : fetchDecode s = .ok (.inp m))
    (h : s.inQ ≠ [] ∨ s.inClosed = true) : step (s.setRun .waitingOnInput) = step s := by
  have hwaiting : noStep (s.setRun .waitingOnInput) = none :=
    noStep_eq_none.2 ⟨hs, .inr ⟨rfl, h⟩⟩
  have hrunning : noStep s = none := noStep_eq_none.2 ⟨hs, .inl hr⟩
  calc step (s.setRun .waitingOnInput)
      = execInp m (s.setRun .waitingOnInput) := step_of_fetchDecode_ok hwaiting hm
    _ = execInp m s := execInp_setRun h _
    _ = step s := (step_of_fetchDecode_ok hrunning hm).symm

/-- Settles O37: only an IN waits, and it changes nothing but the run state, which the next IN does not
look at. -/
theorem waitingChangesNothingButTheRunState : Obligations.WaitingChangesNothingButTheRunState := by
  intro s t h ht hr
  have hstarted := (started_and_unended_of_noStep (step_cases h).1).1
  have htransition := transition_of_running hr h
  rw [Transition, hr, ht] at htransition
  obtain ⟨⟨m, hm⟩, -, -, rfl⟩ := htransition
  exact ⟨fun v vs => step_setRun_waitingOnInput (s := { s with inQ := v :: vs }) hstarted hr hm
      (.inl (by simp)),
    step_setRun_waitingOnInput (s := { s with inClosed := true }) hstarted hr hm (.inr rfl)⟩

end Sys2Proof.Machine
end

section
/-! Arithmetic: ADD and MUL store the exact result or overflow, and no unbounded word overflows
(41_arithmetic.md). -/

namespace Sys2Proof.Machine

/-! ### ADD and MUL (41_arithmetic.md R100, R101) -/

/-- The instruction word of a three-operand form, digit by digit (30_encoding.md R62). -/
theorem encode_of_three_operands {i : Instr} {m1 m2 m3 : Mode} (h : operandModes i = [m1, m2, m3]) :
    encode i = i.code + 100 * m1.digit + 1000 * m2.digit + 10000 * m3.digit := by
  rw [encode_eq, h]
  simp only [modeNumber]
  omega

theorem execArith_of_overflow {op : Int → Int → Int} {m1 m2 m3 : Mode} {s : State} {a b : Int}
    {d : Nat} (ha : rdOp s 1 m1 = .ok a) (hb : rdOp s 2 m2 = .ok b) (hd : wrAddr s 3 m3 = .ok d)
    (hw : isWord s.cfg (op a b) = false) :
    execArith op m1 m2 m3 s = .next (faultEntry (.arithmeticOverflow (op a b)) s) := by
  simp [execArith, ha, hb, hd, chkW_eq_error.2 ⟨hw, rfl⟩]

/-- With its operands resolved, the result is a word and is stored, or is none and is the fault. -/
theorem execArith_stores_or_overflows {op : Int → Int → Int} {m1 m2 m3 : Mode} {s : State}
    {a b : Int} {d : Nat} (hwf : s.mem.wf) (ha : rdOp s 1 m1 = .ok a) (hb : rdOp s 2 m2 = .ok b)
    (hd : wrAddr s 3 m3 = .ok d) :
    (isWord s.cfg (op a b) = true →
      ∃ t, execArith op m1 m2 m3 s = .next t ∧ StoresCell s t d (op a b) 4) ∧
    (isWord s.cfg (op a b) = false →
      execArith op m1 m2 m3 s = .next (faultEntry (.arithmeticOverflow (op a b)) s)) :=
  ⟨fun hw => ⟨_, execArith_of_ok ha hb hd hw, storesCell_store_advance hwf d _ 4⟩,
    execArith_of_overflow ha hb hd⟩

/-- Settles O13: ADD is `execArith` of the sum, and an operand fault comes before it. -/
theorem addStoresExactSum : Obligations.AddStoresExactSum :=
  fun _ _ _ _ hwf => ⟨encode_of_three_operands rfl,
    fun _ _ _ => execArith_stores_or_overflows (op := fun a b => a + b) hwf,
    fun _ => exec_of_firstOperandFault⟩

/-- Settles O14: MUL is `execArith` of the product, and an operand fault comes before it. -/
theorem mulStoresExactProduct : Obligations.MulStoresExactProduct :=
  fun _ _ _ _ hwf => ⟨encode_of_three_operands rfl,
    fun _ _ _ => execArith_stores_or_overflows (op := fun a b => a * b) hwf,
    fun _ => exec_of_firstOperandFault⟩

/-! ### ArithmeticOverflow (41_arithmetic.md R102; 00_scope.md R14) -/

/-- An instruction records a fault it may raise, or leaves the record of the cause alone. -/
theorem Effect.faultCause_cases {s t : State} {i : Instr} (h : Effect s i t) :
    (∃ e, MachineRaise s.cfg e ∧ t = faultEntry e s) ∨ t.faultCause = s.faultCause := by
  cases h with
  | fault _ he => exact .inl ⟨_, he, rfl⟩
  | _ => exact .inr rfl

theorem step_faultCause_cases {s t : State} (h : step s = .next t) :
    (∃ e, MachineRaise s.cfg e ∧ t = faultEntry e s) ∨ t.faultCause = s.faultCause := by
  obtain ⟨-, hfault | ⟨i, -, hx⟩⟩ := step_effect h
  · exact .inl hfault
  · exact hx.faultCause_cases

/-- Settles O30: a fault that a machine with unbounded words raises is no ArithmeticOverflow
(`MachineRaise`), so one that is recorded was recorded before. -/
theorem unboundedWordsNeverOverflow : Obligations.UnboundedWordsNeverOverflow := by
  intro s t hc h
  obtain ⟨e, ⟨-, hoverflow⟩, rfl⟩ | hsame := step_faultCause_cases h
  · left
    intro he
    rw [faultEntry_faultCause, Option.some_inj] at he
    cases hc.symm.trans (hoverflow he)
  · rw [hsame]
    exact ne_or_eq _ _

end Sys2Proof.Machine
end

section
/-! The channel instructions: IN stores the head of its queue, waits or faults, and OUT appends to its
queue or faults (42_io.md). -/

namespace Sys2Proof.Machine

/-- The instruction word of a one-operand form, digit by digit (30_encoding.md R62). -/
theorem encode_of_one_operand {i : Instr} {m1 : Mode} (h : operandModes i = [m1]) :
    encode i = i.code + 100 * m1.digit := by
  simp [encode_eq, h, modeNumber]

theorem firstOperandFault_of_wrAddr_error {s : State} {k : Nat} {m : Mode} {e : Raised}
    (he : wrAddr s k m = .error e) (rest : List (Role × Mode)) :
    firstOperandFault s k ((.dest, m) :: rest) = some e := by
  rw [firstOperandFault, he]

theorem firstOperandFault_of_rdOp_error {s : State} {k : Nat} {m : Mode} {e : Raised}
    (he : rdOp s k m = .error e) (rest : List (Role × Mode)) :
    firstOperandFault s k ((.source, m) :: rest) = some e := by
  rw [firstOperandFault, he]

/-! ### IN (42_io.md R110) -/

/-- An IN whose destination resolves waits on an empty open channel. -/
theorem execInp_of_open {m : Mode} {s : State} {d : Nat} (hd : wrAddr s 1 m = .ok d)
    (hq : s.inQ = []) (hc : s.inClosed = false) :
    execInp m s = .next (s.setRun .waitingOnInput) := by
  simp [execInp, hd, hq, hc]

/-- What a completed IN leaves: beside the queue and the run state, one stored cell and `ip`. -/
theorem storesCell_input {s : State} (hwf : s.mem.wf) (rest : List Int) (d : Nat) (v : Int) :
    StoresCell { s with inQ := rest, runState := .running }
      ((((s.popInput rest).store d v).setRun .running).advance 2) d v 2 :=
  storesCell_store_advance (s := (s.popInput rest).setRun .running) hwf d v 2

/-- Settles O17: once the destination resolves, the channel is at its head, open or closed; a
destination that does not resolve is the first operand fault. -/
theorem inStoresHeadOrWaitsOrFaults : Obligations.InStoresHeadOrWaitsOrFaults := by
  intro m1 s hwf
  refine ⟨encode_of_one_operand rfl, fun d hd => ⟨fun v rest hq => ?head, ?wait, ?closed⟩,
    fun e he => ?fault⟩
  case head => exact ⟨_, execInp_of_head hd hq, storesCell_input hwf rest d v⟩
  case wait => exact execInp_of_open hd
  case closed => exact execInp_of_closed hd
  case fault => exact exec_of_firstOperandFault (firstOperandFault_of_wrAddr_error he [])

/-! ### OUT (42_io.md R111) -/

theorem execOut_of_open {m : Mode} {s : State} {v : Int} (hv : rdOp s 1 m = .ok v)
    (hd : s.outDropped = false) : execOut m s = .next ((s.pushOutput v).advance 2) := by
  simp [execOut, hv, hd]

theorem execOut_of_dropped {m : Mode} {s : State} {v : Int} (hv : rdOp s 1 m = .ok v)
    (hd : s.outDropped = true) :
    execOut m s = .next (faultEntry (.channelClosed .output) s) := by
  simp [execOut, hv, hd]

/-- Settles O18: once the source resolves, the consumer has dropped or has not; a source that does not
resolve is the first operand fault. -/
theorem outAppendsToOutput : Obligations.OutAppendsToOutput := by
  intro m1 s
  refine ⟨encode_of_one_operand rfl, fun v hv => ⟨?append, ?dropped⟩, fun e he => ?fault⟩
  case append => exact execOut_of_open hv
  case dropped => exact execOut_of_dropped hv
  case fault => exact exec_of_firstOperandFault (firstOperandFault_of_rdOp_error he [])

end Sys2Proof.Machine
end

section
/-! The jumps: JNZ and JZ share `execJump`, and differ in the condition on which the jump is taken
(43_jumps.md). -/

namespace Sys2Proof.Machine

/-- The instruction word of a two-operand form, digit by digit (30_encoding.md R62). -/
theorem encode_of_two_operands {i : Instr} {m1 m2 : Mode} (h : operandModes i = [m1, m2]) :
    encode i = i.code + 100 * m1.digit + 1000 * m2.digit := by
  rw [encode_eq, h]
  simp only [modeNumber]
  omega

/-! ### A jump whose operands resolve (43_jumps.md R122) -/

section
variable {p : Int → Bool} {m1 m2 : Mode} {s : State} {a b : Int}

/-- The target of a jump not taken is resolved and not checked. -/
theorem execJump_of_not_taken (ha : rdOp s 1 m1 = .ok a) (hb : rdOp s 2 m2 = .ok b)
    (hp : p a = false) : execJump p m1 m2 s = .next (s.advance 3) := by
  simp [execJump, ha, hb, hp]

theorem execJump_of_bad_target {e : Raised} (ha : rdOp s 1 m1 = .ok a) (hb : rdOp s 2 m2 = .ok b)
    (hp : p a = true) (he : chkA s.cfg b = .error e) :
    execJump p m1 m2 s = .next (faultEntry e s) := by
  simp [execJump, ha, hb, hp, he]

/-- With its operands resolved, the jump is not taken, or its target is an address, or a fault. -/
theorem execJump_advances_or_jumps_or_faults (ha : rdOp s 1 m1 = .ok a)
    (hb : rdOp s 2 m2 = .ok b) :
    (p a = false → execJump p m1 m2 s = .next { s with ip := s.ip + 3 }) ∧
    (p a = true → ValidAddr s.cfg b → execJump p m1 m2 s = .next { s with ip := b.toNat }) ∧
    (∀ e, p a = true → AddrFault s.cfg b e → execJump p m1 m2 s = .next (faultEntry e s)) :=
  ⟨execJump_of_not_taken ha hb,
    fun hp hvalid => execJump_of_taken ha hb hp (chkA_eq_ok_iff_validAddr.2 ⟨hvalid, rfl⟩),
    fun _ hp hbad => execJump_of_bad_target ha hb hp (chkA_eq_error_iff_addrFault.2 hbad)⟩

end

/-! ### JNZ and JZ (43_jumps.md R120, R121) -/

/-- Settles O19: JNZ is `execJump` on a condition that is not 0, and an operand fault comes before it. -/
theorem jnzJumpsWhenNonZero : Obligations.JnzJumpsWhenNonZero := by
  intro m1 m2 s
  refine ⟨encode_of_two_operands rfl, fun a b ha hb => ?resolved, fun _ => exec_of_firstOperandFault⟩
  case resolved =>
    have hjump := execJump_advances_or_jumps_or_faults (p := fun a => decide (a ≠ 0)) ha hb
    simp only [decide_eq_true_eq, decide_eq_false_iff_not, not_not] at hjump
    exact hjump

/-- Settles O20: JZ is `execJump` on a condition that is 0, and an operand fault comes before it. -/
theorem jzJumpsWhenZero : Obligations.JzJumpsWhenZero := by
  intro m1 m2 s
  refine ⟨encode_of_two_operands rfl, fun a b ha hb => ?resolved, fun _ => exec_of_firstOperandFault⟩
  case resolved =>
    have hjump := execJump_advances_or_jumps_or_faults (p := fun a => decide (a = 0)) ha hb
    simp only [decide_eq_true_eq, decide_eq_false_iff_not] at hjump
    exact hjump

end Sys2Proof.Machine
end

section
/-! The comparisons: LT and EQ share `execCompare`, which stores the 1 or 0 of its test and cannot itself
fault (44_compare.md). -/

namespace Sys2Proof.Machine

/-- With its operands resolved, a comparison stores its result and changes nothing else but `ip`. -/
theorem execCompare_stores {f : Int → Int → Int} {m1 m2 m3 : Mode} {s : State} {a b : Int} {d : Nat}
    (hwf : s.mem.wf) (ha : rdOp s 1 m1 = .ok a) (hb : rdOp s 2 m2 = .ok b)
    (hd : wrAddr s 3 m3 = .ok d) :
    ∃ t, execCompare f m1 m2 m3 s = .next t ∧ StoresCell s t d (f a b) 4 :=
  ⟨_, execCompare_of_ok ha hb hd, storesCell_store_advance hwf d _ 4⟩

/-- Settles O15: LT is `execCompare` of the signed comparison, and an operand fault comes before it. -/
theorem ltStoresOneOrZero : Obligations.LtStoresOneOrZero := by
  intro m1 m2 m3 s hwf
  refine ⟨encode_of_three_operands rfl, fun a b d ha hb hd => ?resolved,
    fun _ => exec_of_firstOperandFault⟩
  case resolved =>
    rw [← ltWord_eq]
    exact execCompare_stores hwf ha hb hd

/-- Settles O16: EQ is `execCompare` of integer equality, and an operand fault comes before it. -/
theorem eqStoresOneOrZero : Obligations.EqStoresOneOrZero := by
  intro m1 m2 m3 s hwf
  refine ⟨encode_of_three_operands rfl, fun a b d ha hb hd => ?resolved,
    fun _ => exec_of_firstOperandFault⟩
  case resolved =>
    rw [← eqWord_eq]
    exact execCompare_stores hwf ha hb hd

end Sys2Proof.Machine
end

section
/-! The relative base: ARB adds its operand to it, and no other instruction writes it
(45_relative_base.md). -/

namespace Sys2Proof.Machine

/-! ### ARB (45_relative_base.md R140) -/

section
variable {m : Mode} {s : State} {a : Int}

theorem execArb_of_isWord (ha : rdOp s 1 m = .ok a) (hw : isWord s.cfg (s.rb + a) = true) :
    execArb m s = .next ((s.setRb (s.rb + a)).advance 2) := by
  simp [execArb, ha, chkW_eq_ok.2 ⟨hw, rfl⟩]

theorem execArb_of_overflow (ha : rdOp s 1 m = .ok a) (hw : isWord s.cfg (s.rb + a) = false) :
    execArb m s = .next (faultEntry (.arithmeticOverflow (s.rb + a)) s) := by
  simp [execArb, ha, chkW_eq_error.2 ⟨hw, rfl⟩]

theorem execArb_of_operandFault {e : Raised} (he : rdOp s 1 m = .error e) :
    execArb m s = .next (faultEntry e s) :=
  exec_of_firstOperandFault (i := .arb m) (firstOperandFault_of_rdOp_error he [])

end

/-- Settles O21: once the source resolves, the sum is a word or is none; a source that does not
resolve is the fault taken. -/
theorem arbAddsToRelativeBase : Obligations.ArbAddsToRelativeBase := by
  intro m1 s
  refine ⟨encode_of_one_operand rfl, fun a ha => ⟨?word, ?overflow⟩, fun e he => ?fault⟩
  case word => exact execArb_of_isWord ha
  case overflow => exact execArb_of_overflow ha
  case fault => exact execArb_of_operandFault he

/-! ### What a step adds to `rb` (45_relative_base.md R141) -/

section
variable {m : Mode} {s : State}

theorem arbOperand_of_not_arb (hf : ∀ m, fetchDecode s ≠ .ok (.arb m)) : arbOperand s = 0 := by
  unfold arbOperand
  split
  · next m h => exact absurd h (hf m)
  · rfl

theorem arbOperand_of_ok {a : Int} (hf : fetchDecode s = .ok (.arb m)) (ha : rdOp s 1 m = .ok a) :
    arbOperand s = if isWord s.cfg (s.rb + a) then a else 0 := by
  simp [arbOperand, hf, ha]

theorem arbOperand_of_operandFault {e : Raised} (hf : fetchDecode s = .ok (.arb m))
    (he : rdOp s 1 m = .error e) : arbOperand s = 0 := by
  simp [arbOperand, hf, he]

end

theorem Effect.rb_of_not_arb {s t : State} {i : Instr} (h : Effect s i t)
    (hi : ∀ m, i ≠ .arb m) : t.rb = s.rb := by
  cases h with
  | fault _ _ => exact faultEntry_rb _ s
  | setRb _ => exact absurd rfl (hi _)
  | _ => rfl

theorem step_rb_of_not_arb {s t : State} (h : step s = .next t)
    (hf : ∀ m, fetchDecode s ≠ .ok (.arb m)) : t.rb = s.rb := by
  obtain ⟨-, ⟨e, -, rfl⟩ | ⟨i, hi, hx⟩⟩ := step_effect h
  · exact faultEntry_rb e s
  · exact hx.rb_of_not_arb fun m hm => hf m (hm ▸ hi)

/-- A fetched ARB adds what `arbOperand` says: its operand if it completes, 0 if it faults. -/
theorem execArb_rb {m : Mode} {s t : State} (hf : fetchDecode s = .ok (.arb m))
    (h : execArb m s = .next t) : t.rb = s.rb + arbOperand s := by
  cases hop : rdOp s 1 m with
  | error e =>
    cases (execArb_of_operandFault hop).symm.trans h
    simp [arbOperand_of_operandFault hf hop]
  | ok a =>
    rw [arbOperand_of_ok hf hop]
    cases hw : isWord s.cfg (s.rb + a) with
    | true =>
      cases (execArb_of_isWord hop hw).symm.trans h
      simp
    | false =>
      cases (execArb_of_overflow hop hw).symm.trans h
      simp

theorem step_rb {s t : State} (h : step s = .next t) : t.rb = s.rb + arbOperand s := by
  by_cases harb : ∃ m, fetchDecode s = .ok (.arb m)
  · obtain ⟨m, hm⟩ := harb
    obtain ⟨-, ⟨e, he, -⟩ | ⟨i, hi, hx⟩⟩ := step_cases h
    · cases hm.symm.trans he
    · cases hm.symm.trans hi
      exact execArb_rb hm hx
  · rw [not_exists] at harb
    rw [arbOperand_of_not_arb harb, step_rb_of_not_arb h harb, Int.add_zero]

theorem runFor_rb (n : Nat) (s : State) : (State.runFor n s).rb = s.rb + arbTotal n s := by
  induction n generalizing s with
  | zero => simp [State.runFor, arbTotal]
  | succ n ih =>
    cases h : step s with
    | next t =>
      have hrun : State.runFor (n + 1) s = State.runFor n t := by simp [State.runFor, h]
      have htotal : arbTotal (n + 1) s = arbOperand s + arbTotal n t := by simp [arbTotal, h]
      rw [hrun, htotal, ih t, step_rb h, Int.add_assoc]
    | fault | refused => simp [State.runFor, arbTotal, h]

/-- Settles O35: a step that fetches no ARB keeps `rb`, every other adds `arbOperand`, and the rest is
induction on the number of steps. -/
theorem relativeBaseIsTheSumOfArbOperands : Obligations.RelativeBaseIsTheSumOfArbOperands := by
  refine ⟨fun s t h hne => ?writer, runFor_rb⟩
  case writer =>
    by_contra hnone
    exact hne (step_rb_of_not_arb h (not_exists.1 hnone))

end Sys2Proof.Machine
end

section
/-! HALT: the run ends, with the queues left to the host (46_halt.md). -/

namespace Sys2Proof.Machine

@[simp] theorem State.enterHalted_terminated (s : State) : s.enterHalted.terminated = true := rfl

/-- HALT has no operand and no check, so it never faults. -/
theorem exec_halt (s : State) : exec .halt s = .next s.enterHalted := rfl

theorem join_of_halted {s : State} (h : s.runState = .halted) : s.join = .done s (.joined .ok) := by
  rw [State.join, h]

/-- Settles O22: HALT leads to `enterHalted`, which is terminated, so no step follows, and is halted, so
the join succeeds. -/
theorem haltEndsTheRun : Obligations.HaltEndsTheRun := by
  refine ⟨rfl, fun s => ⟨s.enterHalted, exec_halt s, rfl, ?no_step, ?inQ, ?outQ, ?join⟩⟩
  case no_step => exact step_ne_next_of_terminated s.enterHalted_terminated
  case inQ => exact s.enterHalted_inQ
  case outQ => exact s.enterHalted_outQ
  case join => exact join_of_halted s.enterHalted_runState

end Sys2Proof.Machine
end

section
/-! A machine and what arrives at its input: a step that does not wait does the same with more values at
the tail of `InQ` and with the input closed behind them (70_reset_and_hazards.md R199). -/

namespace Sys2Proof.Machine

/-! ### Values and the closed bit arriving -/

/-- `vs` at the tail of `InQ`, and `in_closed` as the producer now has it (60_exceptions.md R182). -/
def State.receive (s : State) (vs : List Int) (closed : Bool) : State :=
  { s.feed vs with inClosed := closed }

section
variable {s t : State} {vs : List Int} {closed : Bool}

@[simp] theorem State.receive_runState : (s.receive vs closed).runState = s.runState := rfl
@[simp] theorem State.receive_started : (s.receive vs closed).started = s.started := rfl
@[simp] theorem State.receive_cfg : (s.receive vs closed).cfg = s.cfg := rfl
@[simp] theorem State.receive_inQ : (s.receive vs closed).inQ = s.inQ ++ vs := rfl
@[simp] theorem State.receive_inClosed : (s.receive vs closed).inClosed = closed := rfl
@[simp] theorem State.receive_outQ : (s.receive vs closed).outQ = s.outQ := rfl
@[simp] theorem State.receive_outClosed : (s.receive vs closed).outClosed = s.outClosed := rfl
@[simp] theorem State.receive_outDropped : (s.receive vs closed).outDropped = s.outDropped := rfl

theorem State.receive_nothing (h : s.inClosed = closed) : s.receive [] closed = s := by
  subst h
  simp [State.receive, State.feed]

/-- Fault entry looks at the instruction and not at the input. -/
theorem faultEntry_receive (e : Raised) :
    faultEntry e (s.receive vs closed) = (faultEntry e s).receive vs closed := by
  have hf : fetch (s.receive vs closed) = fetch s := rfl
  unfold faultEntry
  rw [hf]
  split <;> rfl

/-! ### Instructions -/

/-- In the `Except` monad of the meanings: a map goes into a bind. -/
theorem map_bind_eq {α β γ : Type} (x : Except Raised α) (f : α → Except Raised β) (g : β → γ) :
    (x >>= f).map g = x >>= fun a => (f a).map g := by
  cases x <;> rfl

/-- A commit whose effects are those of `s` with the input as it arrived. -/
theorem commit_receive {r : Except Raised State} (h : commit s r = .next t) :
    commit (s.receive vs closed) (r.map (State.receive · vs closed)) =
      .next (t.receive vs closed) := by
  cases r with
  | ok u =>
    cases h
    rfl
  | error e =>
    cases h
    exact congrArg Host.Outcome.next (faultEntry_receive e)

theorem execArith_receive {op : Int → Int → Int} {m1 m2 m3 : Mode}
    (h : execArith op m1 m2 m3 s = .next t) :
    execArith op m1 m2 m3 (s.receive vs closed) = .next (t.receive vs closed) := by
  rw [← commit_receive h]
  simp only [map_bind_eq]
  rfl

theorem execCompare_receive {f : Int → Int → Int} {m1 m2 m3 : Mode}
    (h : execCompare f m1 m2 m3 s = .next t) :
    execCompare f m1 m2 m3 (s.receive vs closed) = .next (t.receive vs closed) := by
  rw [← commit_receive h]
  simp only [map_bind_eq]
  rfl

theorem execJump_receive {p : Int → Bool} {m1 m2 : Mode} (h : execJump p m1 m2 s = .next t) :
    execJump p m1 m2 (s.receive vs closed) = .next (t.receive vs closed) := by
  rw [← commit_receive h]
  simp only [map_bind_eq, apply_ite]
  rfl

theorem execOut_receive {m : Mode} (h : execOut m s = .next t) :
    execOut m (s.receive vs closed) = .next (t.receive vs closed) := by
  rw [← commit_receive h]
  simp only [map_bind_eq, apply_ite]
  rfl

theorem execArb_receive {m : Mode} (h : execArb m s = .next t) :
    execArb m (s.receive vs closed) = .next (t.receive vs closed) := by
  rw [← commit_receive h]
  simp only [map_bind_eq]
  rfl

/-- An IN on an open channel that does not wait takes a head that was there before. -/
theorem execInp_receive {m : Mode} (hopen : s.inClosed = false) (h : execInp m s = .next t)
    (hw : t.runState ≠ .waitingOnInput) :
    execInp m (s.receive vs closed) = .next (t.receive vs closed) := by
  have haddr : wrAddr (s.receive vs closed) 1 m = wrAddr s 1 m := rfl
  cases hd : wrAddr s 1 m with
  | error e =>
    cases (exec_of_firstOperandFault (i := .inp m) (firstOperandFault_of_wrAddr_error hd [])).symm.trans h
    rw [← faultEntry_receive]
    exact exec_of_firstOperandFault (i := .inp m)
      (firstOperandFault_of_wrAddr_error (haddr.trans hd) [])
  | ok d =>
    cases hq : s.inQ with
    | nil =>
      cases (execInp_of_open hd hq hopen).symm.trans h
      exact absurd rfl hw
    | cons v rest =>
      cases (execInp_of_head hd hq).symm.trans h
      exact execInp_of_head (haddr.trans hd) (by simp [hq])

theorem exec_receive {i : Instr} (hopen : s.inClosed = false) (h : exec i s = .next t)
    (hw : t.runState ≠ .waitingOnInput) :
    exec i (s.receive vs closed) = .next (t.receive vs closed) := by
  cases i with
  | add | mul => exact execArith_receive h
  | inp => exact execInp_receive hopen h hw
  | out => exact execOut_receive h
  | jnz | jz => exact execJump_receive h
  | lt | eq => exact execCompare_receive h
  | arb => exact execArb_receive h
  | halt =>
    cases h
    rfl

/-- More input takes no step away. -/
theorem noStep_receive (hopen : s.inClosed = false) (h : noStep s = none) :
    noStep (s.receive vs closed) = none := by
  obtain ⟨hs, hr | ⟨hr, hin⟩⟩ := noStep_eq_none.1 h
  · exact noStep_eq_none.2 ⟨hs, .inl hr⟩
  · have hne : s.inQ ≠ [] := hin.resolve_right (by simp [hopen])
    exact noStep_eq_none.2 ⟨hs, .inr ⟨hr, .inl (by simp [hne])⟩⟩

/-- A step that does not wait commutes with what arrives at the open input. -/
theorem step_receive (hopen : s.inClosed = false) (h : step s = .next t)
    (hw : t.runState ≠ .waitingOnInput) :
    step (s.receive vs closed) = .next (t.receive vs closed) := by
  have hfetch : fetchDecode (s.receive vs closed) = fetchDecode s := rfl
  obtain ⟨hn, ⟨e, he, rfl⟩ | ⟨i, hi, hx⟩⟩ := step_cases h
  · rw [← faultEntry_receive]
    exact step_of_fetchDecode_error (noStep_receive hopen hn) (hfetch.trans he)
  · rw [step_of_fetchDecode_ok (noStep_receive hopen hn) (hfetch.trans hi)]
    exact exec_receive hopen hx hw

end

theorem State.receive_open {s : State} (h : s.inClosed = false) (vs : List Int) :
    s.receive vs false = s.feed vs := by
  simp [State.receive, State.feed, h]

/-- Settles O38: the value arrives at an open input, which the step leaves open. -/
theorem arrivalTimeOfInputDoesNotMatter : Obligations.ArrivalTimeOfInputDoesNotMatter := by
  intro s t v hopen h hw
  have ht : t.inClosed = false := (step_sameFarEnds h).inClosed.trans hopen
  rw [← State.receive_open hopen, ← State.receive_open ht]
  exact step_receive hopen h hw

end Sys2Proof.Machine
end

section
/-! Systems: what a placed step makes of every machine, and how the steps of two machines commute
(60_exceptions.md R182, R184). -/

namespace Sys2Proof.Machine

/-! ### A placed step, machine by machine -/

/-- What is left at machine `i` after its step to `t`: a wired output has moved away. -/
def System.sent (sys : System) (i : Nat) (t : State) : State :=
  if sys.consumerOf i = none then t else { t with outQ := [] }

/-- What machine `k`, being `u`, is after machine `i` has stepped to `t`: its consumer receives. -/
def System.delivered (sys : System) (i k : Nat) (t u : State) : State :=
  if sys.consumerOf i = some k then u.receive t.outQ t.outClosed else u

/-- Machine `k`, being `u`, after machine `i` has stepped to `t` and the step has been placed. -/
def System.placed (sys : System) (i k : Nat) (t u : State) : State :=
  sys.delivered i k t (if i = k then sys.sent i t else u)

section
variable {sys : System} {i j k : Nat} {s t u : State}

theorem delivered_of_consumer (h : sys.consumerOf i = some k) :
    sys.delivered i k t u = u.receive t.outQ t.outClosed := if_pos h

theorem delivered_of_not_consumer (h : sys.consumerOf i ≠ some k) : sys.delivered i k t u = u :=
  if_neg h

theorem placed_self : sys.placed i i t u = sys.delivered i i t (sys.sent i t) := by
  rw [System.placed, if_pos rfl]

theorem placed_other (hk : i ≠ k) : sys.placed i k t u = sys.delivered i k t u := by
  rw [System.placed, if_neg hk]

theorem place_machines_of_consumer (hc : sys.consumerOf i = some j) :
    (sys.place i t).machines = (sys.machines.set i { t with outQ := [] }).modify j
      (State.receive · t.outQ t.outClosed) := by
  rw [List.modify_eq_set_getElem?]
  cases hj : (sys.setMachine i { t with outQ := [] }).machines[j]? with
  | none =>
    rw [System.setMachine_machines] at hj
    simp [System.place, hc, hj]
  | some w =>
    rw [place_of_wired hc hj]
    rw [System.setMachine_machines] at hj
    simp [hj, State.receive]

/-- A placed step, looked at machine by machine. -/
theorem place_getElem? (sys : System) (i : Nat) (t : State) (k : Nat) :
    (sys.place i t).machines[k]? = sys.machines[k]?.map (sys.placed i k t) := by
  cases hc : sys.consumerOf i with
  | none =>
    rw [place_of_unwired hc, System.setMachine_machines, List.set_eq_modify, List.getElem?_modify]
    cases sys.machines[k]? <;> simp [System.placed, System.delivered, System.sent, hc]
  | some j =>
    rw [place_machines_of_consumer hc, List.getElem?_modify, List.set_eq_modify,
      List.getElem?_modify]
    cases sys.machines[k]? <;> simp [System.placed, System.delivered, System.sent, hc]

@[simp] theorem consumerOf_place : (sys.place i t).consumerOf k = sys.consumerOf k := by
  simp [System.consumerOf]

@[simp] theorem placed_place : (sys.place j s).placed i k t u = sys.placed i k t u := by
  simp [System.placed, System.delivered, System.sent]

/-- Systems with the same wiring and joins are equal when their machines are. -/
theorem System.ext_machines {sys t : System} (hw : sys.wires = t.wires) (hj : sys.joined = t.joined)
    (hm : ∀ k : Nat, sys.machines[k]? = t.machines[k]?) : sys = t := by
  cases sys
  cases t
  simp_all [List.ext_getElem?_iff]

/-! ### Two placed steps -/

/-- One channel has one producer: two machines do not send to the same one. -/
theorem consumers_differ (h : sys.Inv) (hij : i ≠ j) (hi : sys.consumerOf i = some k) :
    sys.consumerOf j ≠ some k := fun hj =>
  hij (congrArg Prod.fst (List.inj_on_of_nodup_map h.one_producer (consumerOf_eq_some hi)
    (consumerOf_eq_some hj) rfl))

theorem delivered_comm (h : sys.Inv) (hij : i ≠ j) :
    sys.delivered j k t (sys.delivered i k s u) = sys.delivered i k s (sys.delivered j k t u) := by
  by_cases hi : sys.consumerOf i = some k
  · simp only [delivered_of_not_consumer (consumers_differ h hij hi)]
  · simp only [delivered_of_not_consumer hi]

/-- What a machine has received is no part of what it sends. -/
theorem delivered_delivered_left :
    sys.delivered j k (sys.delivered i j s t) u = sys.delivered j k t u := by
  unfold System.delivered
  split
  · split <;> rfl
  · rfl

theorem sent_delivered : sys.sent j (sys.delivered i j s t) = sys.delivered i j s (sys.sent j t) := by
  unfold System.delivered System.sent
  split <;> split <;> rfl

/-- Two machines that each step as if the other's output had arrived or not leave the same system in
both orders. -/
theorem place_comm (h : sys.Inv) (hij : i ≠ j) :
    (sys.place i s).place j (sys.delivered i j s t) =
      (sys.place j t).place i (sys.delivered j i t s) := by
  refine System.ext_machines (by simp) (by simp) fun k => ?_
  rw [place_getElem?, place_getElem?, place_getElem?, place_getElem?, Option.map_map, Option.map_map]
  congr 1
  funext u
  simp only [Function.comp_apply, placed_place]
  by_cases hik : i = k
  · subst hik
    simp only [placed_other hij.symm, placed_self, delivered_delivered_left, sent_delivered,
      delivered_comm h hij]
  · by_cases hjk : j = k
    · subst hjk
      simp only [placed_other hij, placed_self, delivered_delivered_left, sent_delivered,
        delivered_comm h hij]
    · simp only [placed_other hik, placed_other hjk, delivered_delivered_left, delivered_comm h hij]

/-! ### A wait in a system -/

/-- Placing a machine whose output is as it was replaces it and nothing else. -/
theorem place_eq_setMachine (h : sys.Inv) (hs : sys.machines[i]? = some s) (hq : t.outQ = s.outQ)
    (hc : t.outClosed = s.outClosed) (hin : t.inClosed = s.inClosed) :
    sys.place i t = sys.setMachine i t := by
  cases hcons : sys.consumerOf i with
  | none => exact place_of_unwired hcons t
  | some k =>
    have hwire := consumerOf_eq_some hcons
    obtain ⟨v, hv⟩ := consumer_exists h hcons
    obtain ⟨hempty, -, hclosed, -⟩ := h.wire_shared _ hwire s v hs hv
    have hsent : ({ t with outQ := [] } : State) = t := by rw [← hempty, ← hq]
    obtain ⟨u, hu⟩ : ∃ u, (sys.setMachine i t).machines[k]? = some u :=
      ⟨_, List.getElem?_eq_getElem (by simpa using (h.wire_range _ hwire).2)⟩
    have hsame : u.inClosed = t.outClosed := by
      obtain ⟨hki, rfl⟩ | ⟨-, hu'⟩ := getElem?_set_cases hu
      · subst hki
        cases hs.symm.trans hv
        rw [hin, hclosed, hc]
      · cases hv.symm.trans hu'
        rw [hclosed, hc]
    rw [place_of_wired hcons (by rw [hsent]; exact hu), hsent, hq, hempty]
    exact (congrArg _ (State.receive_nothing hsame)).trans (System.setMachine_self hu)

theorem place_setMachine : (sys.setMachine i s).place i t = sys.place i t := by
  simp [System.place, System.setMachine, System.consumerOf]

/-- A good machine that comes to wait was running at an IN on an empty open channel, and nothing but its
run state changes. -/
theorem wait_cases (h : s.Inv) (ht : step s = .next t) (hw : t.runState = .waitingOnInput) :
    s.runState = .running ∧ (∃ m, fetchDecode s = .ok (.inp m)) ∧ t = s.setRun .waitingOnInput := by
  have htr := runStateChangesAsTabled s t h ht
  unfold Transition at htr
  rw [hw] at htr
  cases hr : s.runState with
  | running =>
    rw [hr] at htr
    obtain ⟨hm, -, -, rfl⟩ := htr
    exact ⟨rfl, hm, rfl⟩
  | waitingOnInput | halted | faulted =>
    rw [hr] at htr
    exact htr.elim

/-! ### The steps of two machines -/

theorem place_getElem?_of_ne (hik : i ≠ k) (hu : sys.machines[k]? = some u) :
    (sys.place i t).machines[k]? = some (sys.delivered i k t u) := by
  rw [place_getElem?, hu, Option.map_some, placed_other hik]

theorem runSchedule_run (hs : sys.machines[i]? = some s) (ht : step s = .next t)
    (rest : List Action) :
    sys.runSchedule (.run i :: rest) = (sys.place i t).runSchedule rest := by
  simp [System.runSchedule, act_run_of_step hs ht]

/-- The consumer of a machine that can step has its input open. -/
theorem consumer_open (h : sys.Inv) (hs : sys.machines[i]? = some s) (hn : noStep s = none)
    (hc : sys.consumerOf i = some k) (hu : sys.machines[k]? = some u) : u.inClosed = false := by
  obtain ⟨-, -, hclosed, -⟩ := h.wire_shared _ (consumerOf_eq_some hc) s u hs hu
  rw [hclosed]
  exact outClosed_eq_false (h.machine s (List.mem_of_getElem? hs))
    (started_and_unended_of_noStep hn).2

end
end Sys2Proof.Machine
end

section
/-! Systems: two machines that can both step come to the same system in either order, after at most one
more step (60_exceptions.md R184). -/

namespace Sys2Proof.Machine

/-- The two orders of the steps of machines `i` and `j`, which have led to `si` and `sj`, meet again. -/
def MeetAgain (i j : Nat) (si sj : System) : Prop :=
  ∃ t, (si.runSchedule [.run j] = some t ∨ si.runSchedule [.run j, .run i] = some t) ∧
    (sj.runSchedule [.run i] = some t ∨ sj.runSchedule [.run i, .run j] = some t)

theorem MeetAgain.symm {i j : Nat} {si sj : System} (h : MeetAgain i j si sj) :
    MeetAgain j i sj si := by
  obtain ⟨t, hi, hj⟩ := h
  exact ⟨t, hj, hi⟩

section
variable {sys : System} {i j : Nat} {s t u v : State}

/-- A step to `t` that does not wait is not disturbed by what another machine's step to `v` sends. -/
theorem step_delivered (h : sys.Inv) (hs : sys.machines[i]? = some s) (ht : step s = .next t)
    (hu : sys.machines[j]? = some u) (hv : step u = .next v) (hw : t.runState ≠ .waitingOnInput) :
    step (sys.delivered j i v s) = .next (sys.delivered j i v t) := by
  by_cases hc : sys.consumerOf j = some i
  · rw [delivered_of_consumer hc, delivered_of_consumer hc]
    exact step_receive (consumer_open h hu (step_cases hv).1 hc hs) ht hw
  · rwa [delivered_of_not_consumer hc, delivered_of_not_consumer hc]

/-- What another machine's step sends leaves a step as it was, or ends the wait it came to. -/
theorem step_delivered_or_wakes (h : sys.Inv) (hs : sys.machines[i]? = some s)
    (ht : step s = .next t) (hu : sys.machines[j]? = some u) (hv : step u = .next v) :
    step (sys.delivered j i v s) = .next (sys.delivered j i v t) ∨
      t.runState = .waitingOnInput ∧ sys.consumerOf j = some i ∧
        (v.outQ ≠ [] ∨ v.outClosed = true) := by
  by_cases hw : t.runState = .waitingOnInput
  · by_cases hc : sys.consumerOf j = some i
    · by_cases hloud : v.outQ ≠ [] ∨ v.outClosed = true
      · exact .inr ⟨hw, hc, hloud⟩
      · obtain ⟨hq, hclosed⟩ : v.outQ = [] ∧ v.outClosed = false := by simpa using hloud
        have hopen := consumer_open h hu (step_cases hv).1 hc hs
        have hopen' := (step_sameFarEnds ht).inClosed.trans hopen
        left
        rwa [delivered_of_consumer hc, delivered_of_consumer hc, hq, hclosed,
          State.receive_nothing hopen, State.receive_nothing hopen']
    · left
      rwa [delivered_of_not_consumer hc, delivered_of_not_consumer hc]
  · exact .inl (step_delivered h hs ht hu hv hw)

/-- Steps that do not disturb each other commute. -/
theorem meetAgain_of_undisturbed (h : sys.Inv) (hij : i ≠ j) (hs : sys.machines[i]? = some s)
    (hu : sys.machines[j]? = some u)
    (hi : step (sys.delivered j i v s) = .next (sys.delivered j i v t))
    (hj : step (sys.delivered i j t u) = .next (sys.delivered i j t v)) :
    MeetAgain i j (sys.place i t) (sys.place j v) := by
  refine ⟨(sys.place i t).place j (sys.delivered i j t v), .inl ?_, .inl ?_⟩
  · exact runSchedule_run (place_getElem?_of_ne hij hu) hj []
  · rw [place_comm h hij]
    exact runSchedule_run (place_getElem?_of_ne hij.symm hs) hi []

/-- A machine at an IN wakes to the same step, whether it has come to wait before the input or not. -/
theorem wakes (hs : s.started = true) (hr : s.runState = .running)
    (hm : ∃ m, fetchDecode s = .ok (.inp m)) {vs : List Int} {closed : Bool}
    (hin : vs ≠ [] ∨ closed = true) :
    ∃ w, step (s.receive vs closed) = .next w ∧
      step ((s.setRun .waitingOnInput).receive vs closed) = .next w := by
  obtain ⟨m, hm⟩ := hm
  obtain ⟨w, hw⟩ := exists_step_eq_next_iff.2
    (noStep_eq_none.2 ⟨hs, .inl hr⟩ : noStep (s.receive vs closed) = none)
  refine ⟨w, hw, ?_⟩
  rw [← hw]
  exact step_setRun_waitingOnInput (s := s.receive vs closed) hs hr hm
    (hin.imp_left fun hvs => by simp [hvs])

/-- If the step of machine `j` ends the wait that machine `i` came to, the order that let `i` wait needs
one more step of `i`. -/
theorem meetAgain_of_wait (h : sys.Inv) (hij : i ≠ j) (hs : sys.machines[i]? = some s)
    (ht : step s = .next t) (hu : sys.machines[j]? = some u) (hv : step u = .next v)
    (hw : t.runState = .waitingOnInput) (hc : sys.consumerOf j = some i)
    (hin : v.outQ ≠ [] ∨ v.outClosed = true)
    (hj : step (sys.delivered i j t u) = .next (sys.delivered i j t v)) :
    MeetAgain i j (sys.place i t) (sys.place j v) := by
  obtain ⟨hr, hm, rfl⟩ := wait_cases (h.machine s (List.mem_of_getElem? hs)) ht hw
  have hstarted := (started_and_unended_of_noStep (step_cases ht).1).1
  obtain ⟨w, hwake, hwait⟩ := wakes hstarted hr hm hin
  have hafter : (sys.place j v).machines[i]? = some (s.receive v.outQ v.outClosed) := by
    rw [place_getElem?_of_ne hij.symm hs, delivered_of_consumer hc]
  have hboth : (sys.place i (s.setRun .waitingOnInput)).place j
        (sys.delivered i j (s.setRun .waitingOnInput) v) =
      (sys.place j v).setMachine i ((s.setRun .waitingOnInput).receive v.outQ v.outClosed) := by
    rw [place_comm h hij, delivered_of_consumer hc]
    exact place_eq_setMachine (place_keeps_inv h hu hv) hafter rfl rfl rfl
  refine ⟨(sys.place j v).place i w, .inr ?_, .inl (runSchedule_run hafter hwake [])⟩
  have hi : i < (sys.place j v).machines.length := (List.getElem?_eq_some_iff.1 hafter).1
  rw [runSchedule_run (place_getElem?_of_ne hij hu) hj, hboth,
    runSchedule_run (List.getElem?_set_self hi) hwait, place_setMachine]
  rfl

/-- A machine that has come to wait has sent nothing to its consumer and has not closed it. -/
theorem wait_sends_nothing (h : sys.Inv) (hs : sys.machines[i]? = some s) (ht : step s = .next t)
    (hw : t.runState = .waitingOnInput) (hc : sys.consumerOf i = some j) :
    t.outQ = [] ∧ t.outClosed = false := by
  obtain ⟨-, -, rfl⟩ := wait_cases (h.machine s (List.mem_of_getElem? hs)) ht hw
  obtain ⟨k, hk⟩ := consumer_exists h hc
  have hopen := outClosed_eq_false (h.machine s (List.mem_of_getElem? hs))
    (started_and_unended_of_noStep (step_cases ht).1).2
  exact ⟨(h.wire_shared _ (consumerOf_eq_some hc) s k hs hk).1, hopen⟩

end

/-- Settles O56: each step leaves the other as it was, or ends the wait the other came to; a machine that
has come to wait ends no wait, so at most one order needs a step more. -/
theorem stepsOfTwoMachinesMeetAgain : Obligations.StepsOfTwoMachinesMeetAgain := by
  intro sys si sj i j h hij hi hj
  obtain ⟨s, t, hs, ht, rfl, -⟩ := runMachine_cases hi
  obtain ⟨u, v, hu, hv, rfl, -⟩ := runMachine_cases hj
  change MeetAgain i j (sys.place i t) (sys.place j v)
  obtain hsame | ⟨hw, hc, hin⟩ := step_delivered_or_wakes h hs ht hu hv <;>
    obtain hsame' | ⟨hw', hc', hin'⟩ := step_delivered_or_wakes h hu hv hs ht
  · exact meetAgain_of_undisturbed h hij hs hu hsame hsame'
  · exact (meetAgain_of_wait h hij.symm hu hv hs ht hw' hc' hin' hsame).symm
  · exact meetAgain_of_wait h hij hs ht hu hv hw hc hin hsame'
  · obtain ⟨hq, hclosed⟩ := wait_sends_nothing h hs ht hw hc'
    simp [hq, hclosed] at hin'

end Sys2Proof.Machine
end

section
/-! Systems: what the host feeds in commutes with the step of any machine (60_exceptions.md R184). -/

namespace Sys2Proof.Machine

/-! ### The ends of a wire -/

theorem producerOf_of_wire {sys : System} {i j : Nat} (h : sys.Inv) (hw : (i, j) ∈ sys.wires) :
    sys.producerOf j = some i := by
  unfold System.producerOf
  cases hf : sys.wires.find? (fun w => w.2 == j) with
  | none =>
    have hnone := List.find?_eq_none.1 hf (i, j) hw
    simp at hnone
  | some w =>
    have hj : w.2 = j := by simpa using List.find?_some hf
    rw [List.inj_on_of_nodup_map h.one_producer (List.mem_of_find?_eq_some hf) hw hj]
    rfl

theorem consumerOf_of_wire {sys : System} {i j : Nat} (h : sys.Inv) (hw : (i, j) ∈ sys.wires) :
    sys.consumerOf i = some j := by
  unfold System.consumerOf
  cases hf : sys.wires.find? (fun w => w.1 == i) with
  | none =>
    have hnone := List.find?_eq_none.1 hf (i, j) hw
    simp at hnone
  | some w =>
    have hi : w.1 = i := by simpa using List.find?_some hf
    rw [List.inj_on_of_nodup_map h.one_consumer (List.mem_of_find?_eq_some hf) hw hi]
    rfl

/-! ### What the host feeds in -/

/-- The machines with machine `j` changed by `g`. -/
def System.modifyMachine (sys : System) (j : Nat) (g : State → State) : System :=
  { sys with machines := sys.machines.modify j g }

/-- What an operation that feeds a machine changes in it: a value at the tail of `InQ`, `in_closed` or
`started` set. -/
def Action.change : Action → State → State
  | .push _ v, s => s.feed [v]
  | .close _, s => s.receive [] true
  | .start _, s => { s with started := true }
  | _, s => s

/-- The host operation `a`, a push, a close or a start of machine `j`, has a step. -/
inductive System.Feeds (sys : System) : Action → Nat → Prop where
  | push {j : Nat} {v : Int} {s : State} (hs : sys.machines[j]? = some s) (ho : s.inClosed = false)
      (hv : isWord s.cfg v = true)
      (hp : ∀ i, sys.producerOf j = some i → sys.isStarted i = false) : Feeds sys (.push j v) j
  | close {j : Nat} {s : State} (hs : sys.machines[j]? = some s) (hp : sys.producerOf j = none) :
      Feeds sys (.close j) j
  | start {i : Nat} {s : State} (hs : sys.machines[i]? = some s) (ho : s.started = false) :
      Feeds sys (.start i) i

section
variable {sys t : System} {a : Action} {i j k : Nat} {s u x : State}

theorem modifyMachine_eq_setMachine {g : State → State} (hs : sys.machines[j]? = some s) :
    sys.modifyMachine j g = sys.setMachine j (g s) := by
  simp [System.modifyMachine, System.setMachine, List.modify_eq_set_getElem?, hs]

theorem onMachine_of_done {g : State → State} {f : State → HostResult State} {r : Reply}
    (hs : sys.machines[j]? = some s) (hf : f s = .done (g s) r) :
    sys.onMachine j f = .done (sys.modifyMachine j g) r := by
  simp [System.onMachine, hs, hf, modifyMachine_eq_setMachine hs]

theorem State.close_eq (s : State) : s.close = .done (s.receive [] true) .nothing := by
  simp [State.close, State.receive, State.feed]

theorem pushInput_of_unstarted {v : Int}
    (hp : ∀ i, sys.producerOf j = some i → sys.isStarted i = false) :
    sys.pushInput j v = sys.onMachine j (fun s => s.push v) := by
  unfold System.pushInput
  split
  · rfl
  · next i hi => simp [hp i hi]

theorem pushInput_cases {v : Int} {r : Reply} (h : sys.pushInput j v = .done t r) :
    (∀ i, sys.producerOf j = some i → sys.isStarted i = false) ∧
      sys.onMachine j (fun s => s.push v) = .done t r := by
  unfold System.pushInput at h
  split at h
  · next hnone => exact ⟨by simp [hnone], h⟩
  · next i hi =>
    split at h
    · cases h
    · next hs =>
      refine ⟨fun k hk => ?_, h⟩
      cases hi.symm.trans hk
      simpa using hs

theorem System.Feeds.act (h : sys.Feeds a j) :
    ∃ r, sys.act a = .done (sys.modifyMachine j a.change) r := by
  cases h with
  | push hs ho hv hp =>
    obtain ⟨r, hr⟩ := push_of_word ho hv
    exact ⟨r, (pushInput_of_unstarted hp).trans (onMachine_of_done hs hr)⟩
  | close hs hp =>
    refine ⟨.nothing, ?_⟩
    simp only [System.act, System.closeInput, hp]
    exact onMachine_of_done hs (State.close_eq _)
  | start hs ho => exact ⟨.joinPrimitive, onMachine_of_done hs (by simp [State.start, Action.change, ho])⟩

theorem System.Feeds.of_act {r : Reply} (hf : FeedingAction a) (ha : a.agent = .host)
    (h : sys.act a = .done t r) : ∃ j, sys.Feeds a j ∧ t = sys.modifyMachine j a.change := by
  cases a with
  | run => cases ha
  | push j v =>
    obtain ⟨hp, hon⟩ := pushInput_cases h
    obtain ⟨s, u, hs, hu, rfl⟩ := onMachine_cases hon
    obtain ⟨ho, hv, rfl⟩ := push_cases hu
    refine ⟨j, .push hs ho hv hp, ?_⟩
    rw [modifyMachine_eq_setMachine hs]
    rfl
  | close j =>
    simp only [System.act, System.closeInput] at h
    split at h
    · next hp =>
      obtain ⟨s, u, hs, hu, rfl⟩ := onMachine_cases h
      cases (State.close_eq s).symm.trans hu
      refine ⟨j, .close hs hp, ?_⟩
      rw [modifyMachine_eq_setMachine hs]
      rfl
    · cases h
  | start i =>
    obtain ⟨s, u, hs, hu, rfl⟩ := onMachine_cases h
    obtain ⟨ho, rfl, -⟩ := start_cases hu
    refine ⟨i, .start hs ho, ?_⟩
    rw [modifyMachine_eq_setMachine hs]
    rfl
  | pop | drop | join | peek => exact hf.elim

theorem System.Feeds.agent (h : sys.Feeds a j) : a.agent = .host := by
  cases h <;> rfl

/-! ### What is fed in and a machine's step -/

/-- What a placed step leaves alone in every machine `k`, being `x`. -/
structure KeptByPlace (sys : System) (i k : Nat) (x y : State) : Prop where
  started : y.started = x.started
  cfg : y.cfg = x.cfg
  inClosed : sys.consumerOf i ≠ some k → y.inClosed = x.inClosed

theorem keptByPlace (hs : sys.machines[i]? = some s) (hu : step s = .next u)
    (hx : sys.machines[k]? = some x) : KeptByPlace sys i k x (sys.placed i k u x) := by
  have hdelivered (y : State) : KeptByPlace sys i k y (sys.delivered i k u y) := by
    by_cases hc : sys.consumerOf i = some k
    · rw [delivered_of_consumer hc]
      exact ⟨rfl, rfl, fun hne => absurd hc hne⟩
    · rw [delivered_of_not_consumer hc]
      exact ⟨rfl, rfl, fun _ => rfl⟩
  by_cases hik : i = k
  · subst hik
    cases hs.symm.trans hx
    have hfar := step_sameFarEnds hu
    obtain ⟨h1, h2, h3⟩ := hdelivered (sys.sent i u)
    have hsent : (sys.sent i u).started = u.started ∧ (sys.sent i u).cfg = u.cfg ∧
        (sys.sent i u).inClosed = u.inClosed := by
      unfold System.sent
      split <;> exact ⟨rfl, rfl, rfl⟩
    obtain ⟨hs1, hs2, hs3⟩ := hsent
    rw [placed_self]
    exact ⟨h1.trans (hs1.trans hfar.started), h2.trans (hs2.trans hfar.cfg),
      fun hne => (h3 hne).trans (hs3.trans hfar.inClosed)⟩
  · rw [placed_other hik]
    exact hdelivered x

theorem isStarted_place (hs : sys.machines[i]? = some s) (hu : step s = .next u) (k : Nat) :
    (sys.place i u).isStarted k = sys.isStarted k := by
  unfold System.isStarted
  rw [place_getElem?]
  cases hx : sys.machines[k]? with
  | none => rfl
  | some x => exact (keptByPlace hs hu hx).started

@[simp] theorem producerOf_place : (sys.place i u).producerOf k = sys.producerOf k := by
  simp [System.producerOf]

/-- A machine that can step is not the producer of what the host still seeds or closes. -/
theorem not_consumer_of_unstarted (h : sys.Inv) (hs : sys.machines[i]? = some s)
    (hn : noStep s = none) (hp : ∀ k, sys.producerOf j = some k → sys.isStarted k = false) :
    sys.consumerOf i ≠ some j := by
  intro hc
  have hno := hp i (producerOf_of_wire h (consumerOf_eq_some hc))
  simp [System.isStarted, hs, (started_and_unended_of_noStep hn).1] at hno

/-- What the host can feed in it can feed in after a machine's step. -/
theorem System.Feeds.place (h : sys.Inv) (hs : sys.machines[i]? = some s) (hu : step s = .next u)
    (hf : sys.Feeds a j) : (sys.place i u).Feeds a j := by
  have hafter {x : State} (hx : sys.machines[j]? = some x) :
      (sys.place i u).machines[j]? = some (sys.placed i j u x) := by
    rw [place_getElem?, hx, Option.map_some]
  cases hf with
  | push hx ho hv hp =>
    have hkept := keptByPlace hs hu hx
    have hc := not_consumer_of_unstarted h hs (step_cases hu).1 hp
    refine .push (hafter hx) ((hkept.inClosed hc).trans ho) (by rwa [hkept.cfg]) fun k hk => ?_
    rw [isStarted_place hs hu]
    exact hp k (by simpa using hk)
  | close hx hp => exact .close (hafter hx) (by simpa using hp)
  | start hx ho => exact .start (hafter hx) ((keptByPlace hs hu hx).started.trans ho)

/-- A step that does not wait is the same with what the host feeds in to the machine. -/
theorem System.Feeds.step_self (hs : sys.machines[i]? = some s) (hu : step s = .next u)
    (hw : u.runState ≠ .waitingOnInput) (hf : sys.Feeds a i) :
    step (a.change s) = .next (a.change u) := by
  have hclosed := (step_sameFarEnds hu).inClosed
  cases hf with
  | @push _ v x hx ho =>
    cases hs.symm.trans hx
    simp only [Action.change, ← State.receive_open ho, ← State.receive_open (hclosed.trans ho)]
    exact step_receive ho hu hw
  | close =>
    simp only [Action.change]
    cases ho : s.inClosed with
    | false => exact step_receive ho hu hw
    | true => rwa [State.receive_nothing ho, State.receive_nothing (hclosed.trans ho)]
  | start hx ho =>
    cases hs.symm.trans hx
    simp [(started_and_unended_of_noStep (step_cases hu).1).1] at ho

/-- `g` on machine `j` touches nothing that machine `i` sends, and commutes with what `i` sends to `j`. -/
structure SparesOutput (sys : System) (i j : Nat) (g : State → State) : Prop where
  outQ : ∀ u, (g u).outQ = u.outQ
  outClosed : ∀ u, (g u).outClosed = u.outClosed
  sent : ∀ u, g (sys.sent i u) = sys.sent i (g u)
  delivered : ∀ t u, g (sys.delivered i j t u) = sys.delivered i j t (g u)

theorem System.Feeds.sparesOutput (h : sys.Inv) (hs : sys.machines[i]? = some s) (hn : noStep s = none)
    (hf : sys.Feeds a j) : SparesOutput sys i j a.change := by
  have hsent {g : State → State} (hg : ∀ u : State, g { u with outQ := [] } = { g u with outQ := [] })
      (u : State) : g (sys.sent i u) = sys.sent i (g u) := by
    unfold System.sent
    split
    · rfl
    · exact hg u
  have hspared {g : State → State} (hc : sys.consumerOf i ≠ some j) (t u : State) :
      g (sys.delivered i j t u) = sys.delivered i j t (g u) := by
    rw [delivered_of_not_consumer hc, delivered_of_not_consumer hc]
  cases hf with
  | push _ _ _ hp =>
    exact ⟨fun _ => rfl, fun _ => rfl, hsent fun _ => rfl,
      hspared (not_consumer_of_unstarted h hs hn hp)⟩
  | close _ hp =>
    exact ⟨fun _ => rfl, fun _ => rfl, hsent fun _ => rfl,
      hspared (not_consumer_of_unstarted h hs hn (by simp [hp]))⟩
  | start =>
    refine ⟨fun _ => rfl, fun _ => rfl, hsent fun _ => rfl, fun _ _ => ?_⟩
    unfold System.delivered
    split <;> rfl

theorem modifyMachine_getElem? {g : State → State} (k : Nat) :
    (sys.modifyMachine j g).machines[k]? = sys.machines[k]?.map fun u => if j = k then g u else u :=
  List.getElem?_modify ..

/-- A change of machine `j` and a placed step of machine `i` commute, the step being the changed one if
it is of the same machine. -/
theorem place_modifyMachine {g : State → State} (hg : SparesOutput sys i j g) :
    (sys.place i u).modifyMachine j g = (sys.modifyMachine j g).place i (if j = i then g u else u) := by
  have hsame (y : State) (k : Nat) : sys.delivered i k (g u) y = sys.delivered i k u y := by
    simp only [System.delivered, hg.outQ, hg.outClosed]
  refine System.ext_machines (by simp [System.modifyMachine]) (by simp [System.modifyMachine])
    fun k => ?_
  rw [modifyMachine_getElem?, place_getElem?, place_getElem?, modifyMachine_getElem?, Option.map_map,
    Option.map_map]
  congr 1
  funext x
  change _ = sys.placed i k _ _
  simp only [Function.comp_apply]
  by_cases hij : j = i
  · subst hij
    by_cases hjk : j = k
    · subst hjk
      simp only [if_true, placed_self, hsame, hg.delivered, hg.sent]
    · simp only [if_true, if_neg hjk, placed_other hjk, hsame]
  · simp only [if_neg hij]
    by_cases hjk : j = k
    · subst hjk
      simp only [if_true, placed_other (Ne.symm hij), hg.delivered]
    · simp only [if_neg hjk]

end
end Sys2Proof.Machine
end

section
/-! Systems: the final system does not depend on the schedule. A wait is taken as no step at all, and what
is left of a schedule has the diamond property (60_exceptions.md R184). -/

namespace Sys2Proof.Machine

/-! ### Actions that are no wait -/

/-- An action that gets a system on: the step of a machine that does not come to wait, or an operation
that feeds a machine. -/
inductive System.Progress (sys : System) : Action → System → Prop where
  | run {i : Nat} {s t : State} (hs : sys.machines[i]? = some s) (ht : step s = .next t)
      (hw : t.runState ≠ .waitingOnInput) : Progress sys (.run i) (sys.place i t)
  | feed {a : Action} {j : Nat} (h : sys.Feeds a j) :
      Progress sys a (sys.modifyMachine j a.change)

section
variable {sys t u v : System} {a b : Action} {acts : List Action}

theorem System.Progress.act (h : sys.Progress a t) : ∃ r, sys.act a = .done t r := by
  cases h with
  | run hs ht _ => exact ⟨.nothing, act_run_of_step hs ht⟩
  | feed hf => exact hf.act

theorem System.Progress.unique (h : sys.Progress a t) (h' : sys.Progress a u) : t = u := by
  obtain ⟨r, hr⟩ := h.act
  obtain ⟨r', hr'⟩ := h'.act
  cases hr.symm.trans hr'
  rfl

theorem System.Progress.keeps_inv (hs : sys.Inv) (h : sys.Progress a t) : t.Inv := by
  obtain ⟨r, hr⟩ := h.act
  exact actionsKeepSystemsGood sys t a r hs hr

theorem progress_runs_commute {i j : Nat} {s x s' x' : State} (h : sys.Inv) (hij : i ≠ j)
    (hs : sys.machines[i]? = some s) (hx : step s = .next x) (hw : x.runState ≠ .waitingOnInput)
    (hs' : sys.machines[j]? = some s') (hx' : step s' = .next x')
    (hw' : x'.runState ≠ .waitingOnInput) :
    ∃ w, (sys.place i x).Progress (.run j) w ∧ (sys.place j x').Progress (.run i) w := by
  have hsame (k l : Nat) (y z : State) :
      (sys.delivered k l y z).runState = z.runState := by
    unfold System.delivered
    split <;> rfl
  refine ⟨_, .run (place_getElem?_of_ne hij hs') (step_delivered h hs' hx' hs hx hw')
    (by rwa [hsame]), ?_⟩
  rw [place_comm h hij]
  exact .run (place_getElem?_of_ne hij.symm hs) (step_delivered h hs hx hs' hx' hw) (by rwa [hsame])

theorem change_runState (a : Action) (s : State) : (a.change s).runState = s.runState := by
  cases a <;> rfl

theorem progress_run_feed_commute {i j : Nat} {s x : State} (h : sys.Inv)
    (hs : sys.machines[i]? = some s) (hx : step s = .next x) (hw : x.runState ≠ .waitingOnInput)
    (hf : sys.Feeds a j) :
    ∃ w, (sys.place i x).Progress a w ∧ (sys.modifyMachine j a.change).Progress (.run i) w := by
  refine ⟨_, .feed (hf.place h hs hx), ?_⟩
  rw [place_modifyMachine (hf.sparesOutput h hs (step_cases hx).1)]
  have hget := modifyMachine_getElem? (sys := sys) (j := j) (g := a.change) i
  rw [hs, Option.map_some] at hget
  by_cases hij : j = i
  · subst hij
    rw [if_pos rfl] at hget ⊢
    exact .run hget (hf.step_self hs hx hw) (by rwa [change_runState])
  · rw [if_neg hij] at hget ⊢
    exact .run hget hx hw

/-- The diamond: actions of two agents that get the system on commute. -/
theorem System.Progress.commute (h : sys.Inv) (ha : sys.Progress a u) (hb : sys.Progress b v)
    (hab : a.agent ≠ b.agent) : ∃ w, u.Progress b w ∧ v.Progress a w := by
  cases ha with
  | run hs hx hw =>
    cases hb with
    | run hs' hx' hw' =>
      exact progress_runs_commute h (fun he => hab (congrArg Agent.machine he)) hs hx hw hs' hx' hw'
    | feed hf =>
      exact progress_run_feed_commute h hs hx hw hf
  | feed hf =>
    cases hb with
    | run hs hx hw =>
      obtain ⟨w, h1, h2⟩ := progress_run_feed_commute h hs hx hw hf
      exact ⟨w, h2, h1⟩
    | feed hf' => exact absurd (hf.agent.trans hf'.agent.symm) hab

/-! ### Schedules without waits -/

/-- The schedule `acts` leads from `sys` to `t`, and every action gets the system on. -/
inductive System.ProgressRun : System → List Action → System → Prop where
  | nil (sys : System) : ProgressRun sys [] sys
  | cons {sys u t : System} {a : Action} {rest : List Action} (ha : sys.Progress a u)
      (hr : ProgressRun u rest t) : ProgressRun sys (a :: rest) t

/-- An action that could get the system on comes first of its agent's in the schedule, or could as well
come first of all; an agent that the schedule leaves out could still take it at the end. -/
theorem System.ProgressRun.front (h : sys.Inv) (ha : sys.Progress a u) (hr : sys.ProgressRun acts t) :
    (∃ pre b post, acts = pre ++ b :: post ∧ (∀ x ∈ pre, x.agent ≠ a.agent) ∧ b.agent = a.agent ∧
        (b = a → u.ProgressRun (pre ++ post) t)) ∨
      (∀ x ∈ acts, x.agent ≠ a.agent) ∧ ∃ w, t.Progress a w := by
  induction hr generalizing u with
  | nil => exact .inr ⟨by simp, u, ha⟩
  | @cons sys v t b rest hb hr ih =>
    by_cases hab : b.agent = a.agent
    · refine .inl ⟨[], b, rest, rfl, by simp, hab, fun he => ?_⟩
      subst he
      cases ha.unique hb
      exact hr
    · obtain ⟨w, hub, hva⟩ := ha.commute h hb (Ne.symm hab)
      obtain ⟨pre, c, post, rfl, hpre, hc, hrun⟩ | ⟨hrest, hend⟩ := ih (hb.keeps_inv h) hva
      · exact .inl ⟨b :: pre, c, post, rfl, List.forall_mem_cons.2 ⟨hab, hpre⟩, hc,
          fun he => .cons hub (hrun he)⟩
      · exact .inr ⟨List.forall_mem_cons.2 ⟨hab, hrest⟩, hend⟩

theorem not_progress_run_of_allTerminated {i : Nat} (h : sys.AllTerminated) :
    ¬ sys.Progress (.run i) t := by
  intro hp
  cases hp with
  | run hs ht _ => exact step_ne_next_of_terminated (h _ (List.mem_of_getElem? hs)) _ ht
  | feed hf => cases hf.agent

theorem eq_run_of_agent {i : Nat} (h : a.agent = .machine i) : a = .run i := by
  cases a <;> simp_all [Action.agent]

theorem hostActions_cons_of_host (ha : a.agent = .host) (rest : List Action) :
    hostActions (a :: rest) = a :: hostActions rest := by
  simp [hostActions, ha]

theorem hostActions_cons_of_not_host (ha : a.agent ≠ .host) (rest : List Action) :
    hostActions (a :: rest) = hostActions rest := by
  simp [hostActions, ha]

theorem hostActions_append (xs ys : List Action) :
    hostActions (xs ++ ys) = hostActions xs ++ hostActions ys :=
  List.filter_append ..

theorem hostActions_eq_nil (h : ∀ x ∈ acts, x.agent ≠ .host) : hostActions acts = [] := by
  simpa [hostActions] using h

/-- The next host action of one schedule is the first of the other, and the rests agree. -/
theorem hostActions_of_front {pre post rest : List Action} (hab : b.agent = a.agent)
    (hpre : ∀ x ∈ pre, x.agent ≠ a.agent)
    (hh : hostActions (a :: rest) = hostActions (pre ++ b :: post)) :
    b = a ∧ hostActions rest = hostActions (pre ++ post) := by
  rw [hostActions_append] at hh ⊢
  by_cases ha : a.agent = .host
  · rw [ha] at hpre hab
    rw [hostActions_eq_nil hpre, hostActions_cons_of_host ha, hostActions_cons_of_host hab] at hh
    obtain ⟨rfl, hrest⟩ := List.cons.inj hh
    exact ⟨rfl, by rw [hostActions_eq_nil hpre, hrest]; rfl⟩
  · rw [hostActions_cons_of_not_host ha, hostActions_cons_of_not_host (hab ▸ ha)] at hh
    refine ⟨?_, hh⟩
    cases hg : a.agent with
    | host => exact absurd hg ha
    | machine i => rw [eq_run_of_agent hg, eq_run_of_agent (hab.trans hg)]

/-- Two schedules without waits and with the same host actions that both end with every machine
terminated end in the same system. -/
theorem System.ProgressRun.outcome_unique {acts' : List Action} {t' : System} (h : sys.Inv)
    (hr : sys.ProgressRun acts t) (hr' : sys.ProgressRun acts' t')
    (hh : hostActions acts = hostActions acts') (hend : t.AllTerminated)
    (hend' : t'.AllTerminated) : t = t' := by
  induction hr generalizing acts' with
  | nil sys =>
    cases hr' with
    | nil => rfl
    | @cons _ _ _ b _ hb _ =>
      cases hg : b.agent with
      | host =>
        rw [hostActions_cons_of_host hg] at hh
        cases hh
      | machine i =>
        rw [eq_run_of_agent hg] at hb
        exact absurd hb (not_progress_run_of_allTerminated hend)
  | @cons sys u t a rest ha hr ih =>
    obtain ⟨pre, b, post, rfl, hpre, hab, hrun⟩ | ⟨hnone, w, hw⟩ := hr'.front h ha
    · obtain ⟨hba, hrest⟩ := hostActions_of_front hab hpre hh
      exact ih (ha.keeps_inv h) (hrun hba) hrest hend
    · cases hg : a.agent with
      | host =>
        rw [hg] at hnone
        rw [hostActions_cons_of_host hg, hostActions_eq_nil hnone] at hh
        cases hh
      | machine i =>
        rw [eq_run_of_agent hg] at hw
        exact absurd hw (not_progress_run_of_allTerminated hend')

end

/-! ### Schedules with waits -/

/-- The machine as it is when it is not asked whether it waits: running at its IN. -/
def State.awake (s : State) : State :=
  if s.runState = .waitingOnInput then s.setRun .running else s

/-- Every machine awake. -/
def System.awake (sys : System) : System := { sys with machines := sys.machines.map State.awake }

section
variable {sys t : System} {a : Action} {s u : State}

theorem awake_of_waiting (h : s.runState = .waitingOnInput) : s.awake = s.setRun .running :=
  if_pos h

theorem awake_of_not_waiting (h : s.runState ≠ .waitingOnInput) : s.awake = s := if_neg h

theorem State.awake_keeps_inv (h : s.Inv) : s.awake.Inv := by
  by_cases hw : s.runState = .waitingOnInput
  · rw [awake_of_waiting hw]
    have hr : s.terminated = false := by simp [State.terminated, hw]
    exact
      { h with
        closed_iff := by simp [State.terminated, outClosed_eq_false h hr]
        cause_iff := by simp [faultCause_eq_none h hr]
        record_ip := by simp
        record_word := by simp
        waits_at_in := by simp
        halted_at_halt := by simp
        not_started := fun hs => by simpa [hw] using h.not_started hs }
  · rwa [awake_of_not_waiting hw]

/-- Waking a machine writes its run state only. -/
theorem awake_eq (s : State) : s.awake = s.setRun s.awake.runState := by
  unfold State.awake
  split <;> rfl

theorem awake_terminated (s : State) : s.awake.terminated = s.terminated := by
  by_cases hw : s.runState = .waitingOnInput
  · simp [awake_of_waiting hw, State.terminated, hw]
  · rw [awake_of_not_waiting hw]

theorem awake_getElem? (k : Nat) : sys.awake.machines[k]? = sys.machines[k]?.map State.awake :=
  List.getElem?_map ..

theorem System.awake_keeps_inv (h : sys.Inv) : sys.awake.Inv where
  machine := by
    intro s hs
    obtain ⟨u, hu, rfl⟩ := List.mem_map.1 hs
    exact State.awake_keeps_inv (h.machine u hu)
  wire_range := by simpa [System.awake] using h.wire_range
  one_producer := h.one_producer
  one_consumer := h.one_consumer
  wire_shared := by
    intro w hw x y hx hy
    rw [awake_getElem?] at hx hy
    obtain ⟨s, hs, rfl⟩ := Option.map_eq_some_iff.1 hx
    obtain ⟨t, ht, rfl⟩ := Option.map_eq_some_iff.1 hy
    rw [awake_eq s, awake_eq t]
    exact h.wire_shared w hw s t hs ht
  joined_ended := by
    intro i hi
    obtain ⟨s, hs, hend⟩ := h.joined_ended i hi
    exact ⟨s.awake, by rw [awake_getElem?, hs]; rfl, by rwa [awake_terminated]⟩

theorem awake_of_allTerminated (h : sys.AllTerminated) : sys.awake = sys := by
  have hid (s : State) (hs : s ∈ sys.machines) : s.awake = id s := by
    refine awake_of_not_waiting fun hw => ?_
    have hend := h s hs
    simp [State.terminated, hw] at hend
  simp [System.awake, List.map_congr_left hid]

/-! ### Waking and the actions -/

theorem awake_change (a : Action) (s : State) : (a.change s).awake = a.change s.awake := by
  unfold State.awake
  rw [change_runState]
  split <;> cases a <;> rfl

/-- Feeding a machine is the same whether it waits or not. -/
theorem System.Feeds.awake {j : Nat} (h : sys.Feeds a j) : sys.awake.Feeds a j := by
  have hget {s : State} (hs : sys.machines[j]? = some s) : sys.awake.machines[j]? = some s.awake := by
    rw [awake_getElem?, hs, Option.map_some]
  have hstarted (k : Nat) : sys.awake.isStarted k = sys.isStarted k := by
    unfold System.isStarted
    rw [awake_getElem?]
    cases sys.machines[k]? with
    | none => rfl
    | some s =>
      change s.awake.started = s.started
      rw [awake_eq, State.setRun_started]
  cases h with
  | @push _ _ s hs ho hv hp =>
    exact .push (hget hs) (by rwa [awake_eq s]) (by rwa [awake_eq s])
      fun i hi => (hstarted i).trans (hp i hi)
  | close hs hp => exact .close (hget hs) hp
  | @start _ s hs ho => exact .start (hget hs) (by rwa [awake_eq s])

theorem awake_modifyMachine (j : Nat) :
    (sys.modifyMachine j a.change).awake = sys.awake.modifyMachine j a.change := by
  refine System.ext_machines rfl rfl fun k => ?_
  rw [awake_getElem?, modifyMachine_getElem?, modifyMachine_getElem?, awake_getElem?, Option.map_map,
    Option.map_map]
  congr 1
  funext x
  simp only [Function.comp_apply]
  split
  · exact awake_change a x
  · rfl

theorem awake_receive (vs : List Int) (closed : Bool) :
    (s.receive vs closed).awake = s.awake.receive vs closed := by
  unfold State.awake
  rw [State.receive_runState]
  split <;> rfl

theorem awake_place {i : Nat} (hu : u.runState ≠ .waitingOnInput) :
    (sys.place i u).awake = sys.awake.place i u := by
  refine System.ext_machines (by simp [System.awake]) (by simp [System.awake]) fun k => ?_
  rw [awake_getElem?, place_getElem?, place_getElem?, awake_getElem?, Option.map_map, Option.map_map]
  congr 1
  funext x
  change (sys.placed i k u x).awake = sys.placed i k u x.awake
  have hdelivered (y : State) : (sys.delivered i k u y).awake = sys.delivered i k u y.awake := by
    unfold System.delivered
    split
    · exact awake_receive _ _
    · rfl
  by_cases hik : i = k
  · subst hik
    have hsent : (sys.sent i u).awake = sys.sent i u := awake_of_not_waiting (by
      unfold System.sent
      split <;> exact hu)
    rw [placed_self, placed_self, hdelivered, hsent]
  · rw [placed_other hik, placed_other hik, hdelivered]

/-- A good machine that does not come to wait steps the same when it is awake. -/
theorem step_awake (h : s.Inv) (hu : step s = .next u) : step s.awake = .next u := by
  by_cases hw : s.runState = .waitingOnInput
  · obtain ⟨hs, hr | ⟨-, hin⟩⟩ := noStep_eq_none.1 (step_cases hu).1
    · cases hw.symm.trans hr
    · obtain ⟨m, d, hm, -⟩ := h.waits_at_in hw
      have hback : (s.setRun .running).setRun .waitingOnInput = s := by
        rw [← hw]
        rfl
      have hstep := step_setRun_waitingOnInput (s := s.setRun .running) hs rfl hm hin
      rw [hback] at hstep
      rw [awake_of_waiting hw, ← hstep, hu]
  · rwa [awake_of_not_waiting hw]

/-- A machine's step is a wait, which the awake system does not see, or gets the awake system on. -/
theorem awake_simulates_run {i : Nat} (h : sys.Inv) (hs : sys.machines[i]? = some s)
    (hu : step s = .next u) :
    (sys.place i u).awake = sys.awake ∨ sys.awake.Progress (.run i) (sys.place i u).awake := by
  have hInv := h.machine s (List.mem_of_getElem? hs)
  have hget : sys.awake.machines[i]? = some s.awake := by
    rw [awake_getElem?, hs, Option.map_some]
  by_cases hw : u.runState = .waitingOnInput
  · left
    obtain ⟨hr, -, rfl⟩ := wait_cases hInv hu hw
    have hsame : (s.setRun .waitingOnInput).awake = s.awake := by
      rw [awake_of_waiting hw, awake_of_not_waiting (by simp [hr]), State.setRun, ← hr]
      rfl
    rw [place_eq_setMachine (t := s.setRun .waitingOnInput) h hs rfl rfl rfl,
      ← System.setMachine_self hget, ← hsame]
    simp [System.awake, System.setMachine, List.map_set]
  · right
    rw [awake_place hw]
    exact .run hget (step_awake hInv hu) hw

theorem awake_simulates {r : Reply} (h : sys.Inv) (hf : FeedingAction a)
    (ht : sys.act a = .done t r) :
    a.agent ≠ .host ∧ t.awake = sys.awake ∨ sys.awake.Progress a t.awake := by
  cases hg : a.agent with
  | host =>
    obtain ⟨j, hj, rfl⟩ := System.Feeds.of_act hf hg ht
    rw [awake_modifyMachine]
    exact .inr (.feed hj.awake)
  | machine i =>
    obtain rfl := eq_run_of_agent hg
    obtain ⟨s, u, hs, hu, rfl, -⟩ := runMachine_cases ht
    exact (awake_simulates_run h hs hu).imp_left fun hw => ⟨by simp, hw⟩

theorem exists_progressRun {acts : List Action} (h : sys.Inv) (hf : ∀ a ∈ acts, FeedingAction a)
    (ht : sys.runSchedule acts = some t) :
    ∃ acts', hostActions acts' = hostActions acts ∧ sys.awake.ProgressRun acts' t.awake := by
  induction acts generalizing sys with
  | nil =>
    cases ht
    exact ⟨[], rfl, .nil _⟩
  | cons a rest ih =>
    obtain ⟨hfa, hfrest⟩ := List.forall_mem_cons.1 hf
    unfold System.runSchedule at ht
    split at ht
    · next u r hu =>
      obtain ⟨acts', hh, hrun⟩ := ih (actionsKeepSystemsGood sys u a r h hu) hfrest ht
      obtain ⟨hg, hsame⟩ | hp := awake_simulates h hfa hu
      · exact ⟨acts', by rw [hh, hostActions_cons_of_not_host hg], hsame ▸ hrun⟩
      · exact ⟨a :: acts', by simp only [hostActions, List.filter_cons] at hh ⊢; rw [hh],
          .cons hp hrun⟩
    · cases ht
    · cases ht

end

/-- Settles O57: without their waits both schedules start at the awake system, and end where they ended,
since a terminated machine does not wait. -/
theorem pipelineOutcomeIsScheduleIndependent : Obligations.PipelineOutcomeIsScheduleIndependent := by
  intro sys t1 t2 acts1 acts2 h hf1 hf2 hh h1 h2 hend1 hend2
  obtain ⟨acts1', hh1, hr1⟩ := exists_progressRun h hf1 h1
  obtain ⟨acts2', hh2, hr2⟩ := exists_progressRun h hf2 h2
  rw [awake_of_allTerminated hend1] at hr1
  rw [awake_of_allTerminated hend2] at hr2
  exact hr1.outcome_unique (System.awake_keeps_inv h) hr2 (by rw [hh1, hh2, hh]) hend1 hend2

end Sys2Proof.Machine
end

section
/-! Faults: a step that faults is fault entry (60_exceptions.md R163), and which causes each instruction
can raise (R161). -/

namespace Sys2Proof.Machine

/-! ### Fault entry is precise (60_exceptions.md R163) -/

/-- An instruction that leaves a machine `Faulted` has taken a fault, or found it so. -/
theorem Effect.faulted_cases {s t : State} {i : Instr} (h : Effect s i t)
    (ht : t.runState = .faulted) :
    (∃ e, MachineRaise s.cfg e ∧ t = faultEntry e s) ∨ s.runState = .faulted := by
  cases h with
  | fault _ he => exact .inl ⟨_, he, rfl⟩
  | halt | wait | input => cases ht
  | output | store | jump | fallThrough | setRb => exact .inr ht

theorem step_faulted {s t : State} (h : step s = .next t) (ht : t.runState = .faulted) :
    ∃ e, MachineRaise s.cfg e ∧ t = faultEntry e s := by
  obtain ⟨hn, hfault | ⟨i, -, hx⟩⟩ := step_effect h
  · exact hfault
  · refine (hx.faulted_cases ht).resolve_right fun hs => ?_
    obtain ⟨-, hr | ⟨hr, -⟩⟩ := noStep_eq_none.1 hn <;> cases hs.symm.trans hr

/-- The codes of the causes other than ParseError (60_exceptions.md R160). -/
theorem code_of_ne_parseError {c : Cause} (h : c ≠ .parseError) : 2 ≤ c.code ∧ c.code ≤ 8 := by
  cases c with
  | parseError => exact absurd rfl h
  | _ => decide

/-- Settles O26: the step is the entry of a fault that a machine may raise, and its fields say the
rest. -/
theorem faultingStepChangesOnlyTheRecord : Obligations.FaultingStepChangesOnlyTheRecord := by
  intro s t h ht
  obtain ⟨e, ⟨hparse, -⟩, rfl⟩ := step_faulted h ht
  exact ⟨⟨e, rfl, faultEntry_faultCause e s, code_of_ne_parseError hparse⟩,
    faultEntry_faultIp e s, faultEntry_faultWord, faultEntry_outClosed e s, faultEntry_cfg e s,
    faultEntry_mem e s, faultEntry_ip e s, faultEntry_rb e s, faultEntry_started e s,
    faultEntry_inQ e s, faultEntry_inClosed e s, faultEntry_outQ e s, faultEntry_outDropped e s⟩

/-! ### The causes of operand faults -/

/-- What resolving operands `ops` can raise: a bad address; no word, of a Relative operand; an Immediate
destination (40_execution.md R82, R83). -/
def OperandRaise (ops : List (Role × Mode)) (c : Cause) : Prop :=
  c = .negativeAddress ∨ c = .addressOutOfRange ∨
    (c = .arithmeticOverflow ∧ ∃ r, (r, Mode.relative) ∈ ops) ∨
    (c = .invalidWriteTarget ∧ ∃ m, (Role.dest, m) ∈ ops)

theorem OperandRaise.mono {ops ops' : List (Role × Mode)} {c : Cause} (h : OperandRaise ops c)
    (hsub : ops ⊆ ops') : OperandRaise ops' c := by
  obtain h | h | ⟨h, r, hr⟩ | ⟨h, m, hm⟩ := h
  · exact .inl h
  · exact .inr (.inl h)
  · exact .inr (.inr (.inl ⟨h, r, hsub hr⟩))
  · exact .inr (.inr (.inr ⟨h, m, hsub hm⟩))

section
variable {s : State} {k : Nat} {m : Mode} {e : Raised}

theorem AddrFault.cause {c : Config} {x : Int} (h : AddrFault c x e) :
    e.cause = .negativeAddress ∨ e.cause = .addressOutOfRange := by
  obtain ⟨-, rfl⟩ | ⟨-, -, rfl⟩ := h
  · exact .inl rfl
  · exact .inr rfl

theorem operandRaise_of_addrFault {c : Config} {x : Int} {ops : List (Role × Mode)}
    (h : AddrFault c x e) : OperandRaise ops e.cause :=
  h.cause.imp_right .inl

theorem operandRaise_of_relativeFault {raw : Int} {r : Role} (h : RelativeFault s raw e) :
    OperandRaise [(r, .relative)] e.cause := by
  obtain ⟨-, rfl⟩ | ⟨-, h⟩ := h
  · exact .inr (.inr (.inl ⟨rfl, r, List.mem_singleton_self _⟩))
  · exact operandRaise_of_addrFault h

theorem operandRaise_of_sourceFault (h : SourceFault s k m e) :
    OperandRaise [(.source, m)] e.cause := by
  obtain ⟨-, rfl⟩ | ⟨raw, -, h⟩ := h
  · exact .inr (.inl rfl)
  · cases m with
    | position => exact operandRaise_of_addrFault h
    | immediate => exact h.elim
    | relative => exact operandRaise_of_relativeFault h

theorem operandRaise_of_destFault (h : DestFault s k m e) :
    OperandRaise [(.dest, m)] e.cause := by
  obtain ⟨-, rfl⟩ | ⟨raw, -, h⟩ := h
  · exact .inr (.inl rfl)
  · cases m with
    | position => exact operandRaise_of_addrFault h
    | immediate =>
      subst h
      exact .inr (.inr (.inr ⟨rfl, .immediate, List.mem_singleton_self _⟩))
    | relative => exact operandRaise_of_relativeFault h

theorem operandRaise_of_firstOperandFault {ops : List (Role × Mode)}
    (h : firstOperandFault s k ops = some e) : OperandRaise ops e.cause := by
  induction k, ops using firstOperandFault.induct s with
  | case1 k => cases h
  | case2 k m rest e' he =>
    rw [firstOperandFault, he] at h
    cases h
    exact (operandRaise_of_sourceFault (rdOp_eq_error.1 he)).mono (by simp)
  | case3 k m rest a ha ih =>
    rw [firstOperandFault, ha] at h
    exact (ih h).mono (by simp)
  | case4 k m rest e' he =>
    rw [firstOperandFault, he] at h
    cases h
    exact (operandRaise_of_destFault (wrAddr_eq_error.1 he)).mono (by simp)
  | case5 k m rest d hd ih =>
    rw [firstOperandFault, hd] at h
    exact (ih h).mono (by simp)

/-! ### The causes of an instruction whose operands resolve -/

theorem firstOperandFault_source_none {rest : List (Role × Mode)}
    (h : firstOperandFault s k ((.source, m) :: rest) = none) :
    (∃ v, rdOp s k m = .ok v) ∧ firstOperandFault s (k + 1) rest = none := by
  rw [firstOperandFault] at h
  split at h
  · cases h
  · next v hv => exact ⟨⟨v, hv⟩, h⟩

theorem firstOperandFault_dest_none {rest : List (Role × Mode)}
    (h : firstOperandFault s k ((.dest, m) :: rest) = none) :
    (∃ d, wrAddr s k m = .ok d) ∧ firstOperandFault s (k + 1) rest = none := by
  rw [firstOperandFault] at h
  split at h
  · cases h
  · next d hd => exact ⟨⟨d, hd⟩, h⟩

end

/-- What instruction `i` can raise once its operands resolve: a result that is no word, a closed channel
or a bad jump target. -/
def OwnRaise (i : Instr) (c : Cause) : Prop :=
  (c = .arithmeticOverflow ∧ (i.code = 1 ∨ i.code = 2 ∨ i.code = 9)) ∨
    (c = .channelClosed ∧ (i.code = 3 ∨ i.code = 4)) ∨
    ((c = .negativeAddress ∨ c = .addressOutOfRange) ∧ (i.code = 5 ∨ i.code = 6))

section
variable {s t : State} {c : Cause} {m1 m2 m3 : Mode}

theorem execArith_own {op : Int → Int → Int}
    (hops : firstOperandFault s 1 [(.source, m1), (.source, m2), (.dest, m3)] = none)
    (h : execArith op m1 m2 m3 s = .next t) :
    t.faultCause = s.faultCause ∨ t.faultCause = some .arithmeticOverflow := by
  obtain ⟨⟨a, ha⟩, hops⟩ := firstOperandFault_source_none hops
  obtain ⟨⟨b, hb⟩, hops⟩ := firstOperandFault_source_none hops
  obtain ⟨⟨d, hd⟩, -⟩ := firstOperandFault_dest_none hops
  cases hw : isWord s.cfg (op a b) with
  | true =>
    cases (execArith_of_ok ha hb hd hw).symm.trans h
    exact .inl rfl
  | false =>
    cases (execArith_of_overflow ha hb hd hw).symm.trans h
    exact .inr (faultEntry_faultCause _ _)

theorem execCompare_own {f : Int → Int → Int}
    (hops : firstOperandFault s 1 [(.source, m1), (.source, m2), (.dest, m3)] = none)
    (h : execCompare f m1 m2 m3 s = .next t) : t.faultCause = s.faultCause := by
  obtain ⟨⟨a, ha⟩, hops⟩ := firstOperandFault_source_none hops
  obtain ⟨⟨b, hb⟩, hops⟩ := firstOperandFault_source_none hops
  obtain ⟨⟨d, hd⟩, -⟩ := firstOperandFault_dest_none hops
  cases (execCompare_of_ok ha hb hd).symm.trans h
  rfl

theorem execJump_own {p : Int → Bool}
    (hops : firstOperandFault s 1 [(.source, m1), (.source, m2)] = none)
    (h : execJump p m1 m2 s = .next t) :
    t.faultCause = s.faultCause ∨ t.faultCause = some .negativeAddress ∨
      t.faultCause = some .addressOutOfRange := by
  obtain ⟨⟨a, ha⟩, hops⟩ := firstOperandFault_source_none hops
  obtain ⟨⟨b, hb⟩, -⟩ := firstOperandFault_source_none hops
  cases hp : p a with
  | false =>
    cases (execJump_of_not_taken ha hb hp).symm.trans h
    exact .inl rfl
  | true =>
    cases hx : chkA s.cfg b with
    | ok x =>
      cases (execJump_of_taken ha hb hp hx).symm.trans h
      exact .inl rfl
    | error e =>
      cases (execJump_of_bad_target ha hb hp hx).symm.trans h
      rw [faultEntry_faultCause, Option.some_inj, Option.some_inj]
      exact .inr (chkA_eq_error_iff_addrFault.1 hx).cause

theorem execInp_own (hops : firstOperandFault s 1 [(.dest, m1)] = none)
    (h : execInp m1 s = .next t) :
    t.faultCause = s.faultCause ∨ t.faultCause = some .channelClosed := by
  obtain ⟨⟨d, hd⟩, -⟩ := firstOperandFault_dest_none hops
  cases hq : s.inQ with
  | cons v rest =>
    cases (execInp_of_head hd hq).symm.trans h
    exact .inl rfl
  | nil =>
    cases hc : s.inClosed with
    | false =>
      cases (execInp_of_open hd hq hc).symm.trans h
      exact .inl rfl
    | true =>
      cases (execInp_of_closed hd hq hc).symm.trans h
      exact .inr (faultEntry_faultCause _ _)

theorem execOut_own (hops : firstOperandFault s 1 [(.source, m1)] = none)
    (h : execOut m1 s = .next t) :
    t.faultCause = s.faultCause ∨ t.faultCause = some .channelClosed := by
  obtain ⟨⟨v, hv⟩, -⟩ := firstOperandFault_source_none hops
  cases hd : s.outDropped with
  | false =>
    cases (execOut_of_open hv hd).symm.trans h
    exact .inl rfl
  | true =>
    cases (execOut_of_dropped hv hd).symm.trans h
    exact .inr (faultEntry_faultCause _ _)

theorem execArb_own (hops : firstOperandFault s 1 [(.source, m1)] = none)
    (h : execArb m1 s = .next t) :
    t.faultCause = s.faultCause ∨ t.faultCause = some .arithmeticOverflow := by
  obtain ⟨⟨a, ha⟩, -⟩ := firstOperandFault_source_none hops
  cases hw : isWord s.cfg (s.rb + a) with
  | true =>
    cases (execArb_of_isWord ha hw).symm.trans h
    exact .inl rfl
  | false =>
    cases (execArb_of_overflow ha hw).symm.trans h
    exact .inr (faultEntry_faultCause _ _)

/-- With its operands resolved, an instruction records what it can raise of its own, or nothing. -/
theorem exec_own {i : Instr} (hops : firstOperandFault s 1 i.operands = none)
    (h : exec i s = .next t) :
    t.faultCause = s.faultCause ∨ ∃ c, OwnRaise i c ∧ t.faultCause = some c := by
  have hoverflow (hcode : i.code = 1 ∨ i.code = 2 ∨ i.code = 9)
      (ht : t.faultCause = some .arithmeticOverflow) :
      ∃ c, OwnRaise i c ∧ t.faultCause = some c := ⟨_, .inl ⟨rfl, hcode⟩, ht⟩
  have hchannel (hcode : i.code = 3 ∨ i.code = 4) (ht : t.faultCause = some .channelClosed) :
      ∃ c, OwnRaise i c ∧ t.faultCause = some c := ⟨_, .inr (.inl ⟨rfl, hcode⟩), ht⟩
  have htarget (hcode : i.code = 5 ∨ i.code = 6)
      (ht : t.faultCause = some .negativeAddress ∨ t.faultCause = some .addressOutOfRange) :
      ∃ c, OwnRaise i c ∧ t.faultCause = some c := by
    obtain ht | ht := ht
    · exact ⟨_, .inr (.inr ⟨.inl rfl, hcode⟩), ht⟩
    · exact ⟨_, .inr (.inr ⟨.inr rfl, hcode⟩), ht⟩
  cases i with
  | add => exact (execArith_own hops h).imp_right (hoverflow (.inl rfl))
  | mul => exact (execArith_own hops h).imp_right (hoverflow (.inr (.inl rfl)))
  | arb => exact (execArb_own hops h).imp_right (hoverflow (.inr (.inr rfl)))
  | inp => exact (execInp_own hops h).imp_right (hchannel (.inl rfl))
  | out => exact (execOut_own hops h).imp_right (hchannel (.inr rfl))
  | jnz => exact (execJump_own hops h).imp_right (htarget (.inl rfl))
  | jz => exact (execJump_own hops h).imp_right (htarget (.inr rfl))
  | lt | eq => exact .inl (execCompare_own hops h)
  | halt =>
    cases h
    exact .inl rfl

end

/-! ### The fault matrix, one way (60_exceptions.md R161) -/

/-- An instruction with a destination has InvalidWriteTarget in its row. -/
theorem mayRaise_invalidWriteTarget {i : Instr} {m : Mode} (h : (Role.dest, m) ∈ i.operands) :
    mayRaise i.code .invalidWriteTarget = true := by
  cases i with
  | add | mul | inp | lt | eq => rfl
  | out | jnz | jz | arb | halt => simp [Instr.operands] at h

/-- Only HALT has no operand. -/
theorem code_ne_99 {i : Instr} (h : i.operands ≠ []) : (i.code != 99) = true := by
  cases i with
  | halt => exact absurd rfl h
  | _ => rfl

theorem mayRaise_of_operandRaise {i : Instr} {c : Cause} (hne : i.operands ≠ [])
    (h : OperandRaise i.operands c) : mayRaise i.code c = true := by
  obtain rfl | rfl | ⟨rfl, -⟩ | ⟨rfl, m, hm⟩ := h
  · exact code_ne_99 hne
  · exact code_ne_99 hne
  · exact code_ne_99 hne
  · exact mayRaise_invalidWriteTarget hm

theorem mayRaise_of_ownRaise {i : Instr} {c : Cause} (h : OwnRaise i c) :
    mayRaise i.code c = true := by
  obtain ⟨rfl, h | h | h⟩ | ⟨rfl, h | h⟩ | ⟨rfl | rfl, h | h⟩ := h <;> rw [h] <;> rfl

/-- Settles O28: the fault is of an operand, or of the instruction itself, which then is ADD, MUL or ARB
if it overflows. -/
theorem instructionsRaiseOnlyTheirFaults : Obligations.InstructionsRaiseOnlyTheirFaults := by
  intro i s t c h hs ht
  cases hops : firstOperandFault s 1 i.operands with
  | some e =>
    cases (exec_of_firstOperandFault hops).symm.trans h
    obtain rfl : e.cause = c := by simpa using ht
    have hraise := operandRaise_of_firstOperandFault hops
    have hne : i.operands ≠ [] := fun hnil => by simp [hnil, firstOperandFault] at hops
    refine ⟨mayRaise_of_operandRaise hne hraise, fun hc _ _ _ => ?_⟩
    simpa [OperandRaise, hc] using hraise
  | none =>
    obtain hsame | ⟨c', hown, hc'⟩ := exec_own hops h
    · rw [hsame, hs] at ht
      cases ht
    · cases hc'.symm.trans ht
      refine ⟨mayRaise_of_ownRaise hown, fun hc h1 h2 h9 => ?_⟩
      simp [OwnRaise, hc, h1, h2, h9] at hown

end Sys2Proof.Machine
end

section
/-! Faults: every cause of an instruction's row of the fault matrix is raised in one family of good states
(60_exceptions.md R161). -/

namespace Sys2Proof.Machine

/-! ### A family of states that fault -/

/-- 64-bit words and 16 addresses. -/
def faultConfig : Config := { wordModel := .int64, addrLimit := 16, strictModeDigits := true }

/-- A running machine at the instruction `i` with `raw` for its first operand word and 0 for the others,
`rb` the greatest word, its input empty and closed, and its output dropped. -/
def faultSample (i : Instr) (raw : Int) : State :=
  { State.fresh faultConfig (imageFrom 0 [encode i, raw]) with
    started := true, rb := 2 ^ 63 - 1, inClosed := true, outDropped := true }

section
variable {i : Instr} {raw : Int}

theorem encode_isWord : isWord faultConfig (encode i) = true := by
  have hlen : i.operands.length ≤ 3 := by cases i <;> simp [Instr.operands]
  have hlt := (encode_lt i).trans_le (Nat.cast_le.2 (Nat.pow_le_pow_right (by decide)
    (Nat.add_le_add_left hlen 2) : 10 ^ (2 + i.operands.length) ≤ 10 ^ (2 + 3)))
  have hnonneg : 0 ≤ encode i := Int.natCast_nonneg _
  simp only [isWord, faultConfig, decide_eq_true_eq]
  omega

theorem faultSample_inv (hraw : isWord faultConfig raw = true) : (faultSample i raw).Inv :=
  { fresh_inv (c := faultConfig) (m := imageFrom 0 [encode i, raw]) (by decide) (imageFrom_wf _ _)
      (loadImage_goodCells (xs := [encode i, raw]) (by simp [encode_isWord, hraw]) rfl) with
    rb_word := (by decide : isWord faultConfig (2 ^ 63 - 1) = true)
    dropped_empty := fun _ => rfl
    waits_at_in := by simp [faultSample, State.fresh]
    not_started := by simp [faultSample] }

theorem faultSample_cell (k : Nat) : (faultSample i raw).cell k = [encode i, raw][k]?.getD 0 := by
  have hread := read_imageFrom 0 k [encode i, raw]
  rwa [Nat.zero_add] at hread

theorem faultSample_fetchDecode : fetchDecode (faultSample i raw) = .ok i :=
  fetchDecode_eq_ok.2 ⟨(by decide : 0 < 16), by
    rw [faultSample_cell]
    exact decode_encode _ i⟩

theorem faultSample_operandWord {k : Nat} (hk : k < 16) :
    operandWord (faultSample i raw) k = .ok ([encode i, raw][k]?.getD 0) :=
  operandWord_eq_ok.2 ⟨(by simpa using hk : 0 + k < 16), by
    rw [faultSample_cell]
    simp [faultSample, State.fresh]⟩

end

/-- Some form of the instruction with code `code` raises `c` in a good state. -/
def RaisedBySome (code : Nat) (c : Cause) : Prop :=
  ∃ (i : Instr) (s t : State), i.code = code ∧ s.Inv ∧ noStep s = none ∧ fetchDecode s = .ok i ∧
    step s = .next t ∧ t.runState = .faulted ∧ t.faultCause = some c

theorem raisedBySome_of_exec {i : Instr} {raw : Int} {e : Raised}
    (hraw : isWord faultConfig raw = true)
    (h : exec i (faultSample i raw) = .next (faultEntry e (faultSample i raw))) :
    RaisedBySome i.code e.cause :=
  ⟨i, _, _, rfl, faultSample_inv hraw, rfl, faultSample_fetchDecode,
    (step_of_fetchDecode_ok rfl faultSample_fetchDecode).trans h, faultEntry_runState _ _,
    faultEntry_faultCause _ _⟩

/-! ### A first operand that faults -/

section
variable {s : State} {k : Nat} {r : Role} {rest : List (Role × Mode)} {raw : Int} {e : Raised}

theorem firstOperandFault_of_position (hraw : operandWord s k = .ok raw)
    (he : chkA s.cfg raw = .error e) : firstOperandFault s k ((r, .position) :: rest) = some e := by
  cases r with
  | source =>
    exact firstOperandFault_of_rdOp_error (by rw [rdOp_position hraw, he]; rfl) rest
  | dest => exact firstOperandFault_of_wrAddr_error (by rw [wrAddr_position hraw, he]) rest

theorem firstOperandFault_of_relative (hraw : operandWord s k = .ok raw)
    (he : relativeAddr s raw = .error e) :
    firstOperandFault s k ((r, .relative) :: rest) = some e := by
  cases r with
  | source =>
    exact firstOperandFault_of_rdOp_error (by rw [rdOp_relative hraw, he]; rfl) rest
  | dest => exact firstOperandFault_of_wrAddr_error (by rw [wrAddr_relative hraw, he]) rest

end

/-- Every code but HALT's has a form whose first operand has mode `m`. -/
theorem exists_instr_with_first_mode {code : Nat} (hn : nops code ≠ none) (h99 : code ≠ 99)
    (m : Mode) : ∃ (i : Instr) (r : Role) (rest : List (Role × Mode)), i.code = code ∧
      i.operands = (r, m) :: rest := by
  obtain ⟨n, hn⟩ := Option.ne_none_iff_exists'.1 hn
  obtain ⟨i, rfl, hi⟩ := exists_instr_of_nops (ms := List.replicate n m) (by simpa using hn)
  cases hops : i.operands with
  | nil =>
    cases i with
    | halt => exact absurd rfl h99
    | _ => cases hops
  | cons p rest =>
    have hp : p.2 = m := by
      have hmem : p.2 ∈ List.replicate n m := hi ▸ List.mem_map_of_mem (by simp [hops])
      exact List.eq_of_mem_replicate hmem
    exact ⟨i, p.1, rest, rfl, by rw [← hp, hops]⟩

theorem raised_of_position {code : Nat} {raw : Int} {e : Raised} (hn : nops code ≠ none)
    (h99 : code ≠ 99) (hraw : isWord faultConfig raw = true)
    (he : chkA faultConfig raw = .error e) : RaisedBySome code e.cause := by
  obtain ⟨i, r, rest, rfl, hops⟩ := exists_instr_with_first_mode hn h99 .position
  refine raisedBySome_of_exec hraw (exec_of_firstOperandFault ?_)
  rw [hops]
  exact firstOperandFault_of_position (faultSample_operandWord (by decide)) he

theorem raised_of_relative {code : Nat} (hn : nops code ≠ none) (h99 : code ≠ 99) :
    RaisedBySome code .arithmeticOverflow := by
  obtain ⟨i, r, rest, rfl, hops⟩ := exists_instr_with_first_mode hn h99 .relative
  refine raisedBySome_of_exec (raw := 1) (e := .arithmeticOverflow (2 ^ 63)) (by decide)
    (exec_of_firstOperandFault ?_)
  rw [hops]
  exact firstOperandFault_of_relative (faultSample_operandWord (by decide)) rfl

/-! ### An Immediate destination and a closed channel -/

theorem firstOperandFault_of_immediates {s : State} {a b raw : Int} (h1 : operandWord s 1 = .ok a)
    (h2 : operandWord s 2 = .ok b) (h3 : operandWord s 3 = .ok raw) :
    firstOperandFault s 1 [(.source, .immediate), (.source, .immediate), (.dest, .immediate)] =
      some (.invalidWriteTarget raw) := by
  simp [firstOperandFault, rdOp_immediate h1, rdOp_immediate h2, wrAddr_immediate h3]

theorem raised_of_three_operands {i : Instr}
    (h : i.operands = [(.source, .immediate), (.source, .immediate), (.dest, .immediate)]) :
    RaisedBySome i.code .invalidWriteTarget := by
  refine raisedBySome_of_exec (raw := 0) (e := .invalidWriteTarget 0) (by decide)
    (exec_of_firstOperandFault ?_)
  rw [h]
  exact firstOperandFault_of_immediates (faultSample_operandWord (by decide))
    (faultSample_operandWord (by decide)) (faultSample_operandWord (by decide))

theorem raised_of_immediate_inp : RaisedBySome 3 .invalidWriteTarget :=
  raisedBySome_of_exec (i := .inp .immediate) (raw := 0) (e := .invalidWriteTarget 0) (by decide)
    (exec_of_firstOperandFault
      (firstOperandFault_immediateDest (faultSample_operandWord (by decide))))

/-- Every code whose instruction has a destination, with all operands Immediate. -/
theorem raised_of_immediateDest {code : Nat} (hm : mayRaise code .invalidWriteTarget = true) :
    RaisedBySome code .invalidWriteTarget := by
  have hcode : code = 1 ∨ code = 2 ∨ code = 3 ∨ code = 7 ∨ code = 8 := by
    simpa [mayRaise, or_assoc] using hm
  obtain rfl | rfl | rfl | rfl | rfl := hcode
  · exact raised_of_three_operands (i := .add .immediate .immediate .immediate) rfl
  · exact raised_of_three_operands (i := .mul .immediate .immediate .immediate) rfl
  · exact raised_of_immediate_inp
  · exact raised_of_three_operands (i := .lt .immediate .immediate .immediate) rfl
  · exact raised_of_three_operands (i := .eq .immediate .immediate .immediate) rfl

theorem raised_by_inp : RaisedBySome 3 .channelClosed := by
  refine raisedBySome_of_exec (i := .inp .position) (raw := 0) (by decide)
    (execInp_of_closed (d := 0) ?_ rfl rfl)
  rw [wrAddr_position (faultSample_operandWord (by decide))]
  rfl

theorem raised_by_out : RaisedBySome 4 .channelClosed := by
  refine raisedBySome_of_exec (i := .out .immediate) (raw := 0) (by decide)
    (execOut_of_dropped (v := 0) ?_ rfl)
  exact rdOp_immediate (faultSample_operandWord (by decide))

/-- Settles O29, cause by cause: operand words -1 and 16 for the address faults, 1 on the greatest `rb`
for the overflow, an Immediate destination, and a closed or dropped channel. -/
theorem everyFaultOfTheMatrixIsRaised : Obligations.EveryFaultOfTheMatrixIsRaised := by
  intro code c hn hm
  have h99 (hm : (code != 99) = true) : code ≠ 99 := by simpa using hm
  cases c with
  | parseError | unknownOpcode | invalidAddressingMode => cases hm
  | invalidWriteTarget => exact raised_of_immediateDest hm
  | negativeAddress =>
    exact raised_of_position (raw := -1) (e := .negativeAddress (-1)) hn (h99 hm) (by decide) rfl
  | addressOutOfRange =>
    exact raised_of_position (raw := 16) (e := .addressOutOfRange 16) hn (h99 hm) (by decide) rfl
  | arithmeticOverflow => exact raised_of_relative hn (h99 hm)
  | channelClosed =>
    have hcode : code = 3 ∨ code = 4 := by simpa [mayRaise] using hm
    obtain rfl | rfl := hcode
    · exact raised_by_inp
    · exact raised_by_out

end Sys2Proof.Machine
end

section
/-! The host's operations on one machine: pushing, popping, starting, joining and running to completion
(60_exceptions.md R171 to R177). -/

namespace Sys2Proof.Machine

/-! ### Machines without a step (40_execution.md R89) -/

theorem step_of_noStep {s : State} {f : Fault} (h : noStep s = some f) : step s = .fault f := by
  rw [step, h]

/-- Settles O58: `step` answers what `noStep` says. -/
theorem disabledStepStopsUnderItsReason : Obligations.DisabledStepStopsUnderItsReason := by
  refine fun s => ⟨fun hs => ?_, fun hs hr => ?_, fun hs hr => ?_, fun hs hr hq hc => ?_⟩ <;>
    refine step_of_noStep ?_
  · simp [noStep, hs]
  · simp [noStep, hs, hr]
  · simp [noStep, hs, hr]
  · simp [noStep, hs, hr, hq, hc]

/-! ### The endpoints (60_exceptions.md R171 to R173) -/

theorem push_of_closed {s : State} (h : s.inClosed = true) (v : Int) : s.push v = .refused := by
  simp [State.push, h]

/-- Settles O48: a push of a word to an open input completes, and a close closes the input. -/
theorem pushAppendsUntilClosed : Obligations.PushAppendsUntilClosed := by
  intro s v
  refine ⟨push_of_word, rfl, fun t r h => ?_⟩
  cases h
  exact push_of_closed rfl v

/-- Settles O49: the three clauses of a pop, and the bit that a drop leaves behind. -/
theorem popTakesHeadAndDropDiscards : Obligations.PopTakesHeadAndDropDiscards := by
  intro s
  refine ⟨fun hd => ⟨fun v rest hq => ?_, fun hq hc => ?_, fun hq hc => ?_⟩,
    { s with outDropped := true, outQ := [] }, rfl, rfl, rfl,
    fun m v hv => execOut_of_dropped hv rfl⟩
  · simp [State.pop, hd, hq]
  · simp [State.pop, hd, hq, hc]
  · simp [State.pop, hd, hq, hc]

theorem start_of_started {s : State} (h : s.started = true) : s.start = .refused := by
  simp [State.start, h]

/-- Settles O50: `start` asks for `started` and sets it. -/
theorem machineStartsOnce : Obligations.MachineStartsOnce := by
  refine fun s => ⟨fun hs => by simp [State.start, hs], start_of_started, fun t r h => ?_⟩
  obtain ⟨-, rfl, -⟩ := start_cases h
  exact start_of_started rfl

/-! ### Runs of one machine -/

theorem runFor_succ {s t : State} (h : step s = .next t) (n : Nat) :
    State.runFor (n + 1) s = State.runFor n t := by
  simp [State.runFor, h]

/-- A machine without a step stays as it is. -/
theorem runFor_of_no_step {s : State} (h : ∀ t, step s ≠ .next t) (n : Nat) :
    State.runFor n s = s := by
  cases n with
  | zero => rfl
  | succ n =>
    rw [State.runFor]
    split
    · next t ht => exact absurd ht (h t)
    · rfl
    · rfl

theorem runFor_of_terminated {s : State} (h : s.terminated = true) (n : Nat) :
    State.runFor n s = s :=
  runFor_of_no_step (step_ne_next_of_terminated h) n

theorem runFor_add (m n : Nat) (s : State) :
    State.runFor (m + n) s = State.runFor n (State.runFor m s) := by
  induction m generalizing s with
  | zero => rw [Nat.zero_add]; rfl
  | succ m ih =>
    rw [Nat.succ_add]
    by_cases hs : ∃ t, step s = .next t
    · obtain ⟨t, ht⟩ := hs
      rw [runFor_succ ht, runFor_succ ht, ih]
    · have hno : ∀ t, step s ≠ .next t := not_exists.1 hs
      rw [runFor_of_no_step hno, runFor_of_no_step hno, runFor_of_no_step hno]

/-! ### Termination (60_exceptions.md R165; 70_reset_and_hazards.md R197) -/

/-- The host's operations on a machine write no run state. -/
theorem hostOperation_runState {s t : State} {f : State → HostResult State} {r : Reply}
    (hf : f = State.close ∨ f = State.start ∨ f = State.pop ∨ f = State.drop ∨ f = State.join ∨
      (∃ v, f = fun u => u.push v) ∨ ∃ a, f = fun u => u.peek a) (h : f s = .done t r) :
    t.runState = s.runState := by
  obtain rfl | rfl | rfl | rfl | rfl | ⟨v, rfl⟩ | ⟨a, rfl⟩ := hf
  · cases h
    rfl
  · obtain ⟨-, rfl, -⟩ := start_cases h
    rfl
  · obtain ⟨-, ⟨v, rest, -, rfl, -⟩ | ⟨-, -, rfl, -⟩⟩ := pop_cases h <;> rfl
  · cases h
    rfl
  · obtain ⟨-, rfl, -⟩ := join_cases h
    rfl
  · obtain ⟨-, -, rfl⟩ := push_cases h
    rfl
  · obtain ⟨-, -, rfl, -⟩ := peek_cases h
    rfl

/-- Settles O39: a terminated machine has no step, and a machine with its run state is terminated. -/
theorem terminatedMachinesStayTerminated : Obligations.TerminatedMachinesStayTerminated := by
  refine fun s hs => ⟨runFor_of_terminated hs, fun f t r hf h => ?_⟩
  have hrun := hostOperation_runState hf h
  refine ⟨hrun, step_ne_next_of_terminated ?_⟩
  rwa [State.terminated, hrun]

/-! ### Run to completion (60_exceptions.md R175) -/

theorem join_eq_blocked {s : State} : s.join = .blocked ↔ s.terminated = false := by
  unfold State.join State.terminated
  cases s.runState <;> simp

/-- A machine that comes to be blocked on input has not terminated before, and never does. -/
theorem runFor_not_terminated_of_blocked {t : State} {k : Nat}
    (hw : (State.runFor k t).runState = .waitingOnInput) (hq : (State.runFor k t).inQ = [])
    (hc : (State.runFor k t).inClosed = false) (n : Nat) :
    (State.runFor n t).terminated = false := by
  have hwaits : (State.runFor k t).terminated = false := by simp [State.terminated, hw]
  obtain hle | hle := Nat.le_total n k
  · obtain ⟨d, rfl⟩ := Nat.exists_eq_add_of_le hle
    rw [runFor_add] at hwaits
    by_contra hend
    rw [Bool.not_eq_false] at hend
    rw [runFor_of_terminated hend, hend] at hwaits
    cases hwaits
  · obtain ⟨d, rfl⟩ := Nat.exists_eq_add_of_le hle
    have hblocked : ∀ u, step (State.runFor k t) ≠ .next u := fun u hu => by
      simpa [hw, hq, hc] using (noStep_eq_none.1 (step_cases hu).1).2
    rwa [runFor_add, runFor_of_no_step hblocked]

/-- Settles O52: the join blocks, since however many steps are allowed the machine has not terminated. -/
theorem runToCompletionBlocksOnEmptyInput : Obligations.RunToCompletionBlocksOnEmptyInput := by
  intro s t r k n hs hw hq hc
  rw [State.runToCompletion, hs]
  exact join_eq_blocked.2 (runFor_not_terminated_of_blocked hw hq hc n)

/-! ### Join and inspection (60_exceptions.md R174, R176) -/

section
variable {sys : System} {i a : Nat} {s : State}

theorem peek_of_not_joined (h : i ∉ sys.joined) : sys.act (.peek i a) = .refused :=
  if_neg h

/-- What is joined has terminated, so a machine that has not is not joined. -/
theorem peek_of_not_terminated (h : sys.Inv) (hs : sys.machines[i]? = some s)
    (hr : s.terminated = false) : sys.act (.peek i a) = .refused := by
  refine peek_of_not_joined fun hi => ?_
  obtain ⟨u, hu, hend⟩ := h.joined_ended i hi
  cases hs.symm.trans hu
  simp [hr] at hend

theorem peek_of_joined (hi : i ∈ sys.joined) (hs : sys.machines[i]? = some s)
    (hend : s.terminated = true) (ha : a < s.cfg.addrLimit) :
    sys.act (.peek i a) = .done sys (.word (s.cell a)) := by
  have hpeek : s.peek a = .done s (.word (s.cell a)) := by simp [State.peek, hend, ha]
  simp [System.act, System.peekMachine, System.onMachine, hi, hs, hpeek, System.setMachine_self hs]

theorem join_of_ended (hs : sys.machines[i]? = some s) (hend : s.terminated = true) :
    ∃ after j, sys.act (.join i) = .done after (.joined j) ∧ after.machines = sys.machines ∧
      after.wires = sys.wires ∧ i ∈ after.joined := by
  obtain ⟨j, hj⟩ := join_of_terminated hend
  refine ⟨{ sys with joined := if i ∈ sys.joined then sys.joined else i :: sys.joined }, j, ?_, rfl,
    rfl, ?_⟩
  · simp [System.act, System.joinMachine, System.onMachine, hs, hj, System.setMachine_self hs]
  · dsimp only
    split
    · assumption
    · exact List.mem_cons_self

/-- After the join of a terminated machine every cell of it can be inspected. -/
theorem join_then_peek (hs : sys.machines[i]? = some s) (hend : s.terminated = true) :
    ∃ after j, sys.act (.join i) = .done after (.joined j) ∧ after.machines = sys.machines ∧
      after.wires = sys.wires ∧
      ∀ a, a < s.cfg.addrLimit → after.act (.peek i a) = .done after (.word (s.cell a)) := by
  obtain ⟨after, j, hjoin, hm, hw, hi⟩ := join_of_ended hs hend
  exact ⟨after, j, hjoin, hm, hw, fun a => peek_of_joined hi (hm ▸ hs) hend⟩

theorem join_of_faultEntry (e : Raised) (s : State) :
    (faultEntry e s).join =
      .done (faultEntry e s) (.joined (.err e.cause.code s.ip (faultEntry e s).faultWord)) := by
  simp [State.join, causeCode]

end

/-- Settles O51: the join asks for the run state and the inspection for the join; fault entry records
what the join reports and writes no cell. -/
theorem joinReportsTheFault : Obligations.JoinReportsTheFault := by
  refine ⟨fun _ => join_eq_blocked, fun _ => join_of_halted, fun _ _ _ => peek_of_not_joined,
    fun _ _ _ _ => peek_of_not_terminated, fun _ _ _ => join_then_peek, fun s t h ht => ?_⟩
  obtain ⟨e, -, rfl⟩ := step_faulted h ht
  refine ⟨fun hip => ⟨e.cause, faultEntry_faultCause e s, ?_⟩, fun sys i hs => ?_⟩
  · rw [join_of_faultEntry, faultEntry_faultWord hip]
  · obtain ⟨after, j, hjoin, -, -, hpeek⟩ := join_then_peek hs (faultEntry_terminated e s)
    simp only [State.cell, faultEntry_cfg, faultEntry_mem] at hpeek
    exact ⟨after, j, hjoin, hpeek⟩

/-! ### Wired channels (60_exceptions.md R182) -/

theorem isStarted_of_getElem? {sys : System} {i : Nat} {s : State} (hs : sys.machines[i]? = some s) :
    sys.isStarted i = s.started := by
  rw [System.isStarted, hs]

theorem popLeftover_of_running {s : State} (h : s.terminated = false) :
    s.popLeftover = .refused := by
  simp [State.popLeftover, h]

theorem popLeftover_head {s : State} {v : Int} {rest : List Int} (h : s.terminated = true)
    (hq : s.inQ = v :: rest) : s.popLeftover = .done { s with inQ := rest } (.word v) := by
  simp [State.popLeftover, h, hq]

/-- Settles O55: the wire is what `producerOf` and `consumerOf` find, and a producer that is not started
has its output, so the consumer's input, open. -/
theorem hostReachesWiredChannelsOnlyAtTheEnds : Obligations.HostReachesWiredChannelsOnlyAtTheEnds := by
  intro sys i j s u h hw hs hu
  have hp := producerOf_of_wire h hw
  have hc := consumerOf_of_wire h hw
  have hstarted := isStarted_of_getElem? hs
  refine ⟨fun v hst => ?_, fun v hst hv => ?_, fun hr => ?_, fun v rest hend hq => ?_, ?_, ?_⟩
  · simp [System.act, System.pushInput, hp, hstarted, hst]
  · obtain ⟨-, -, -, -, hopen⟩ := (h.machine s (List.mem_of_getElem? hs)).not_started hst
    obtain ⟨-, -, hclosed, -⟩ := h.wire_shared _ hw s u hs hu
    have hfeed : sys.Feeds (.push j v) j := .push hu (hclosed.trans hopen) hv fun k hk => by
      cases hp.symm.trans hk
      exact hstarted.trans hst
    have hact := hfeed.act
    rw [modifyMachine_eq_setMachine hu] at hact
    exact hact
  · simp [System.act, System.popOutput, hc, System.onMachine, hu, popLeftover_of_running hr]
  · simp [System.act, System.popOutput, hc, System.onMachine, hu, popLeftover_head hend hq]
  · simp [System.act, System.closeInput, hp]
  · simp [System.act, System.dropOutput, hc]

end Sys2Proof.Machine
end

section
/-! Construction: its errors, in the order in which they are looked for (70_reset_and_hazards.md R190,
R193, R194). -/

namespace Sys2Proof.Machine

theorem loadImage_of_fits {c : Config} {xs : List Int} (h : xs.length < c.addrLimit) :
    loadImage c xs = .ok (imageFrom 0 xs) :=
  if_neg (Nat.not_le_of_lt h)

/-- The first bad address is the error of the overrides. -/
theorem applyOverrides_of_bad {c : Config} {before after : List (Int × Int)} {x v : Int}
    {e : Raised} (hb : ∀ p ∈ before, ValidAddr c p.1) (he : AddrFault c x e) (m : Memory) :
    applyOverrides c (before ++ (x, v) :: after) m = .error e := by
  induction before generalizing m with
  | nil => simp [applyOverrides, chkA_eq_error_iff_addrFault.2 he]
  | cons p before ih =>
    obtain ⟨y, w⟩ := p
    obtain ⟨hy, hb⟩ := List.forall_mem_cons.1 hb
    simp [applyOverrides, chkA_eq_ok_iff_validAddr.2 ⟨hy, rfl⟩, ih hb]

theorem applyOverrides_of_valid {c : Config} {ov : List (Int × Int)}
    (h : ∀ p ∈ ov, ValidAddr c p.1) (m : Memory) : ∃ m', applyOverrides c ov m = .ok m' := by
  induction ov generalizing m with
  | nil => exact ⟨m, rfl⟩
  | cons p ov ih =>
    obtain ⟨y, w⟩ := p
    obtain ⟨hy, h⟩ := List.forall_mem_cons.1 h
    simpa [applyOverrides, chkA_eq_ok_iff_validAddr.2 ⟨hy, rfl⟩] using ih h _

theorem construct_of_words {c : Config} {text : List Char} {ov : List (Int × Int)}
    (h : ∀ p ∈ ov, isWord c p.2 = true) :
    (∀ s, build c text ov = .ok s → construct c text ov = .machine s) ∧
      ∀ e, build c text ov = .error e → construct c text ov = .error e := by
  have hall : (ov.all fun p => isWord c p.2) = true := List.all_eq_true.2 h
  exact ⟨fun s hs => by simp [construct, hall, hs], fun e he => by simp [construct, hall, he]⟩

/-- Settles O45: text, image and overrides are bound in this order, and each answers before the next is
looked at. -/
theorem constructionFailsInOrder : Obligations.ConstructionFailsInOrder := by
  intro c text ov hov
  obtain ⟨hok, herror⟩ := construct_of_words (text := text) hov
  refine ⟨fun e he => herror e (by rw [build, he, error_bind]), fun xs hx => ?_⟩
  refine ⟨fun hlen => herror _ ?_, fun hlen before x v after e hsplit hb he => herror e ?_,
    fun hlen hvalid => ?_⟩
  · have himage : loadImage c xs = .error (.addressOutOfRange xs.length) := if_pos hlen
    rw [build, hx, ok_bind, himage, error_bind]
  · rw [build, hx, ok_bind, loadImage_of_fits hlen, ok_bind, hsplit, applyOverrides_of_bad hb he,
      error_bind]
  · obtain ⟨m, hm⟩ := applyOverrides_of_valid hvalid (imageFrom 0 xs)
    exact ⟨_, hok _ (by rw [build, hx, ok_bind, loadImage_of_fits hlen, ok_bind, hm, ok_bind,
      pure_eq_ok])⟩

end Sys2Proof.Machine
end

section
/-! Fairness: nothing another agent does disables a machine's step or an operation that the host stands at
(60_exceptions.md R179, R180). -/

namespace Sys2Proof.Machine

/-! ### A machine's step stays enabled -/

/-- What makes a machine no less ready to step. -/
theorem noStep_mono {s t : State} (hs : s.started = true → t.started = true)
    (hr : t.runState = s.runState) (hq : s.inQ ≠ [] → t.inQ ≠ [])
    (hc : s.inClosed = true → t.inClosed = true) (h : noStep s = none) : noStep t = none := by
  obtain ⟨hst, hrun | ⟨hwait, hin⟩⟩ := noStep_eq_none.1 h
  · exact noStep_eq_none.2 ⟨hs hst, .inl (hr.trans hrun)⟩
  · exact noStep_eq_none.2 ⟨hs hst, .inr ⟨hr.trans hwait, hin.imp hq hc⟩⟩

section
variable {sys t : System} {a : Action} {i j : Nat} {s u x : State} {r : Reply}

theorem enabled_of_onMachine {f : State → HostResult State}
    (hf : ∀ s t r, f s = .done t r → noStep s = none → noStep t = none)
    (h : sys.onMachine j f = .done t r) (hi : sys.Enabled i) : t.Enabled i := by
  obtain ⟨s, u, hs, hu, rfl⟩ := onMachine_cases h
  obtain ⟨x, hx, hn⟩ := hi
  by_cases hij : j = i
  · subst hij
    cases hs.symm.trans hx
    exact ⟨u, List.getElem?_set_self (List.getElem?_eq_some_iff.1 hs).1, hf _ _ _ hu hn⟩
  · exact ⟨x, by rw [System.setMachine_machines, List.getElem?_set_ne hij, hx], hn⟩

theorem enabled_of_place (h : sys.Inv) (hji : j ≠ i) (hs : sys.machines[j]? = some s)
    (hu : step s = .next u) (hi : sys.Enabled i) : (sys.place j u).Enabled i := by
  obtain ⟨x, hx, hn⟩ := hi
  refine ⟨_, place_getElem?_of_ne hji hx, ?_⟩
  by_cases hc : sys.consumerOf j = some i
  · rw [delivered_of_consumer hc]
    exact noStep_receive (consumer_open h hs (step_cases hu).1 hc hx) hn
  · rwa [delivered_of_not_consumer hc]

theorem noStep_of_push {s t : State} {v : Int} {r : Reply} (h : s.push v = .done t r)
    (hn : noStep s = none) : noStep t = none := by
  obtain ⟨-, -, rfl⟩ := push_cases h
  exact noStep_mono (s := s) id rfl (by simp) id hn

theorem noStep_of_close {s t : State} {r : Reply} (h : s.close = .done t r)
    (hn : noStep s = none) : noStep t = none := by
  cases h
  exact noStep_mono (s := s) id rfl id (fun _ => rfl) hn

theorem noStep_of_start {s t : State} {r : Reply} (h : s.start = .done t r)
    (hn : noStep s = none) : noStep t = none := by
  obtain ⟨-, rfl, -⟩ := start_cases h
  exact noStep_mono (s := s) (fun _ => rfl) rfl id id hn

theorem noStep_of_pop {s t : State} {r : Reply} (h : s.pop = .done t r)
    (hn : noStep s = none) : noStep t = none := by
  obtain ⟨-, ⟨v, rest, -, rfl, -⟩ | ⟨-, -, rfl, -⟩⟩ := pop_cases h <;> exact hn

/-- Only what a terminated consumer left is popped from its input. -/
theorem noStep_of_popLeftover {s t : State} {r : Reply} (h : s.popLeftover = .done t r)
    (hn : noStep s = none) : noStep t = none := by
  have hend := (popLeftover_cases h).1
  simp [(started_and_unended_of_noStep hn).2] at hend

theorem noStep_of_drop {s t : State} {r : Reply} (h : s.drop = .done t r)
    (hn : noStep s = none) : noStep t = none := by
  cases h
  exact hn

/-- No action but its own step disables a machine. -/
theorem enabled_of_act (h : sys.Inv) (ha : a ≠ .run i) (ht : sys.act a = .done t r)
    (hi : sys.Enabled i) : t.Enabled i := by
  cases a with
  | run j =>
    obtain ⟨s, u, hs, hu, rfl, -⟩ := runMachine_cases ht
    exact enabled_of_place h (fun hji => ha (hji ▸ rfl)) hs hu hi
  | push j v => exact enabled_of_onMachine (fun _ _ _ => noStep_of_push) (pushInput_cases ht).2 hi
  | close j =>
    simp only [System.act, System.closeInput] at ht
    split at ht
    · exact enabled_of_onMachine (fun _ _ _ => noStep_of_close) ht hi
    · cases ht
  | start j => exact enabled_of_onMachine (fun _ _ _ => noStep_of_start) ht hi
  | pop j =>
    simp only [System.act, System.popOutput] at ht
    split at ht
    · exact enabled_of_onMachine (fun _ _ _ => noStep_of_pop) ht hi
    · exact enabled_of_onMachine (fun _ _ _ => noStep_of_popLeftover) ht hi
  | drop j =>
    simp only [System.act, System.dropOutput] at ht
    split at ht
    · exact enabled_of_onMachine (fun _ _ _ => noStep_of_drop) ht hi
    · cases ht
  | join j =>
    obtain ⟨s, _, -, -, -, rfl⟩ := joinMachine_cases ht
    exact hi
  | peek j p => exact peekMachine_eq ht ▸ hi

/-! ### An operation of the host stays one that completes -/

theorem pop_completes_iff {s : State} :
    (∃ t r, s.pop = .done t r) ↔ s.outDropped = false ∧ (s.outQ ≠ [] ∨ s.outClosed = true) := by
  unfold State.pop
  cases s.outDropped <;> cases s.outQ <;> cases s.outClosed <;> simp

theorem popLeftover_completes_iff {s : State} :
    (∃ t r, s.popLeftover = .done t r) ↔
      s.terminated = true ∧ (s.inQ ≠ [] ∨ s.inClosed = true) := by
  unfold State.popLeftover
  cases s.terminated <;> cases s.inQ <;> cases s.inClosed <;> simp

theorem onMachine_completes_iff {f : State → HostResult State} :
    (∃ t r, sys.onMachine j f = .done t r) ↔
      ∃ x, sys.machines[j]? = some x ∧ ∃ y r, f x = .done y r := by
  constructor
  · rintro ⟨t, r, h⟩
    obtain ⟨x, y, hx, hy, -⟩ := onMachine_cases h
    exact ⟨x, hx, y, r, hy⟩
  · rintro ⟨x, hx, y, r, hy⟩
    exact ⟨sys.setMachine j y, r, by simp [System.onMachine, hx, hy]⟩

/-- An operation on machine `j` that completes does so after a step of machine `i`, if it does on what the
step makes of machine `j`. -/
theorem onMachine_completes_after {f : State → HostResult State}
    (h : ∃ t r, sys.onMachine j f = .done t r)
    (hf : ∀ x, sys.machines[j]? = some x → (∃ y r, f x = .done y r) →
      ∃ y r, f (sys.placed i j u x) = .done y r) :
    ∃ t r, (sys.place i u).onMachine j f = .done t r := by
  obtain ⟨x, hx, hdone⟩ := onMachine_completes_iff.1 h
  exact onMachine_completes_iff.2 ⟨_, by rw [place_getElem?, hx, Option.map_some], hf x hx hdone⟩

/-- A terminated machine is not the one that steps. -/
theorem placed_of_terminated (hs : sys.machines[i]? = some s) (hu : step s = .next u)
    (hx : sys.machines[j]? = some x) (hend : x.terminated = true) :
    sys.placed i j u x = sys.delivered i j u x := by
  refine placed_other fun hij => ?_
  subst hij
  cases hs.symm.trans hx
  exact step_ne_next_of_terminated hend _ hu

theorem delivered_terminated : (sys.delivered i j u x).terminated = x.terminated := by
  unfold System.delivered
  split <;> rfl

theorem step_keeps_output {s u : State} (h : s.Inv) (hu : step s = .next u)
    (hq : s.outQ ≠ [] ∨ s.outClosed = true) : u.outQ ≠ [] := by
  obtain ⟨-, hout, -⟩ := channelsChangeOnlyByInAndOut s u hu
  have hopen := outClosed_eq_false h (started_and_unended_of_noStep (step_cases hu).1).2
  have hne : s.outQ ≠ [] := hq.resolve_right (by simp [hopen])
  obtain hsame | ⟨m, v, -, -, happ⟩ := hout
  · rwa [hsame]
  · simp [happ]

theorem pop_completes_after (h : sys.Inv) (hs : sys.machines[i]? = some s) (hu : step s = .next u)
    (hc : sys.consumerOf j = none) (hx : sys.machines[j]? = some x)
    (hdone : ∃ y r, x.pop = .done y r) : ∃ y r, (sys.placed i j u x).pop = .done y r := by
  obtain ⟨hd, hq⟩ := pop_completes_iff.1 hdone
  refine pop_completes_iff.2 ?_
  by_cases hij : i = j
  · subst hij
    cases hs.symm.trans hx
    have hplaced : sys.placed i i u s = u := by
      rw [placed_self, delivered_of_not_consumer (by simp [hc])]
      exact if_pos hc
    rw [hplaced]
    exact ⟨(step_sameFarEnds hu).outDropped.trans hd,
      .inl (step_keeps_output (h.machine s (List.mem_of_getElem? hs)) hu hq)⟩
  · rw [placed_other hij]
    unfold System.delivered
    split <;> exact ⟨hd, hq⟩

theorem popLeftover_completes_after (h : sys.Inv) (hs : sys.machines[i]? = some s)
    (hu : step s = .next u) (hx : sys.machines[j]? = some x)
    (hdone : ∃ y r, x.popLeftover = .done y r) :
    ∃ y r, (sys.placed i j u x).popLeftover = .done y r := by
  obtain ⟨hend, hq⟩ := popLeftover_completes_iff.1 hdone
  refine popLeftover_completes_iff.2 ?_
  rw [placed_of_terminated hs hu hx hend, delivered_terminated]
  refine ⟨hend, ?_⟩
  by_cases hc : sys.consumerOf i = some j
  · have hopen := consumer_open h hs (step_cases hu).1 hc hx
    have hne : x.inQ ≠ [] := hq.resolve_right (by simp [hopen])
    rw [delivered_of_consumer hc]
    exact .inl (by simp [hne])
  · rwa [delivered_of_not_consumer hc]

theorem join_completes_after (hs : sys.machines[i]? = some s) (hu : step s = .next u)
    (hx : sys.machines[j]? = some x) (hend : x.terminated = true) :
    ∃ t r, (sys.place i u).act (.join j) = .done t r := by
  have hafter : (sys.place i u).machines[j]? = some (sys.delivered i j u x) := by
    rw [place_getElem?, hx, Option.map_some, placed_of_terminated hs hu hx hend]
  obtain ⟨after, r, hjoin, -⟩ := join_of_ended hafter (delivered_terminated.trans hend)
  exact ⟨after, _, hjoin⟩

theorem peek_completes_after {p : Nat} (hs : sys.machines[i]? = some s) (hu : step s = .next u)
    (hj : j ∈ sys.joined) (hx : sys.machines[j]? = some x) (hend : x.terminated = true)
    (hp : p < x.cfg.addrLimit) : ∃ t r, (sys.place i u).act (.peek j p) = .done t r := by
  have hafter : (sys.place i u).machines[j]? = some (sys.placed i j u x) := by
    rw [place_getElem?, hx, Option.map_some]
  refine ⟨_, _, peek_of_joined (by simpa using hj) hafter ?_ ?_⟩
  · rwa [placed_of_terminated hs hu hx hend, delivered_terminated]
  · rwa [(keptByPlace hs hu hx).cfg]

/-- No machine's step disables an operation of the host. -/
theorem host_completes_after (h : sys.Inv) (ha : a.agent = .host) (hs : sys.machines[i]? = some s)
    (hu : step s = .next u) (hdone : ∃ t r, sys.act a = .done t r) :
    ∃ t r, (sys.place i u).act a = .done t r := by
  have hfeed (hf : FeedingAction a) : ∃ t r, (sys.place i u).act a = .done t r := by
    obtain ⟨t, r, ht⟩ := hdone
    obtain ⟨j, hj, -⟩ := System.Feeds.of_act hf ha ht
    exact ⟨_, (hj.place h hs hu).act⟩
  cases a with
  | run => cases ha
  | push | close | start => exact hfeed trivial
  | pop j =>
    simp only [System.act, System.popOutput, consumerOf_place] at hdone ⊢
    cases hc : sys.consumerOf j with
    | none =>
      rw [hc] at hdone
      exact onMachine_completes_after hdone fun x => pop_completes_after h hs hu hc
    | some k =>
      rw [hc] at hdone
      exact onMachine_completes_after hdone fun x => popLeftover_completes_after h hs hu
  | drop j =>
    simp only [System.act, System.dropOutput, consumerOf_place] at hdone ⊢
    cases hc : sys.consumerOf j with
    | none =>
      rw [hc] at hdone
      exact onMachine_completes_after hdone fun x _ _ => ⟨_, _, rfl⟩
    | some k => simp [hc] at hdone
  | join j =>
    obtain ⟨t, r, ht⟩ := hdone
    obtain ⟨x, _, hx, hend, -⟩ := joinMachine_cases ht
    exact join_completes_after hs hu hx hend
  | peek j p =>
    obtain ⟨t, r, ht⟩ := hdone
    simp only [System.act, System.peekMachine] at ht
    split at ht
    · next hj =>
      obtain ⟨x, y, hx, hy, -⟩ := onMachine_cases ht
      obtain ⟨hend, hp, -⟩ := peek_cases hy
      exact peek_completes_after hs hu hj hx hend hp
    · cases ht

end

/-! ### Executions -/

section
variable {trace : Nat → System} {acts : Nat → Action} {host : Nat → Option Action}

theorem execution_inv (h0 : (trace 0).Inv) (he : IsExecution trace acts host) (n : Nat) :
    (trace n).Inv := by
  induction n with
  | zero => exact h0
  | succ n ih =>
    obtain ⟨r, hr⟩ | ⟨-, -, hsame⟩ := he.1 n
    · exact actionsKeepSystemsGood _ _ _ _ ih hr
    · rwa [hsame]

/-- What stays until something happens: it happens, or it stays for ever. -/
theorem happens_or_stays {P Q : Nat → Prop} {n : Nat} (h : P n)
    (hstep : ∀ k, P k → ¬ Q k → P (k + 1)) :
    (∃ k, n ≤ k ∧ P k ∧ Q k) ∨ ∀ k, n ≤ k → P k := by
  by_cases hq : ∃ k, n ≤ k ∧ P k ∧ Q k
  · exact .inl hq
  · exact .inr fun k hk => Nat.le_induction h
      (fun k hk hp => hstep k hp fun hQ => hq ⟨k, hk, hp, hQ⟩) k hk

theorem machine_served (h0 : (trace 0).Inv) (he : IsExecution trace acts host)
    (hf : WeaklyFair trace acts host) {n i : Nat} (hi : (trace n).Enabled i) :
    ∃ k, n ≤ k ∧ acts k = .run i := by
  have hstep (k : Nat) (hk : (trace k).Enabled i) (hne : ¬ acts k = .run i) :
      (trace (k + 1)).Enabled i := by
    obtain ⟨r, hr⟩ | ⟨-, -, hsame⟩ := he.1 k
    · exact enabled_of_act (execution_inv h0 he k) hne hr hk
    · rwa [hsame]
  obtain ⟨k, hk, -, hrun⟩ | hstays := happens_or_stays (P := fun k => (trace k).Enabled i) hi hstep
  · exact ⟨k, hk, hrun⟩
  · obtain ⟨k, hk, hagent⟩ := hf (.machine i) n hstays
    exact ⟨k, hk, eq_run_of_agent hagent⟩

/-- The host stands at `a` after `n` actions, and `a` would complete. -/
def StandsReady (trace : Nat → System) (host : Nat → Option Action) (a : Action) (n : Nat) : Prop :=
  host n = some a ∧ ∃ t r, (trace n).act a = .done t r

theorem standsReady_step (h0 : (trace 0).Inv) (he : IsExecution trace acts host) {a : Action}
    (k : Nat) (hk : StandsReady trace host a k) (hne : ¬ acts k = a) :
    StandsReady trace host a (k + 1) := by
  obtain ⟨hhost, hdone⟩ := hk
  obtain ⟨hacts, hstand⟩ := he.2 k
  obtain ⟨ha, hstay⟩ := hstand a hhost
  have hmachine : (acts k).agent ≠ .host := fun hg =>
    hne (Option.some.inj ((hacts hg).symm.trans hhost))
  obtain ⟨r, hr⟩ | ⟨hg, -⟩ := he.1 k
  · refine ⟨hstay hne, ?_⟩
    cases hg : (acts k).agent with
    | host => exact absurd hg hmachine
    | machine i =>
      rw [eq_run_of_agent hg] at hr
      obtain ⟨s, u, hs, hu, hplace, -⟩ := runMachine_cases hr
      rw [hplace]
      exact host_completes_after (execution_inv h0 he k) ha hs hu hdone
  · exact absurd hg hmachine

theorem host_served (h0 : (trace 0).Inv) (he : IsExecution trace acts host)
    (hf : WeaklyFair trace acts host) {n : Nat} {a : Action} (ha : StandsReady trace host a n) :
    ∃ k, n ≤ k ∧ acts k = a ∧ ∃ t r, (trace k).act a = .done t r := by
  obtain ⟨k, hk, ⟨-, hdone⟩, hact⟩ | hstays := happens_or_stays (Q := fun k => acts k = a) ha
    (standsReady_step h0 he)
  · exact ⟨k, hk, hact, hdone⟩
  · obtain ⟨k, hk, hagent⟩ := hf .host n fun k hk => by
      obtain ⟨hhost, t, r, hdone⟩ := hstays k hk
      exact ⟨a, hhost, by simp [hdone]⟩
    obtain ⟨hhost, hdone⟩ := hstays k hk
    exact ⟨k, hk, Option.some.inj (((he.2 k).1 hagent).symm.trans hhost), hdone⟩

end

/-- Settles O60: an agent whose step stays enabled is served by fairness, and an enabled step stays
enabled until it is taken. -/
theorem weakFairnessServesEveryAgent : Obligations.WeakFairnessServesEveryAgent := by
  intro trace acts host h0 he hf
  refine ⟨fun n i => machine_served h0 he hf, fun n a t r hhost hdone => ?_⟩
  obtain ⟨k, hk, hact, t', r', hdone'⟩ := host_served h0 he hf ⟨hhost, t, r, hdone⟩
  exact ⟨k, t', r', hk, hact, hdone'⟩

end Sys2Proof.Machine
end

section
/-! Construction: the parser accepts exactly the grammar. What may follow at each state of the parser is
said in the grammar's terms, and read off character by character (70_reset_and_hazards.md R191, R192). -/

namespace Sys2Proof.Machine

/-! ### What may follow at each state of the parser -/

/-- `number ("," number)* ws`, with the numbers `ys`. -/
def FieldText (t : List Char) (ys : List Int) : Prop :=
  ∃ body trail, t = body ++ trail ∧ trail.all isBlank = true ∧ NumbersText body ys

/-- `("," number)* ws`, what may follow a number, with the numbers `ys`. -/
def AfterNumber (t : List Char) (ys : List Int) : Prop :=
  (ys = [] ∧ t.all isBlank = true) ∨ ∃ rest, t = ',' :: rest ∧ FieldText rest ys

/-- The rest of a number whose digits so far have the value `acc`, and what follows the number. -/
def DigitsText (negative : Bool) (acc : Nat) (t : List Char) (ys : List Int) : Prop :=
  ∃ ds mag rest zs, t = ds ++ rest ∧ digitsValue acc ds = some mag ∧ ys = signed negative mag :: zs ∧
    AfterNumber rest zs

/-- What may follow the `-` of a number. -/
def SignText (t : List Char) (ys : List Int) : Prop :=
  ∃ ch d rest, t = ch :: rest ∧ digitValue ch = some d ∧ DigitsText true d rest ys

/-- What the parser may still read, with the numbers that it will add. -/
def RestText : ParseState → List Char → List Int → Prop
  | .lead, t, ys => ProgramText t ys
  | .field, t, ys => FieldText t ys
  | .sign _, t, ys => SignText t ys
  | .number _ negative acc, t, ys => DigitsText negative acc t ys
  | .trail, t, ys => ys = [] ∧ t.all isBlank = true

/-! ### Characters -/

theorem isBlank_iff {ch : Char} :
    isBlank ch = true ↔ ch = ' ' ∨ ch = '\t' ∨ ch = '\r' ∨ ch = '\n' := by
  simp [isBlank, or_assoc]

theorem not_digit_of_blank {ch : Char} (h : isBlank ch = true) : digitValue ch = none := by
  obtain rfl | rfl | rfl | rfl := isBlank_iff.1 h <;> decide

theorem not_minus_of_blank {ch : Char} (h : isBlank ch = true) : ch ≠ '-' := by
  obtain rfl | rfl | rfl | rfl := isBlank_iff.1 h <;> decide

theorem digitValue_comma : digitValue ',' = none := by decide

theorem digitValue_minus : digitValue '-' = none := by decide

section
variable {ch : Char} {rest : List Char} {ys zs : List Int} {negative : Bool} {acc : Nat}

/-! ### Numbers -/

theorem digitsValue_cons_eq_some {v : Nat} {ds : List Char} :
    digitsValue acc (ch :: ds) = some v ↔
      ∃ d, digitValue ch = some d ∧ digitsValue (10 * acc + d) ds = some v := by
  rw [digitsValue]
  cases digitValue ch <;> simp

/-- Numbers separated by commas are a number and what may follow it. -/
theorem fieldText_iff {t : List Char} :
    FieldText t ys ↔ ∃ t1 rest x zs, t = t1 ++ rest ∧ NumberText t1 x ∧ ys = x :: zs ∧
      AfterNumber rest zs := by
  constructor
  · rintro ⟨body, trail, rfl, htrail, hbody⟩
    match ys with
    | [] => cases body <;> exact hbody.elim
    | [x] => exact ⟨body, trail, x, [], rfl, hbody, rfl, .inl ⟨rfl, htrail⟩⟩
    | x :: y :: ys =>
      obtain ⟨t1, t2, rfl, h1, h2⟩ := hbody
      exact ⟨t1, ',' :: t2 ++ trail, x, y :: ys, by simp, h1, rfl,
        .inr ⟨t2 ++ trail, rfl, t2, trail, rfl, htrail, h2⟩⟩
  · rintro ⟨t1, rest, x, zs, rfl, h1, rfl, ⟨rfl, htrail⟩ | ⟨rest', rfl, t2, trail, rfl, htrail, h2⟩⟩
    · exact ⟨t1, rest, rfl, htrail, h1⟩
    · match zs with
      | [] => cases t2 <;> exact h2.elim
      | y :: ys => exact ⟨t1 ++ ',' :: t2, trail, by simp, htrail, t1, t2, rfl, h1, h2⟩

/-- A number begins with a digit, or with a sign and then a digit. -/
theorem fieldText_cons :
    FieldText (ch :: rest) ys ↔ (ch = '-' ∧ SignText rest ys) ∨
      ∃ d, digitValue ch = some d ∧ DigitsText false d rest ys := by
  rw [fieldText_iff]
  constructor
  · rintro ⟨t1, after, x, zs, ht, ⟨ds, mag, hne, hmag, ⟨rfl, rfl⟩ | ⟨rfl, rfl⟩⟩, rfl, hafter⟩
    · obtain ⟨c', ds, rfl⟩ := List.exists_cons_of_ne_nil hne
      obtain ⟨d, hd, hvalue⟩ := digitsValue_cons_eq_some.1 hmag
      obtain ⟨rfl, rfl⟩ := List.cons.inj ht
      exact .inr ⟨d, hd, ds, mag, after, zs, rfl, by simpa using hvalue, rfl, hafter⟩
    · obtain ⟨c', ds, rfl⟩ := List.exists_cons_of_ne_nil hne
      obtain ⟨d, hd, hvalue⟩ := digitsValue_cons_eq_some.1 hmag
      obtain ⟨rfl, rfl⟩ := List.cons.inj ht
      exact .inl ⟨rfl, c', d, ds ++ after, rfl, hd, ds, mag, after, zs, rfl, by simpa using hvalue,
        rfl, hafter⟩
  · rintro (⟨rfl, c', d, _, rfl, hd, ds, mag, after, zs, rfl, hmag, rfl, hafter⟩ |
      ⟨d, hd, ds, mag, after, zs, rfl, hmag, rfl, hafter⟩)
    · exact ⟨'-' :: c' :: ds, after, _, zs, rfl, ⟨c' :: ds, mag, by simp,
        digitsValue_cons_eq_some.2 ⟨d, hd, by simpa using hmag⟩, .inr ⟨rfl, rfl⟩⟩, rfl, hafter⟩
    · exact ⟨ch :: ds, after, _, zs, rfl, ⟨ch :: ds, mag, by simp,
        digitsValue_cons_eq_some.2 ⟨d, hd, by simpa using hmag⟩, .inl ⟨rfl, rfl⟩⟩, rfl, hafter⟩

theorem not_fieldText_nil : ¬ FieldText [] ys := by
  rw [fieldText_iff]
  rintro ⟨t1, rest, x, zs, ht, ⟨ds, mag, hne, -, ⟨rfl, -⟩ | ⟨rfl, -⟩⟩, -⟩
  · exact hne (List.append_eq_nil_iff.1 ht.symm).1
  · cases ht

theorem fieldText_minus : FieldText ('-' :: rest) ys ↔ SignText rest ys := by
  simp [fieldText_cons, digitValue_minus]

theorem fieldText_of_digit {d : Nat} (h : digitValue ch = some d) :
    FieldText (ch :: rest) ys ↔ DigitsText false d rest ys := by
  have hminus : ch ≠ '-' := fun he => by simp [he, digitValue_minus] at h
  simp [fieldText_cons, hminus, h]

theorem not_fieldText (hminus : ch ≠ '-') (h : digitValue ch = none) :
    ¬ FieldText (ch :: rest) ys := by
  simp [fieldText_cons, hminus, h]

theorem signText_cons {t : List Char} :
    SignText (ch :: t) ys ↔ ∃ d, digitValue ch = some d ∧ DigitsText true d t ys := by
  constructor
  · rintro ⟨c', d, rest, ht, hd, h⟩
    cases ht
    exact ⟨d, hd, h⟩
  · rintro ⟨d, hd, h⟩
    exact ⟨ch, d, t, rfl, hd, h⟩

/-! ### Leading whitespace -/

theorem programText_iff {t : List Char} :
    ProgramText t ys ↔ ∃ lead rest, t = lead ++ rest ∧ lead.all isBlank = true ∧ FieldText rest ys := by
  constructor
  · rintro ⟨lead, body, trail, rfl, hlead, htrail, hbody⟩
    exact ⟨lead, body ++ trail, by simp, hlead, body, trail, rfl, htrail, hbody⟩
  · rintro ⟨lead, _, rfl, hlead, body, trail, rfl, htrail, hbody⟩
    exact ⟨lead, body, trail, by simp, hlead, htrail, hbody⟩

theorem not_programText_nil : ¬ ProgramText [] ys := by
  rw [programText_iff]
  rintro ⟨lead, rest, ht, -, hrest⟩
  obtain ⟨-, rfl⟩ := List.append_eq_nil_iff.1 ht.symm
  exact not_fieldText_nil hrest

theorem programText_cons_of_blank (h : isBlank ch = true) :
    ProgramText (ch :: rest) ys ↔ ProgramText rest ys := by
  rw [programText_iff, programText_iff]
  constructor
  · rintro ⟨lead, field, ht, hlead, hfield⟩
    cases lead with
    | nil =>
      rw [List.nil_append] at ht
      exact absurd (ht ▸ hfield) (not_fieldText (not_minus_of_blank h) (not_digit_of_blank h))
    | cons c' lead =>
      obtain ⟨rfl, rfl⟩ := List.cons.inj ht
      exact ⟨lead, field, rfl, by simp_all, hfield⟩
  · rintro ⟨lead, field, rfl, hlead, hfield⟩
    exact ⟨ch :: lead, field, rfl, by simp_all, hfield⟩

theorem programText_cons_of_not_blank (h : isBlank ch = false) :
    ProgramText (ch :: rest) ys ↔ FieldText (ch :: rest) ys := by
  rw [programText_iff]
  constructor
  · rintro ⟨lead, field, ht, hlead, hfield⟩
    cases lead with
    | nil => exact ht ▸ hfield
    | cons c' lead =>
      obtain ⟨rfl, -⟩ := List.cons.inj ht
      simp [h] at hlead
  · intro hfield
    exact ⟨[], ch :: rest, rfl, rfl, hfield⟩

/-! ### After a digit, and after a number -/

theorem digitsText_nil : DigitsText negative acc [] ys ↔ ys = [signed negative acc] := by
  constructor
  · rintro ⟨ds, mag, rest, zs, ht, hmag, rfl, hafter⟩
    obtain ⟨rfl, rfl⟩ := List.append_eq_nil_iff.1 ht.symm
    obtain ⟨rfl, -⟩ | ⟨rest, hrest, -⟩ := hafter
    · cases hmag
      rfl
    · cases hrest
  · rintro rfl
    exact ⟨[], acc, [], [], rfl, rfl, rfl, .inl ⟨rfl, rfl⟩⟩

theorem afterNumber_comma : AfterNumber (',' :: rest) zs ↔ FieldText rest zs := by
  constructor
  · rintro (⟨-, hblank⟩ | ⟨rest', ht, h⟩)
    · simp [isBlank] at hblank
    · cases ht
      exact h
  · exact fun h => .inr ⟨rest, rfl, h⟩

theorem afterNumber_not_comma (h : ch ≠ ',') :
    AfterNumber (ch :: rest) zs ↔ isBlank ch = true ∧ zs = [] ∧ rest.all isBlank = true := by
  constructor
  · rintro (⟨rfl, hblank⟩ | ⟨rest', ht, -⟩)
    · simpa using hblank
    · exact absurd (List.cons.inj ht).1 h
  · rintro ⟨hch, rfl, hrest⟩
    exact .inl ⟨rfl, by simp [hch, hrest]⟩

theorem digitsText_cons_of_digit {d : Nat} (h : digitValue ch = some d) :
    DigitsText negative acc (ch :: rest) ys ↔ DigitsText negative (10 * acc + d) rest ys := by
  constructor
  · rintro ⟨ds, mag, after, zs, ht, hmag, rfl, hafter⟩
    cases ds with
    | nil =>
      rw [List.nil_append] at ht
      subst ht
      by_cases hcomma : ch = ','
      · simp [hcomma, digitValue_comma] at h
      · simp [not_digit_of_blank ((afterNumber_not_comma hcomma).1 hafter).1] at h
    | cons c' ds =>
      obtain ⟨rfl, rfl⟩ := List.cons.inj ht
      obtain ⟨d', hd', hmag⟩ := digitsValue_cons_eq_some.1 hmag
      cases h.symm.trans hd'
      exact ⟨ds, mag, after, zs, rfl, hmag, rfl, hafter⟩
  · rintro ⟨ds, mag, after, zs, rfl, hmag, rfl, hafter⟩
    exact ⟨ch :: ds, mag, after, zs, rfl, digitsValue_cons_eq_some.2 ⟨d, h, hmag⟩, rfl, hafter⟩

theorem digitsText_cons_of_not_digit (h : digitValue ch = none) :
    DigitsText negative acc (ch :: rest) ys ↔
      ∃ zs, ys = signed negative acc :: zs ∧ AfterNumber (ch :: rest) zs := by
  constructor
  · rintro ⟨ds, mag, after, zs, ht, hmag, rfl, hafter⟩
    cases ds with
    | nil =>
      cases hmag
      exact ⟨zs, rfl, ht ▸ hafter⟩
    | cons c' ds =>
      obtain ⟨rfl, rfl⟩ := List.cons.inj ht
      obtain ⟨d, hd, -⟩ := digitsValue_cons_eq_some.1 hmag
      simp [h] at hd
  · rintro ⟨zs, rfl, hafter⟩
    exact ⟨[], acc, ch :: rest, zs, rfl, rfl, rfl, hafter⟩

end

/-! ### The parser (70_reset_and_hazards.md R191, R192) -/

/-- `xs` are the numbers `done`, newest first, and then words that `R` allows. -/
def Completes (c : Config) (done : List Int) (R : List Int → Prop) (xs : List Int) : Prop :=
  ∃ ys, R ys ∧ (∀ y ∈ ys, isWord c y = true) ∧ xs = done.reverse ++ ys

section
variable {c : Config} {done xs : List Int} {R R' : List Int → Prop}

theorem completes_congr (h : ∀ ys, R ys ↔ R' ys) : Completes c done R xs ↔ Completes c done R' xs :=
  exists_congr fun ys => and_congr_left fun _ => h ys

theorem not_completes (h : ∀ ys, ¬ R ys) : ¬ Completes c done R xs :=
  fun ⟨ys, hys, _⟩ => h ys hys

theorem completes_nothing (h : ∀ ys, R ys ↔ ys = []) :
    Completes c done R xs ↔ xs = done.reverse := by
  simp [Completes, h]

/-- A number that is added has to be a word. -/
theorem completes_number {x : Int} (h : ∀ ys, R ys ↔ ∃ zs, ys = x :: zs ∧ R' zs) :
    Completes c done R xs ↔ isWord c x = true ∧ Completes c (x :: done) R' xs := by
  constructor
  · rintro ⟨ys, hys, hword, rfl⟩
    obtain ⟨zs, rfl, hzs⟩ := (h ys).1 hys
    obtain ⟨hx, hword⟩ := List.forall_mem_cons.1 hword
    exact ⟨hx, zs, hzs, hword, by simp⟩
  · rintro ⟨hx, zs, hzs, hword, rfl⟩
    exact ⟨x :: zs, (h _).2 ⟨zs, rfl, hzs⟩, List.forall_mem_cons.2 ⟨hx, hword⟩, by simp⟩

theorem pushNumber_of_word {pos mag : Nat} {negative : Bool}
    (h : isWord c (signed negative mag) = true) :
    pushNumber c pos negative mag done = .ok (signed negative mag :: done) := if_pos h

theorem pushNumber_of_not_word {pos mag : Nat} {negative : Bool}
    (h : isWord c (signed negative mag) = false) :
    pushNumber c pos negative mag done = .error (.parseError pos) := if_neg (by simp [h])

/-- At the end of the text: a number is added, and only that or trailing whitespace may end it. -/
theorem parseFrom_nil_eq_ok (st : ParseState) (pos : Nat) (done : List Int) :
    parseFrom c st pos done [] = .ok xs ↔ Completes c done (RestText st []) xs := by
  cases st with
  | lead => exact iff_of_false nofun (not_completes (R := ProgramText []) fun _ => not_programText_nil)
  | field => exact iff_of_false nofun (not_completes (R := FieldText []) fun _ => not_fieldText_nil)
  | sign p => exact iff_of_false nofun (not_completes (R := SignText []) fun _ => nofun)
  | number p n mag =>
    have hrest (ys : List Int) : RestText (.number p n mag) [] ys ↔
        ∃ zs, ys = signed n mag :: zs ∧ zs = [] := by simp [RestText, digitsText_nil]
    rw [completes_number hrest, completes_nothing fun _ => Iff.rfl, parseFrom]
    cases hw : isWord c (signed n mag) with
    | true => simp [pushNumber_of_word hw, eq_comm]
    | false => simp [pushNumber_of_not_word hw]
  | trail =>
    rw [completes_nothing (R := RestText .trail []) fun ys => by simp [RestText], parseFrom]
    simp [eq_comm]

section
variable {ch : Char} {rest : List Char}
  (ih : ∀ (st : ParseState) (pos : Nat) (done : List Int),
    parseFrom c st pos done rest = .ok xs ↔ Completes c done (RestText st rest) xs)
include ih

theorem parseFrom_field_eq_ok (pos : Nat) (done : List Int) :
    parseFrom c .field pos done (ch :: rest) = .ok xs ↔
      Completes c done (FieldText (ch :: rest)) xs := by
  by_cases hm : ch = '-'
  · subst hm
    rw [completes_congr fun ys => fieldText_minus, parseFrom, if_pos rfl]
    exact ih (.sign pos) (pos + 1) done
  · rw [parseFrom, if_neg hm]
    cases hd : digitValue ch with
    | none => exact iff_of_false nofun (not_completes fun _ => not_fieldText hm hd)
    | some d =>
      rw [completes_congr fun ys => fieldText_of_digit hd]
      exact ih (.number pos false d) (pos + 1) done

theorem parseFrom_lead_eq_ok (pos : Nat) (done : List Int) :
    parseFrom c .lead pos done (ch :: rest) = .ok xs ↔
      Completes c done (ProgramText (ch :: rest)) xs := by
  cases hb : isBlank ch with
  | true =>
    rw [completes_congr fun ys => programText_cons_of_blank hb, parseFrom, if_pos hb]
    exact ih .lead (pos + 1) done
  | false =>
    have hsame : parseFrom c .lead pos done (ch :: rest) = parseFrom c .field pos done (ch :: rest) := by
      simp [parseFrom, hb]
    rw [completes_congr fun ys => programText_cons_of_not_blank hb, hsame]
    exact parseFrom_field_eq_ok ih pos done

theorem parseFrom_sign_eq_ok (p pos : Nat) (done : List Int) :
    parseFrom c (.sign p) pos done (ch :: rest) = .ok xs ↔
      Completes c done (SignText (ch :: rest)) xs := by
  rw [completes_congr fun ys => signText_cons, parseFrom]
  cases digitValue ch with
  | none => exact iff_of_false nofun (not_completes fun _ => by simp)
  | some d =>
    simp only [Option.some.injEq, exists_eq_left']
    exact ih (.number p true d) (pos + 1) done

theorem parseFrom_number_eq_ok (p pos mag : Nat) (n : Bool) (done : List Int) :
    parseFrom c (.number p n mag) pos done (ch :: rest) = .ok xs ↔
      Completes c done (DigitsText n mag (ch :: rest)) xs := by
  rw [parseFrom]
  cases hd : digitValue ch with
  | some d =>
    rw [completes_congr fun ys => digitsText_cons_of_digit hd]
    exact ih (.number p n (10 * mag + d)) (pos + 1) done
  | none =>
    rw [completes_number fun ys => digitsText_cons_of_not_digit hd]
    cases hw : isWord c (signed n mag) with
    | false =>
      simp only [pushNumber_of_not_word hw]
      refine iff_of_false (fun h => ?_) (by simp)
      split at h
      · cases h
      · split at h <;> cases h
    | true =>
      simp only [pushNumber_of_word hw, true_and]
      by_cases hcomma : ch = ','
      · subst hcomma
        rw [if_pos rfl, completes_congr fun ys => afterNumber_comma]
        exact ih .field (pos + 1) _
      · rw [if_neg hcomma, completes_congr fun ys => afterNumber_not_comma hcomma]
        cases hb : isBlank ch with
        | true =>
          simp only [true_and, if_true]
          exact ih .trail (pos + 1) _
        | false => exact iff_of_false nofun (not_completes fun _ => by simp)

theorem parseFrom_trail_eq_ok (pos : Nat) (done : List Int) :
    parseFrom c .trail pos done (ch :: rest) = .ok xs ↔
      Completes c done (RestText .trail (ch :: rest)) xs := by
  have hrest (ys : List Int) : RestText .trail (ch :: rest) ys ↔
      isBlank ch = true ∧ RestText .trail rest ys := by simp [RestText, and_left_comm]
  rw [completes_congr hrest, parseFrom]
  cases isBlank ch with
  | true =>
    simp only [true_and, if_true]
    exact ih .trail (pos + 1) done
  | false => exact iff_of_false nofun (not_completes fun _ => by simp)

end

/-- From every state the parser accepts what may follow there, and reads its numbers. -/
theorem parseFrom_eq_ok (st : ParseState) (pos : Nat) (done : List Int) (text : List Char) :
    parseFrom c st pos done text = .ok xs ↔ Completes c done (RestText st text) xs := by
  induction text generalizing st pos done with
  | nil => exact parseFrom_nil_eq_ok st pos done
  | cons ch rest ih =>
    cases st with
    | lead => exact parseFrom_lead_eq_ok ih pos done
    | field => exact parseFrom_field_eq_ok ih pos done
    | sign p => exact parseFrom_sign_eq_ok ih p pos done
    | number p n mag => exact parseFrom_number_eq_ok ih p pos mag n done
    | trail => exact parseFrom_trail_eq_ok ih pos done

theorem pushNumber_error {pos mag : Nat} {negative : Bool} {e : Raised}
    (h : pushNumber c pos negative mag done = .error e) : e.cause = .parseError := by
  unfold pushNumber at h
  split at h
  · cases h
  · cases h
    rfl

/-- The parser raises ParseError and nothing else (R192). -/
theorem parseFrom_error {st : ParseState} {pos : Nat} {text : List Char} {e : Raised}
    (h : parseFrom c st pos done text = .error e) : e.cause = .parseError := by
  fun_induction parseFrom c st pos done text
  case case1 =>
    obtain h | ⟨all, -, h⟩ := bind_eq_error.1 h
    · exact pushNumber_error h
    · cases h
  case case2 => cases h
  case case14 hpush _ | case16 hpush =>
    cases h
    exact pushNumber_error hpush
  case case3 | case7 | case10 | case12 | case18 | case20 =>
    cases h
    rfl
  case case4 ih | case5 ih | case6 ih | case8 ih | case9 ih | case11 ih | case13 ih | case15 ih |
      case17 ih | case19 ih =>
    exact ih h

end

/-- Settles O46: the parser starts before the leading whitespace with no number read. -/
theorem loaderAcceptsExactlyTheGrammar : Obligations.LoaderAcceptsExactlyTheGrammar := by
  refine fun c text => ⟨fun xs => ?_, fun e => parseFrom_error⟩
  rw [parseText, parseFrom_eq_ok]
  simp [Completes, RestText]

end Sys2Proof.Machine
end
